-- ==== Sys2Proof/Word.lean ====
section
/-! DEFINITION. The word types of the ssd1306 framebuffer engine (spec/00_scope.md R9, R11). -/

namespace Sys2Proof

/-- A byte of FB, STRMEM, a font bitmap or a bus transaction. -/
abbrev Byte := BitVec 8

/-- A 32-bit register of the host window (spec/10_state.md R31). -/
abbrev Reg32 := BitVec 32

/-- A command word (spec/30_encoding.md R80). -/
abbrev CmdWord := BitVec 64

end Sys2Proof
end

