-- ==== Sys2Proof/Syntax.lean ====
section
/-! DEFINITION. The commands as syntax: one constructor per row of spec/opcode_table.json (spec/30_encoding.md R86).
Operands are the fields of the command word (R80, R81); Machine/Operands.lean reads them. -/

namespace Sys2Proof

/-- The four colours (spec/30_encoding.md R84, spec/40_framebuffer.md R110). -/
inductive Colour where
  | black
  | white
  | invert
  | transparent
deriving DecidableEq, Repr

/-- A command. Coordinates and sizes are the 12-bit fields `X`, `Y`, `P`, `Q`; `null` is NULLSTR and `force` is
FORCE, both the flag `F0` (spec/30_encoding.md R85). -/
inductive Instr where
  | nop
  | clear
  | markDirty (x y : BitVec 12)
  | setPixel (colour : Colour) (x y : BitVec 12)
  | drawHline (colour : Colour) (x y w : BitVec 12)
  | drawVline (colour : Colour) (x y h : BitVec 12)
  | drawRect (colour : Colour) (x y w h : BitVec 12)
  | fillRect (colour : Colour) (x y w h : BitVec 12)
  | drawCircle (colour : Colour) (x0 y0 r : BitVec 12)
  | fillCircle (colour : Colour) (x0 y0 r : BitVec 12)
  | selectFont (id : BitVec 12)
  | drawChar (fg bg : Colour) (x y : BitVec 12) (code : Byte)
  | drawStringColor (fg bg : Colour) (null : Bool) (x y address : BitVec 12)
  | drawString (null : Bool) (x y address : BitVec 12)
  | measureString (null : Bool) (address : BitVec 12)
  | refresh (force : Bool)
  | sendCmd1 (b : Byte)
  | sendCmd2 (b v : Byte)
  | clearStatus
deriving DecidableEq, Repr

end Sys2Proof
end

