-- ==== Sys2Proof/Machine/Operands.lean ====
section
/-! DEFINITION. How operands are read (spec/30_encoding.md R82, R83). -/

namespace Sys2Proof.Machine

/-- A coordinate operand: `sext_12`, from −2048 to 2047 (spec/30_encoding.md R82, spec/00_scope.md R11). -/
def coord (f : BitVec 12) : Int := f.toInt

/-- A size, radius, font id or string address: the field read as unsigned, 0 to 4095 (spec/30_encoding.md R83). -/
def size (f : BitVec 12) : Nat := f.toNat

/-- A character code: eight bits read as unsigned (spec/30_encoding.md R83). -/
def charCode (b : Byte) : Nat := b.toNat

end Sys2Proof.Machine
end

