-- ==== Sys2Proof/WellFormed.lean ====
section
/-! DEFINITION. When a command is well-formed. The widths of the operands are in their types; the one relation
between operands is that of the string commands: "`P` must be 0 when `NULLSTR = 1`" (spec/30_encoding.md R81). -/

namespace Sys2Proof

/-- A string operand: the null string is written with address 0 (spec/30_encoding.md R81). -/
def stringOperandOk (null : Bool) (address : BitVec 12) : Bool :=
  !null || address == 0#12

/-- Well-formed commands: those some command word stands for. -/
def Instr.wf : Instr → Bool
  | .nop => true
  | .clear => true
  | .markDirty _ _ => true
  | .setPixel _ _ _ => true
  | .drawHline _ _ _ _ => true
  | .drawVline _ _ _ _ => true
  | .drawRect _ _ _ _ _ => true
  | .fillRect _ _ _ _ _ => true
  | .drawCircle _ _ _ _ => true
  | .fillCircle _ _ _ _ => true
  | .selectFont _ => true
  | .drawChar _ _ _ _ _ => true
  | .drawStringColor _ _ null _ _ address => stringOperandOk null address
  | .drawString null _ _ address => stringOperandOk null address
  | .measureString null address => stringOperandOk null address
  | .refresh _ => true
  | .sendCmd1 _ => true
  | .sendCmd2 _ _ => true
  | .clearStatus => true

end Sys2Proof
end

