-- ==== Sys2Proof/Decode.lean ====
section
/-! DEFINITION. Decoding of a command word, total, with the two rejections of spec/30_encoding.md R87 by name, and
the encoder, written from the same tables (R80, R81, R84, R86). Every command is one 64-bit word (R89). -/

namespace Sys2Proof

/-- The fields of the one format `CMD64` (spec/30_encoding.md R80). -/
structure Fields where
  opc : BitVec 8
  fg  : BitVec 2
  bg  : BitVec 2
  rsv : BitVec 3
  f0  : BitVec 1
  x   : BitVec 12
  y   : BitVec 12
  p   : BitVec 12
  q   : BitVec 12
deriving DecidableEq, Repr

/-- The defined opcodes (spec/30_encoding.md R86). -/
inductive Op where
  | nop | clear | markDirty | setPixel
  | drawHline | drawVline | drawRect | fillRect | drawCircle | fillCircle
  | selectFont | drawChar | drawStringColor | drawString | measureString
  | refresh | sendCmd1 | sendCmd2 | clearStatus
deriving DecidableEq, Repr

/-- How a command uses the field `P` or `Q`: not at all, its low eight bits, or all twelve (spec/30_encoding.md R81). -/
inductive FieldUse where
  | unused
  | low8
  | full
deriving DecidableEq, Repr

/-- One row of the table of used fields (spec/30_encoding.md R81). -/
structure Used where
  fg : Bool
  bg : Bool
  f0 : Bool
  x  : Bool
  y  : Bool
  p  : FieldUse
  q  : FieldUse
deriving DecidableEq, Repr

/-- Why a word is rejected at decode (spec/30_encoding.md R87): error codes 1 and 2. -/
inductive DecodeError where
  | illegalOpcode
  | reservedField
deriving DecidableEq, Repr

/-! ## Fields of a word -/

/-- The fields of a word, by the bit positions of spec/30_encoding.md R80. -/
def Fields.ofWord (w : CmdWord) : Fields where
  opc := w.extractLsb' 56 8
  fg  := w.extractLsb' 54 2
  bg  := w.extractLsb' 52 2
  rsv := w.extractLsb' 49 3
  f0  := w.extractLsb' 48 1
  x   := w.extractLsb' 36 12
  y   := w.extractLsb' 24 12
  p   := w.extractLsb' 12 12
  q   := w.extractLsb' 0 12

/-- The word with these fields, the first one highest (spec/30_encoding.md R80). -/
def Fields.toWord (f : Fields) : CmdWord :=
  f.opc ++ f.fg ++ f.bg ++ f.rsv ++ f.f0 ++ f.x ++ f.y ++ f.p ++ f.q

/-! ## Opcodes, colours and flags -/

/-- The opcode map (spec/30_encoding.md R86); every other value is undefined. -/
def Op.ofByte (b : Byte) : Option Op :=
  if b = 0x00#8 then some .nop
  else if b = 0x01#8 then some .clear
  else if b = 0x02#8 then some .markDirty
  else if b = 0x03#8 then some .setPixel
  else if b = 0x10#8 then some .drawHline
  else if b = 0x11#8 then some .drawVline
  else if b = 0x12#8 then some .drawRect
  else if b = 0x13#8 then some .fillRect
  else if b = 0x14#8 then some .drawCircle
  else if b = 0x15#8 then some .fillCircle
  else if b = 0x20#8 then some .selectFont
  else if b = 0x21#8 then some .drawChar
  else if b = 0x22#8 then some .drawStringColor
  else if b = 0x23#8 then some .drawString
  else if b = 0x24#8 then some .measureString
  else if b = 0x30#8 then some .refresh
  else if b = 0x31#8 then some .sendCmd1
  else if b = 0x32#8 then some .sendCmd2
  else if b = 0x3F#8 then some .clearStatus
  else none

/-- The opcode map read the other way, for the encoder. -/
def Op.toByte : Op → Byte
  | .nop => 0x00
  | .clear => 0x01
  | .markDirty => 0x02
  | .setPixel => 0x03
  | .drawHline => 0x10
  | .drawVline => 0x11
  | .drawRect => 0x12
  | .fillRect => 0x13
  | .drawCircle => 0x14
  | .fillCircle => 0x15
  | .selectFont => 0x20
  | .drawChar => 0x21
  | .drawStringColor => 0x22
  | .drawString => 0x23
  | .measureString => 0x24
  | .refresh => 0x30
  | .sendCmd1 => 0x31
  | .sendCmd2 => 0x32
  | .clearStatus => 0x3F

/-- The used fields of each command (spec/30_encoding.md R81), in the order FG, BG, F0, X, Y, P, Q. -/
def Op.used : Op → Used
  | .nop             => ⟨false, false, false, false, false, .unused, .unused⟩
  | .clear           => ⟨false, false, false, false, false, .unused, .unused⟩
  | .markDirty       => ⟨false, false, false, true,  true,  .unused, .unused⟩
  | .setPixel        => ⟨true,  false, false, true,  true,  .unused, .unused⟩
  | .drawHline       => ⟨true,  false, false, true,  true,  .full,   .unused⟩
  | .drawVline       => ⟨true,  false, false, true,  true,  .full,   .unused⟩
  | .drawRect        => ⟨true,  false, false, true,  true,  .full,   .full⟩
  | .fillRect        => ⟨true,  false, false, true,  true,  .full,   .full⟩
  | .drawCircle      => ⟨true,  false, false, true,  true,  .full,   .unused⟩
  | .fillCircle      => ⟨true,  false, false, true,  true,  .full,   .unused⟩
  | .selectFont      => ⟨false, false, false, false, false, .full,   .unused⟩
  | .drawChar        => ⟨true,  true,  false, true,  true,  .low8,   .unused⟩
  | .drawStringColor => ⟨true,  true,  true,  true,  true,  .full,   .unused⟩
  | .drawString      => ⟨false, false, true,  true,  true,  .full,   .unused⟩
  | .measureString   => ⟨false, false, true,  false, false, .full,   .unused⟩
  | .refresh         => ⟨false, false, true,  false, false, .unused, .unused⟩
  | .sendCmd1        => ⟨false, false, false, false, false, .low8,   .unused⟩
  | .sendCmd2        => ⟨false, false, false, false, false, .low8,   .low8⟩
  | .clearStatus     => ⟨false, false, false, false, false, .unused, .unused⟩

/-- The three string commands, whose `F0` is NULLSTR (spec/30_encoding.md R81, R85). -/
def Op.isString : Op → Bool
  | .drawStringColor => true
  | .drawString => true
  | .measureString => true
  | _ => false

/-- The colour a colour field stands for (spec/30_encoding.md R84): every value is legal. -/
def Colour.ofCode (c : BitVec 2) : Colour :=
  if c = 0b00#2 then .black
  else if c = 0b01#2 then .white
  else if c = 0b10#2 then .invert
  else .transparent

/-- The code of a colour (spec/30_encoding.md R84). -/
def Colour.code : Colour → BitVec 2
  | .black => 0b00
  | .white => 0b01
  | .invert => 0b10
  | .transparent => 0b11

/-- The flag `F0` as a Bool. -/
def flagOf (f0 : BitVec 1) : Bool := f0 == 1#1

/-- A Bool as the flag `F0`. -/
def flagBit (b : Bool) : BitVec 1 := if b then 1#1 else 0#1

/-! ## Decoding -/

/-- A `P` or `Q` field meets its use: what the command does not use is 0 (spec/30_encoding.md R81). -/
def FieldUse.ok (u : FieldUse) (v : BitVec 12) : Bool :=
  match u with
  | .unused => v == 0#12
  | .low8 => v.extractLsb' 8 4 == 0#4
  | .full => true

/-- The second check of spec/30_encoding.md R87: reserved bits and unused fields are 0, and `P` is 0 where a string
command has NULLSTR = 1. -/
def fieldsOk (op : Op) (f : Fields) : Bool :=
  f.rsv == 0#3
    && (op.used.fg || f.fg == 0#2)
    && (op.used.bg || f.bg == 0#2)
    && (op.used.f0 || f.f0 == 0#1)
    && (op.used.x || f.x == 0#12)
    && (op.used.y || f.y == 0#12)
    && op.used.p.ok f.p
    && op.used.q.ok f.q
    && (!op.isString || stringOperandOk (flagOf f.f0) f.p)

/-- The command with these fields (the operand columns of spec/30_encoding.md R81). -/
def Fields.toInstr (op : Op) (f : Fields) : Instr :=
  match op with
  | .nop => .nop
  | .clear => .clear
  | .markDirty => .markDirty f.x f.y
  | .setPixel => .setPixel (Colour.ofCode f.fg) f.x f.y
  | .drawHline => .drawHline (Colour.ofCode f.fg) f.x f.y f.p
  | .drawVline => .drawVline (Colour.ofCode f.fg) f.x f.y f.p
  | .drawRect => .drawRect (Colour.ofCode f.fg) f.x f.y f.p f.q
  | .fillRect => .fillRect (Colour.ofCode f.fg) f.x f.y f.p f.q
  | .drawCircle => .drawCircle (Colour.ofCode f.fg) f.x f.y f.p
  | .fillCircle => .fillCircle (Colour.ofCode f.fg) f.x f.y f.p
  | .selectFont => .selectFont f.p
  | .drawChar => .drawChar (Colour.ofCode f.fg) (Colour.ofCode f.bg) f.x f.y (f.p.extractLsb' 0 8)
  | .drawStringColor =>
    .drawStringColor (Colour.ofCode f.fg) (Colour.ofCode f.bg) (flagOf f.f0) f.x f.y f.p
  | .drawString => .drawString (flagOf f.f0) f.x f.y f.p
  | .measureString => .measureString (flagOf f.f0) f.p
  | .refresh => .refresh (flagOf f.f0)
  | .sendCmd1 => .sendCmd1 (f.p.extractLsb' 0 8)
  | .sendCmd2 => .sendCmd2 (f.p.extractLsb' 0 8) (f.q.extractLsb' 0 8)
  | .clearStatus => .clearStatus

/-- Decoding in the order of spec/30_encoding.md R87: the opcode first, then the reserved and unused fields. -/
def decode (w : CmdWord) : Except DecodeError Instr :=
  match Op.ofByte (Fields.ofWord w).opc with
  | none => .error .illegalOpcode
  | some op =>
    if fieldsOk op (Fields.ofWord w) then .ok ((Fields.ofWord w).toInstr op)
    else .error .reservedField

/-! ## Encoding -/

/-- The opcode of a command. -/
def Instr.op : Instr → Op
  | .nop => .nop
  | .clear => .clear
  | .markDirty _ _ => .markDirty
  | .setPixel _ _ _ => .setPixel
  | .drawHline _ _ _ _ => .drawHline
  | .drawVline _ _ _ _ => .drawVline
  | .drawRect _ _ _ _ _ => .drawRect
  | .fillRect _ _ _ _ _ => .fillRect
  | .drawCircle _ _ _ _ => .drawCircle
  | .fillCircle _ _ _ _ => .fillCircle
  | .selectFont _ => .selectFont
  | .drawChar _ _ _ _ _ => .drawChar
  | .drawStringColor _ _ _ _ _ _ => .drawStringColor
  | .drawString _ _ _ _ => .drawString
  | .measureString _ _ => .measureString
  | .refresh _ => .refresh
  | .sendCmd1 _ => .sendCmd1
  | .sendCmd2 _ _ => .sendCmd2
  | .clearStatus => .clearStatus

/-- The fields of an opcode with every other field 0. -/
def Fields.zero (op : Op) : Fields := ⟨op.toByte, 0, 0, 0, 0, 0, 0, 0, 0⟩

/-- The fields of a command; "every field absent from the line" is 0 (spec/30_encoding.md R90). -/
def Instr.toFields (i : Instr) : Fields :=
  match i with
  | .nop => Fields.zero i.op
  | .clear => Fields.zero i.op
  | .markDirty x y => { Fields.zero i.op with x := x, y := y }
  | .setPixel c x y => { Fields.zero i.op with fg := c.code, x := x, y := y }
  | .drawHline c x y w => { Fields.zero i.op with fg := c.code, x := x, y := y, p := w }
  | .drawVline c x y h => { Fields.zero i.op with fg := c.code, x := x, y := y, p := h }
  | .drawRect c x y w h => { Fields.zero i.op with fg := c.code, x := x, y := y, p := w, q := h }
  | .fillRect c x y w h => { Fields.zero i.op with fg := c.code, x := x, y := y, p := w, q := h }
  | .drawCircle c x y r => { Fields.zero i.op with fg := c.code, x := x, y := y, p := r }
  | .fillCircle c x y r => { Fields.zero i.op with fg := c.code, x := x, y := y, p := r }
  | .selectFont n => { Fields.zero i.op with p := n }
  | .drawChar fg bg x y c =>
    { Fields.zero i.op with fg := fg.code, bg := bg.code, x := x, y := y, p := c.zeroExtend 12 }
  | .drawStringColor fg bg null x y a =>
    { Fields.zero i.op with fg := fg.code, bg := bg.code, f0 := flagBit null, x := x, y := y, p := a }
  | .drawString null x y a => { Fields.zero i.op with f0 := flagBit null, x := x, y := y, p := a }
  | .measureString null a => { Fields.zero i.op with f0 := flagBit null, p := a }
  | .refresh force => { Fields.zero i.op with f0 := flagBit force }
  | .sendCmd1 b => { Fields.zero i.op with p := b.zeroExtend 12 }
  | .sendCmd2 b v => { Fields.zero i.op with p := b.zeroExtend 12, q := v.zeroExtend 12 }
  | .clearStatus => Fields.zero i.op

/-- The word of a command (spec/30_encoding.md R90). -/
def encode (i : Instr) : CmdWord := i.toFields.toWord

/-- What the decoder reads from a word whose bits are `w`, numbered as spec/opcode_table.json numbers them; the bits
from `nbits` on are 0. -/
def decodeTableWord (nbits w : Nat) : Option Instr :=
  match decode (BitVec.ofNat 64 (w % 2 ^ nbits)) with
  | .ok i => some i
  | .error _ => none

end Sys2Proof
end

