-- ==== Sys2Proof/Config.lean ====
section
/-! DEFINITION. The implementation parameters (spec/00_scope.md R8), the font record (spec/42_text.md R170), the
free values, and the example configuration the reset state carries. The legality checks are in
Machine/Parameters.lean. -/

namespace Sys2Proof

/-- A glyph descriptor `desc[k]` (spec/42_text.md R170). -/
structure Glyph where
  width  : Nat
  offset : Nat
deriving DecidableEq, Repr

/-- A font record (spec/42_text.md R170). `spacing` is the spec's `c`; `desc[k]` describes character
`charStart + k`. -/
structure Font where
  height    : Nat
  spacing   : Nat
  charStart : Nat
  charEnd   : Nat
  desc      : List Glyph
  bitmap    : List Byte
deriving DecidableEq, Repr

/-- The panel constants and the font table (spec/00_scope.md R8), fixed for an instance. `NUM_FONTS` is the length
of `fonts`. -/
structure Config where
  W          : Nat
  H          : Nat
  colOffset  : Nat
  busAddr    : BitVec 7
  comPins    : Byte
  fonts      : List Font
  regCmd     : Byte
  regData    : Byte
  opcColwin  : Byte
  opcPagewin : Byte
deriving DecidableEq, Repr

/-- FREE VALUE (log 5): the transport's answer to a transaction that the list `State.answers` no longer covers;
`true` is ok, `false` is fail. "A draw under no law" (spec/00_scope.md R15). -/
opaque Config.freeAnswer : Nat → Bool

/-- FREE VALUE (log 9): the byte a host read of an unwritten STRMEM byte returns (spec/60_exceptions.md R249). -/
opaque Config.freeByte : Nat → Byte

/-- The example font T0 of spec/95_test_vectors.md section 0.1: a configuration example, no source data. -/
def fontT0 : Font where
  height := 5
  spacing := 1
  charStart := 0x20
  charEnd := 0x22
  desc := [⟨3, 0⟩, ⟨1, 5⟩, ⟨10, 10⟩]
  bitmap := [0x00, 0x00, 0x00, 0x00, 0x00, 0x80, 0x80, 0x80, 0x00, 0x80,
    0xFF, 0xC0, 0x80, 0x40, 0x80, 0x40, 0x80, 0x40, 0xFF, 0xC0]

/-- The example font T1 of spec/95_test_vectors.md section 0.1. -/
def fontT1 : Font where
  height := 3
  spacing := 0
  charStart := 0x20
  charEnd := 0x21
  desc := [⟨2, 0⟩, ⟨9, 3⟩]
  bitmap := [0x00, 0x00, 0x00, 0xAA, 0x80, 0x55, 0x00, 0xAA, 0x80]

/-- Configuration A of spec/95_test_vectors.md section 0. DESIGN CHOICE (log 2): every value of spec/00_scope.md R8
is open; the reset state carries this one. The register numbers and window opcodes are the defaults of R8. -/
def Config.exampleA : Config where
  W := 128
  H := 64
  colOffset := 0
  busAddr := 0x3C
  comPins := 0x12
  fonts := [fontT0, fontT1]
  regCmd := 0x00
  regData := 0x40
  opcColwin := 0x21
  opcPagewin := 0x22

end Sys2Proof
end

