-- ==== Sys2Proof/Machine/State.lean ====
section
/-! DEFINITION. The state of the block (spec/10_state.md R20), with the configuration it belongs to, the inputs still
to come from the host and the transport, and the observation so far (spec/00_scope.md R16). Plain data. -/

namespace Sys2Proof.Machine

/-- FB and STRMEM: address and byte, addresses strictly rising, no entry equal to what an unlisted address reads as
(`Memory.wf` in Machine/Ops.lean). -/
abbrev Memory := List Host.Cell

/-- The dirty rectangle: four 8-bit registers, inclusive bounds (spec/10_state.md R24). -/
structure Dirty where
  top    : BitVec 8
  left   : BitVec 8
  right  : BitVec 8
  bottom : BitVec 8
deriving DecidableEq, Repr

/-- The one empty value the block stores (spec/10_state.md R24). -/
def Dirty.sentinel : Dirty := ⟨0xFF, 0xFF, 0x00, 0x00⟩

/-- What the drawing commands work on: the framebuffer and the dirty rectangle (spec/40_framebuffer.md R116). -/
structure Canvas where
  fb    : Memory
  dirty : Dirty
deriving DecidableEq, Repr

/-- The record of a bus transaction (spec/43_refresh.md R200, R201): `('C', BUS_ADDR, REG_CMD, b)` and
`('D', BUS_ADDR, REG_DATA, bytes)`. -/
inductive BusRecord where
  | command (addr : BitVec 7) (reg : Byte) (b : Byte)
  | data (addr : BitVec 7) (reg : Byte) (bytes : List Byte)
deriving DecidableEq, Repr

/-- What the transport does with a transaction (spec/43_refresh.md R202, spec/70_reset_and_hazards.md R266). -/
inductive BusAnswer where
  | ok
  | fail
  | never
deriving DecidableEq, Repr

/-- The width of a host access (spec/20_memory.md R53, R54): 8, 16 or 32 bits, or any other width. -/
inductive Width where
  | byte
  | half
  | word
  | other
deriving DecidableEq, Repr

/-- One interaction of the host with the block (spec/70_reset_and_hazards.md R271). -/
inductive HostAccess where
  | write (addr : BitVec 16) (width : Width) (value : Reg32)
  | read (addr : BitVec 16) (width : Width)
  | reset
deriving DecidableEq, Repr

/-- The error codes of STATUS (spec/60_exceptions.md R230). -/
inductive ErrCode where
  | illegalOpcode
  | reservedField
  | unterminatedString
  | busWriteFail
deriving DecidableEq, Repr

/-- The state. Fields `fb` to `strmem` are the block's own (spec/10_state.md R20); `cfg` is its configuration
(log 1); `host` and `answers` are inputs (log 4, log 5); `trace` and `reads` are the observation (log 7); `draws`
counts the free values drawn (log 9). -/
structure State where
  cfg     : Config
  fb      : Memory
  dirty   : Dirty
  fontSel : Option (BitVec 12)
  status  : Reg32
  result  : Reg32
  cmdLo   : Reg32
  cmdHi   : Reg32
  strmem  : Memory
  host    : List HostAccess
  answers : List BusAnswer
  trace   : List BusRecord
  reads   : List Reg32
  draws   : Nat
deriving DecidableEq, Repr

/-- Why the machine stops with a fault. -/
inductive Fault where
  /-- UNINIT_STRMEM: a string command reads a STRMEM byte the host has not written since reset (spec/60_exceptions.md
  R249, spec/70_reset_and_hazards.md R265). Raised by DRAW_STRING_COLOR, DRAW_STRING, MEASURE_STRING. Safe: the spec
  itself asks for this fault. -/
  | uninitStrmem (address : Nat)
  /-- Stuck: a bus transaction is never answered (spec/70_reset_and_hazards.md R266). Raised by REFRESH, SEND_CMD1,
  SEND_CMD2. Safe: the engine has no next step. -/
  | transportStuck
  /-- REFRESH would read FB bytes that do not exist, in a state whose DIRTY lies outside the panel. Raised by REFRESH
  on its partial path. Safe: no run reaches such a state (spec/10_state.md R25, spec/43_refresh.md R210; log 11). -/
  | fbOutOfRange
deriving DecidableEq, Repr

/-- Why the model gives no meaning. -/
inductive Refusal where
  /-- The instruction has no meaning yet. Raised by the arms of exec that say so (none does). Safe. -/
  | notModelled (mnemonic : String)
  /-- The configuration breaks spec/00_scope.md R8 or spec/42_text.md R172. Raised by step, before anything else.
  Safe: "A model refuses a configuration that breaks" them (spec/60_exceptions.md R248). -/
  | illegalConfiguration
deriving DecidableEq, Repr

/-- The outcome of one step of this machine. -/
abbrev Result := Host.Outcome State Fault Refusal

/-- The state right after reset of an instance with configuration `c` (spec/10_state.md R33), with no input given and
nothing observed. -/
def State.resetOf (c : Config) : State where
  cfg := c
  fb := []
  dirty := Dirty.sentinel
  fontSel := none
  status := 0
  result := 0
  cmdLo := 0
  cmdHi := 0
  strmem := []
  host := []
  answers := []
  trace := []
  reads := []
  draws := 0

/-- The machine right after reset. The configuration is a DESIGN CHOICE (log 2). -/
def State.reset : State := State.resetOf Config.exampleA

end Sys2Proof.Machine
end

