-- ==== Sys2Proof/Machine/Flags.lean ====
section
/-! DEFINITION. The bits of STATUS (spec/10_state.md R27) and how errors set them (spec/60_exceptions.md R230, R232,
R235). No command reads a condition bit (spec/10_state.md R22). -/

namespace Sys2Proof.Machine

/-- The sticky bit ERR_ILLEGAL, bit 0. -/
def errIllegal (status : Reg32) : Bool := status.getLsbD 0

/-- The sticky bit ERR_STRING, bit 1. -/
def errString (status : Reg32) : Bool := status.getLsbD 1

/-- The sticky bit ERR_BUS, bit 2. -/
def errBus (status : Reg32) : Bool := status.getLsbD 2

/-- LAST_ERR, bits 11:8. -/
def lastErr (status : Reg32) : BitVec 4 := status.extractLsb' 8 4

/-- The code an error records in LAST_ERR (spec/60_exceptions.md R230). -/
def ErrCode.code : ErrCode → BitVec 4
  | .illegalOpcode => 1
  | .reservedField => 2
  | .unterminatedString => 3
  | .busWriteFail => 4

/-- The bit number of the sticky bit an error sets (spec/60_exceptions.md R230). -/
def ErrCode.stickyBit : ErrCode → Nat
  | .illegalOpcode => 0
  | .reservedField => 0
  | .unterminatedString => 1
  | .busWriteFail => 2

/-- The error code of a rejection at decode (spec/30_encoding.md R87). -/
def errOfDecode : DecodeError → ErrCode
  | .illegalOpcode => .illegalOpcode
  | .reservedField => .reservedField

/-- STATUS after an error: its sticky bit set, LAST_ERR replaced by its code, every other bit as it was
(spec/60_exceptions.md R232, R235). -/
def statusAfter (e : ErrCode) (status : Reg32) : Reg32 :=
  ((status ||| (1#32 <<< e.stickyBit)) &&& ~~~0xF00#32) ||| (e.code.zeroExtend 32 <<< 8)

/-- The bits of STATUS that read 0: [7:3] and [31:12] (spec/10_state.md R27). -/
def statusReserved : Reg32 := 0xFFFFF0F8

end Sys2Proof.Machine
end

