-- ==== Sys2Proof/Machine/Parameters.lean ====
section
/-! DEFINITION. Which configurations an instance may have (spec/00_scope.md R8, spec/42_text.md R170, R172), and the
derived sizes (spec/00_scope.md R9). A model refuses the others (spec/60_exceptions.md R248, R249). -/

namespace Sys2Proof.Machine

/-- `FB_BYTES = W*H/8` (spec/00_scope.md R9). -/
def fbBytes (c : Config) : Nat := c.W * c.H / 8

/-- `PAGES = H/8` (spec/00_scope.md R9). -/
def pages (c : Config) : Nat := c.H / 8

/-- `NUM_FONTS` (spec/00_scope.md R8). -/
def numFonts (c : Config) : Nat := c.fonts.length

/-- `ceil(width/8)`: bytes of one glyph row (spec/42_text.md R174). -/
def bytesPerRow (d : Glyph) : Nat := (d.width + 7) / 8

/-- A descriptor's fields fit their widths and every byte of its glyph lies inside the bitmap
(spec/42_text.md R170, R172 (c)). -/
def glyphOk (f : Font) (d : Glyph) : Bool :=
  decide (d.width ≤ 255) && decide (d.offset < 65536)
    && decide (d.offset + bytesPerRow d * f.height ≤ f.bitmap.length)

/-- A well-formed font (spec/42_text.md R170, R172): field widths, (a) the range is not empty, (b) it holds the space
character, (c) every glyph lies inside the bitmap; one descriptor for each code of the range. -/
def fontOk (f : Font) : Bool :=
  decide (f.height ≤ 255) && decide (f.spacing ≤ 255) && decide (f.charEnd ≤ 255)
    && decide (f.charStart ≤ f.charEnd)
    && decide (f.charStart ≤ 0x20) && decide (0x20 ≤ f.charEnd)
    && decide (f.desc.length = f.charEnd - f.charStart + 1)
    && f.desc.all (glyphOk f)
    && decide (f.bitmap.length ≤ 65536 + 32 * 255)

/-- A legal configuration (spec/00_scope.md R8). The widths of the bytes and of BUS_ADDR are in their types. -/
def legal (c : Config) : Bool :=
  decide (1 ≤ c.W) && decide (c.W ≤ 256) && decide (c.colOffset + c.W ≤ 256)
    && decide (8 ≤ c.H) && decide (c.H ≤ 256) && decide (c.H % 8 = 0)
    && decide (numFonts c ≤ 4095)
    && c.fonts.all fontOk

end Sys2Proof.Machine
end

