-- ==== Sys2Proof/Machine/Ops.lean ====
section
/-! DEFINITION. The named operations every meaning is built from: memory, the pixel and dirty steps, the string
scan, the error report, the bus transactions, reset. -/

namespace Sys2Proof.Machine

/-! ## Memory -/

/-- What an unlisted byte of FB reads as: the reset contents 0x00 (spec/10_state.md R23). -/
def fbUnlisted : Option Byte := some 0x00

/-- What an unlisted byte of STRMEM reads as: nothing, it is unwritten (spec/93_implementation_defined.md I1). -/
def strUnlisted : Option Byte := none

/-- The canonical form of a memory of `n` bytes whose unlisted bytes read as `u`. -/
abbrev Memory.wf (u : Option Byte) (n : Nat) (m : Memory) : Prop :=
  m.Pairwise (fun p q => p.1 < q.1) ∧ ∀ c ∈ m, c.1 < n ∧ some c.2 ≠ u

/-- The byte listed at an address, if there is one. -/
def Memory.find : Memory → Nat → Option Byte
  | [], _ => none
  | (k, v) :: m, a => if k = a then some v else Memory.find m a

/-- List a byte at its place. -/
def Memory.put : Memory → Nat → Byte → Memory
  | [], a, b => [(a, b)]
  | (k, v) :: m, a, b =>
    if a < k then (a, b) :: (k, v) :: m
    else if a = k then (a, b) :: m
    else (k, v) :: Memory.put m a b

/-- Unlist an address. -/
def Memory.drop (m : Memory) (a : Nat) : Memory := m.filter (fun c => c.1 != a)

/-- What an address reads as. -/
def Memory.get (u : Option Byte) (m : Memory) (a : Nat) : Option Byte :=
  match m.find a with
  | some b => some b
  | none => u

/-- Write a byte; the value an unlisted address reads as is not listed. -/
def Memory.set (u : Option Byte) (m : Memory) (a : Nat) (b : Byte) : Memory :=
  if some b = u then m.drop a else m.put a b

/-- `FB[i]` (spec/00_scope.md R12). -/
def fbRead (fb : Memory) (i : Nat) : Byte := (fb.get fbUnlisted i).getD 0

/-- `FB[i] <- v` (spec/00_scope.md R12). -/
def fbWrite (fb : Memory) (i : Nat) (v : Byte) : Memory := fb.set fbUnlisted i v

/-- `STR[a]`, or nothing where the byte was never written since reset (spec/00_scope.md R12,
spec/93_implementation_defined.md I1). -/
def strRead (m : Memory) (a : Nat) : Option Byte := m.get strUnlisted a

/-- The host writes STRMEM byte `a` (spec/10_state.md R30). -/
def strWrite (m : Memory) (a : Nat) (v : Byte) : Memory := m.set strUnlisted a v

/-- STRMEM holds 4096 bytes (spec/10_state.md R30). -/
def strBytes : Nat := 4096

/-! ## Pixels and the dirty rectangle -/

/-- `InPanel(x, y)` (spec/40_framebuffer.md R111). -/
def inPanel (c : Config) (x y : Int) : Bool :=
  decide (0 ≤ x) && decide (x < (c.W : Int)) && decide (0 ≤ y) && decide (y < (c.H : Int))

/-- `Idx(x, y)`, for a point of the panel (spec/40_framebuffer.md R112). -/
def idx (c : Config) (x y : Int) : Nat := x.toNat + (y.toNat / 8) * c.W

/-- `BitMask(y)`, for a point of the panel (spec/40_framebuffer.md R112). -/
def bitMask (y : Int) : Byte := 1#8 <<< (y.toNat % 8)

/-- `ApplyColour(b, m, colour)` (spec/40_framebuffer.md R110, R114). -/
def applyColour (b m : Byte) : Colour → Byte
  | .black => b &&& ~~~m
  | .white => b ||| m
  | .invert => b ^^^ m
  | .transparent => b

/-- What a colour does to one pixel bit (spec/40_framebuffer.md R110). -/
def colourBit : Colour → Bool → Bool
  | .black, _ => false
  | .white, _ => true
  | .invert, b => !b
  | .transparent, b => b

/-- The bounds of `Mark` for a point of the panel: minimum and maximum with the point (spec/40_framebuffer.md R115).
Every value fits its eight bits (spec/10_state.md R25; log 12). -/
def Dirty.grow (d : Dirty) (x y : Nat) : Dirty where
  top := BitVec.ofNat 8 (min d.top.toNat y)
  left := BitVec.ofNat 8 (min d.left.toNat x)
  right := BitVec.ofNat 8 (max d.right.toNat x)
  bottom := BitVec.ofNat 8 (max d.bottom.toNat y)

/-- `Mark(x, y)` (spec/40_framebuffer.md R115). -/
def mark (c : Config) (x y : Int) (d : Dirty) : Dirty :=
  if inPanel c x y then d.grow x.toNat y.toNat else d

/-- One call of `Plot`: a position and a colour. -/
structure PlotCall where
  x : Int
  y : Int
  colour : Colour
deriving DecidableEq, Repr

/-- `Plot(x, y, colour)` (spec/40_framebuffer.md R116). -/
def plot (c : Config) (p : PlotCall) (v : Canvas) : Canvas :=
  if inPanel c p.x p.y then
    { fb := fbWrite v.fb (idx c p.x p.y)
        (applyColour (fbRead v.fb (idx c p.x p.y)) (bitMask p.y) p.colour),
      dirty := mark c p.x p.y v.dirty }
  else v

/-- A finite sequence of `Plot` calls, the first one first (spec/40_framebuffer.md R117). -/
def plotAll (c : Config) : List PlotCall → Canvas → Canvas
  | [], v => v
  | p :: ps, v => plotAll c ps (plot c p v)

/-- The calls of one colour at a list of positions. -/
def inColour (colour : Colour) (points : List (Int × Int)) : List PlotCall :=
  points.map fun p => ⟨p.1, p.2, colour⟩

/-- The framebuffer and dirty rectangle of a state. -/
def State.canvas (s : State) : Canvas := ⟨s.fb, s.dirty⟩

/-- The state with another framebuffer and dirty rectangle. -/
def State.withCanvas (s : State) (v : Canvas) : State := { s with fb := v.fb, dirty := v.dirty }

/-- Run a sequence of `Plot` calls on the state: FB and DIRTY change, nothing else. -/
def draw (ps : List PlotCall) (s : State) : State := s.withCanvas (plotAll s.cfg ps s.canvas)

/-- The pixel `(x, y)` of the framebuffer (spec/10_state.md R23): bit `y mod 8` of its byte. -/
def pixel (c : Config) (fb : Memory) (x y : Int) : Bool :=
  (fbRead fb (idx c x y)).getLsbD (y.toNat % 8)

/-- The dirty rectangle of the full panel (spec/40_framebuffer.md R121). -/
def Dirty.full (c : Config) : Dirty where
  top := 0
  left := 0
  right := BitVec.ofNat 8 (c.W - 1)
  bottom := BitVec.ofNat 8 (c.H - 1)

/-- Empty: `top > bottom` or `left > right` (spec/10_state.md R24). -/
def Dirty.isEmpty (d : Dirty) : Bool :=
  decide (d.bottom.toNat < d.top.toNat) || decide (d.right.toNat < d.left.toNat)

/-! ## RESULT and STATUS -/

/-- `RESULT <- v` (spec/00_scope.md R12, spec/10_state.md R28). -/
def setResult (v : Nat) (s : State) : State := { s with result := BitVec.ofNat 32 v }

/-- `raise Err(code)` (spec/60_exceptions.md R232): the block's only error entry. STATUS changes, nothing else, and
the command ends. -/
def raiseErr (e : ErrCode) (s : State) : State := { s with status := statusAfter e s.status }

/-- `STATUS <- 0` (spec/43_refresh.md R214): the only way back from a recorded error. -/
def clearErrors (s : State) : State := { s with status := 0 }

/-! ## Strings -/

/-- What `ReadString` finds (spec/42_text.md R180; spec/93_implementation_defined.md I1). -/
inductive StringScan where
  | found (bytes : List Byte)
  | unterminated
  | unwritten (address : Nat)
deriving DecidableEq, Repr

/-- Put a byte before a string that was found. -/
def StringScan.cons (b : Byte) : StringScan → StringScan
  | .found bytes => .found (b :: bytes)
  | .unterminated => .unterminated
  | .unwritten a => .unwritten a

/-- The scan from address `a` over `n` bytes: up to the first 0x00, or to a byte never written. -/
def scanString (m : Memory) : Nat → Nat → StringScan
  | 0, _ => .unterminated
  | n + 1, a =>
    match strRead m a with
    | none => .unwritten a
    | some b => if b = 0x00#8 then .found [] else (scanString m n (a + 1)).cons b

/-- `ReadString(a)`: the scan over `a .. 4095` (spec/42_text.md R180). -/
def readString (m : Memory) (a : Nat) : StringScan := scanString m (strBytes - a) a

/-! ## Bus transactions -/

/-- The record of `BusCmd(b)` (spec/43_refresh.md R200, R201). -/
def busCmd (c : Config) (b : Byte) : BusRecord := .command c.busAddr c.regCmd b

/-- The record of `BusData(bytes)` (spec/43_refresh.md R200, R201). -/
def busData (c : Config) (bytes : List Byte) : BusRecord := .data c.busAddr c.regData bytes

/-- STATUS after an answer (spec/43_refresh.md R202, spec/60_exceptions.md R235). -/
def statusAfterAnswer (ok : Bool) (status : Reg32) : Reg32 :=
  if ok then status else statusAfter .busWriteFail status

/-- Issue one transaction and wait for its answer (spec/43_refresh.md R202): the next one of `answers`, or a free
value where that list is at its end (log 5). A transaction that is never answered leaves the engine stuck
(spec/70_reset_and_hazards.md R266). -/
def issue (r : BusRecord) (s : State) : Result :=
  match s.answers with
  | [] => .next { s with
      trace := s.trace ++ [r],
      draws := s.draws + 1,
      status := statusAfterAnswer (Config.freeAnswer s.draws) s.status }
  | .ok :: rest => .next { s with trace := s.trace ++ [r], answers := rest }
  | .fail :: rest => .next { s with
      trace := s.trace ++ [r],
      answers := rest,
      status := statusAfterAnswer false s.status }
  | .never :: _ => .fault .transportStuck

/-- Issue transactions one at a time, in order, each answered before the next (spec/20_memory.md R60). An answer
never changes what follows (spec/43_refresh.md R202). -/
def issueAll : List BusRecord → State → Result
  | [], s => .next s
  | r :: rs, s =>
    match issue r s with
    | .next t => issueAll rs t
    | .fault f => .fault f
    | .refused x => .refused x

/-! ## Reset -/

/-- The reset event (spec/70_reset_and_hazards.md R260): the state of spec/10_state.md R33; the configuration stays,
no transaction is issued. The inputs still to come and the observation so far are not the block's and stay (log 7). -/
def resetBlock (s : State) : State :=
  { State.resetOf s.cfg with
    host := s.host, answers := s.answers, trace := s.trace, reads := s.reads, draws := s.draws }

end Sys2Proof.Machine
end

