-- ==== Sys2Proof/Machine/Framebuffer.lean ====
section
/-! DEFINITION. NOP, CLEAR, MARK_DIRTY, SET_PIXEL (spec/40_framebuffer.md R120 to R123). -/

namespace Sys2Proof.Machine

/-- NOP (spec/40_framebuffer.md R120). -/
def execNop (s : State) : Result := .next s

/-- CLEAR (spec/40_framebuffer.md R121): every byte 0x00, which is what an unlisted byte reads as, and the full
panel. -/
def execClear (s : State) : Result := .next { s with fb := [], dirty := Dirty.full s.cfg }

/-- MARK_DIRTY (spec/40_framebuffer.md R122). -/
def execMarkDirty (x y : BitVec 12) (s : State) : Result :=
  .next { s with dirty := mark s.cfg (coord x) (coord y) s.dirty }

/-- SET_PIXEL (spec/40_framebuffer.md R123). -/
def execSetPixel (colour : Colour) (x y : BitVec 12) (s : State) : Result :=
  .next (draw [⟨coord x, coord y, colour⟩] s)

end Sys2Proof.Machine
end

