-- ==== Sys2Proof/Machine/Primitives.lean ====
section
/-! DEFINITION. Lines, rectangles and circles (spec/41_primitives.md): each command's sequence of plotted positions,
in the rule's order, and the byte-level forms of the lines that the spec requires to be equal (R141, R143). -/

namespace Sys2Proof.Machine

/-! ## Lines -/

/-- The positions of `DRAW_HLINE(x, y, w)` (spec/41_primitives.md R140); a width ≤ 0 has none (R153). -/
def hlinePoints (x y w : Int) : List (Int × Int) :=
  (List.range w.toNat).map fun (i : Nat) => (x + (i : Int), y)

/-- The positions of `DRAW_VLINE(x, y, h)` (spec/41_primitives.md R142). -/
def vlinePoints (x y h : Int) : List (Int × Int) :=
  (List.range h.toNat).map fun (i : Nat) => (x, y + (i : Int))

/-- DRAW_HLINE (spec/41_primitives.md R140). -/
def execDrawHline (colour : Colour) (x y w : BitVec 12) (s : State) : Result :=
  .next (draw (inColour colour (hlinePoints (coord x) (coord y) (size w))) s)

/-- DRAW_VLINE (spec/41_primitives.md R142). -/
def execDrawVline (colour : Colour) (x y h : BitVec 12) (s : State) : Result :=
  .next (draw (inColour colour (vlinePoints (coord x) (coord y) (size h))) s)

/-! ### The byte-level forms -/

/-- `FB[j] <- ApplyColour(FB[j], m, colour)`. -/
def fbApply (colour : Colour) (m : Byte) (j : Nat) (fb : Memory) : Memory :=
  fbWrite fb j (applyColour (fbRead fb j) m colour)

/-- The byte-level form of DRAW_HLINE (spec/41_primitives.md R141): one bit of consecutive bytes. -/
def hlineBytes (c : Config) (colour : Colour) (x y w : Int) (v : Canvas) : Canvas :=
  if 0 ≤ y ∧ y < (c.H : Int) then
    let xa := max x 0
    let xb := min (x + w - 1) ((c.W : Int) - 1)
    if xa ≤ xb then
      { fb := (List.range' (idx c xa y) (idx c xb y + 1 - idx c xa y)).foldl
          (fun fb j => fbApply colour (bitMask y) j fb) v.fb,
        dirty := mark c xb y (mark c xa y v.dirty) }
    else v
  else v

/-- The mask table `PRE`: bits k..7 (spec/41_primitives.md R143). -/
def preMask : List Byte := [0xFF, 0xFE, 0xFC, 0xF8, 0xF0, 0xE0, 0xC0, 0x80]

/-- The mask table `POST_INCL`: bits 0..k (spec/41_primitives.md R143). -/
def postMask : List Byte := [0x01, 0x03, 0x07, 0x0F, 0x1F, 0x3F, 0x7F, 0xFF]

/-- The mask of the bits lo..hi of a page: `PRE[lo] & POST_INCL[hi]` (spec/41_primitives.md R143). -/
def spanMask (lo hi : Nat) : Byte := preMask.getD lo 0 &&& postMask.getD hi 0

/-- The byte-batched form of DRAW_VLINE (spec/41_primitives.md R143): one byte per page. -/
def vlineBatched (c : Config) (colour : Colour) (x y h : Int) (v : Canvas) : Canvas :=
  if 0 ≤ x ∧ x < (c.W : Int) ∧ 0 < h then
    let ya := max y 0
    let yb := min (y + h - 1) ((c.H : Int) - 1)
    if ya ≤ yb then
      { fb := (List.range' (ya.toNat / 8) (yb.toNat / 8 + 1 - ya.toNat / 8)).foldl
          (fun fb p =>
            fbApply colour
              (spanMask (max ya.toNat (8 * p) - 8 * p) (min yb.toNat (8 * p + 7) - 8 * p))
              (x.toNat + p * c.W) fb) v.fb,
        dirty := mark c x yb (mark c x ya v.dirty) }
    else v
  else v

/-! ## Rectangles -/

/-- The positions of DRAW_RECT (spec/41_primitives.md R146): top, bottom, left and right edge. -/
def rectPoints (x y w h : Int) : List (Int × Int) :=
  hlinePoints x y w ++ hlinePoints x (y + h - 1) w ++ vlinePoints x y h ++ vlinePoints (x + w - 1) y h

/-- The positions of FILL_RECT (spec/41_primitives.md R148): one vertical line per column. -/
def fillRectPoints (x y w h : Int) : List (Int × Int) :=
  (List.range w.toNat).flatMap fun (i : Nat) => vlinePoints (x + (i : Int)) y h

/-- DRAW_RECT (spec/41_primitives.md R146). -/
def execDrawRect (colour : Colour) (x y w h : BitVec 12) (s : State) : Result :=
  .next (draw (inColour colour (rectPoints (coord x) (coord y) (size w) (size h))) s)

/-- FILL_RECT (spec/41_primitives.md R148). -/
def execFillRect (colour : Colour) (x y w h : BitVec 12) (s : State) : Result :=
  .next (draw (inColour colour (fillRectPoints (coord x) (coord y) (size w) (size h))) s)

/-! ## Circles -/

/-- `Step(a, b, e)` of the circle recurrence (spec/41_primitives.md R149; log 14). -/
def circleStep (a b e : Int) : Int × Int × Int :=
  if e < 0 then (a + 1, b, e + 2 * (a + 1) + 1)
  else (a + 1, b - 1, e + 2 * ((a + 1) - (b - 1) + 1))

/-- The states `(a, b, e)` in which the body of a circle loop runs, from a start state while `b ≥ a`. `a` grows by one
each time and `b` never grows, so as many steps as the radius always suffice (`circleWalk_fuel` in Laws; log 15). -/
def circleWalk : Nat → Int → Int → Int → List (Int × Int)
  | 0, _, _, _ => []
  | n + 1, a, b, e =>
    if a ≤ b then
      (a, b) :: circleWalk n (circleStep a b e).1 (circleStep a b e).2.1 (circleStep a b e).2.2
    else []

/-- The loop states of a circle of radius `r`: from `(1, r, 1 − r)` (spec/41_primitives.md R150, R153). -/
def circleStates (r : Nat) : List (Int × Int) := circleWalk r 1 r (1 - r)

/-- The four cardinal points (spec/41_primitives.md R150). -/
def cardinalPoints (x0 y0 r : Int) : List (Int × Int) :=
  [(x0 - r, y0), (x0 + r, y0), (x0, y0 - r), (x0, y0 + r)]

/-- The plots of one pass of the outline loop in the state `(y, x)`: four direct points, and four mirrored ones
unless `x = y` (spec/41_primitives.md R150). -/
def octantPoints (x0 y0 y x : Int) : List (Int × Int) :=
  [(x0 + x, y0 + y), (x0 - x, y0 + y), (x0 + x, y0 - y), (x0 - x, y0 - y)]
    ++ (if x ≠ y then [(x0 + y, y0 + x), (x0 - y, y0 + x), (x0 + y, y0 - x), (x0 - y, y0 - x)] else [])

/-- The positions of DRAW_CIRCLE (spec/41_primitives.md R150); `r = 0` draws nothing. -/
def circlePoints (x0 y0 : Int) (r : Nat) : List (Int × Int) :=
  if r = 0 then []
  else cardinalPoints x0 y0 r ++ (circleStates r).flatMap fun s => octantPoints x0 y0 s.1 s.2

/-- DRAW_CIRCLE (spec/41_primitives.md R150). -/
def execDrawCircle (colour : Colour) (x0 y0 r : BitVec 12) (s : State) : Result :=
  .next (draw (inColour colour (circlePoints (coord x0) (coord y0) (size r))) s)

/-- The vertical spans of one step of pass 1 in the state `(x, y)` (spec/41_primitives.md R153): the transposed pair
only for colours other than Invert. -/
def fillSpans (x0 y0 : Int) (colour : Colour) (x y : Int) : List (Int × Int) :=
  vlinePoints (x0 - x) (y0 - y) (2 * y + 1) ++ vlinePoints (x0 + x) (y0 - y) (2 * y + 1)
    ++ (if colour ≠ .invert then
          vlinePoints (x0 - y) (y0 - x) (2 * x + 1) ++ vlinePoints (x0 + y) (y0 - x) (2 * x + 1)
        else [])

/-- Pass 1 of FILL_CIRCLE: the centre column, then the spans of every step (spec/41_primitives.md R153). -/
def fillPass1 (x0 y0 : Int) (r : Nat) (colour : Colour) : List (Int × Int) :=
  vlinePoints x0 (y0 - r) (2 * r + 1)
    ++ (circleStates r).flatMap fun s => fillSpans x0 y0 colour s.1 s.2

/-- The checkpoint `x1`: the value of `x` when pass 1 ends (spec/41_primitives.md R153). `x` starts at 1 and grows by
one each step. -/
def fillCheckpoint (r : Nat) : Int := 1 + ((circleStates r).length : Int)

/-- The horizontal spans of one step of pass 2 in the state `(y, x)` (spec/41_primitives.md R153). -/
def seamSpans (x0 y0 x1 y x : Int) : List (Int × Int) :=
  hlinePoints (x0 + x1) (y0 - y) (x - x1 + 1) ++ hlinePoints (x0 + x1) (y0 + y) (x - x1 + 1)
    ++ hlinePoints (x0 - x) (y0 - y) (x - x1 + 1) ++ hlinePoints (x0 - x) (y0 + y) (x - x1 + 1)

/-- Pass 2 of FILL_CIRCLE, only for Invert (spec/41_primitives.md R153). -/
def fillPass2 (x0 y0 : Int) (r : Nat) : List (Int × Int) :=
  hlinePoints (x0 + fillCheckpoint r) y0 (r - fillCheckpoint r + 1)
    ++ hlinePoints (x0 - r) y0 (r - fillCheckpoint r + 1)
    ++ (circleStates r).flatMap fun s => seamSpans x0 y0 (fillCheckpoint r) s.1 s.2

/-- The positions of FILL_CIRCLE (spec/41_primitives.md R153); `r = 0` draws nothing. -/
def fillCirclePoints (x0 y0 : Int) (r : Nat) (colour : Colour) : List (Int × Int) :=
  if r = 0 then []
  else fillPass1 x0 y0 r colour ++ (if colour = .invert then fillPass2 x0 y0 r else [])

/-- FILL_CIRCLE (spec/41_primitives.md R153). -/
def execFillCircle (colour : Colour) (x0 y0 r : BitVec 12) (s : State) : Result :=
  .next (draw (inColour colour (fillCirclePoints (coord x0) (coord y0) (size r) colour)) s)

end Sys2Proof.Machine
end

