-- ==== Sys2Proof/Machine/Refresh.lean ====
section
/-! DEFINITION. REFRESH, SEND_CMD1, SEND_CMD2, CLEAR_STATUS (spec/43_refresh.md R204 to R214). -/

namespace Sys2Proof.Machine

/-- `SetWindows(c0, c1, p0, p1)`: six command transactions, the column window first (spec/43_refresh.md R204). The
bounds are bytes (R210). -/
def setWindows (c : Config) (c0 c1 p0 p1 : Nat) : List BusRecord :=
  [busCmd c c.opcColwin, busCmd c (BitVec.ofNat 8 c0), busCmd c (BitVec.ofNat 8 c1),
   busCmd c c.opcPagewin, busCmd c (BitVec.ofNat 8 p0), busCmd c (BitVec.ofNat 8 p1)]

/-- The `n` bytes of FB from index `lo`, in index order (spec/43_refresh.md R206, R207). -/
def fbRun (fb : Memory) (lo n : Nat) : List Byte :=
  (List.range n).map fun k => fbRead fb (lo + k)

/-- The transactions of the full-frame path (spec/43_refresh.md R206). -/
def fullTraffic (c : Config) (fb : Memory) : List BusRecord :=
  setWindows c c.colOffset (c.colOffset + c.W - 1) 0 (c.H / 8 - 1)
    ++ [busData c (fbRun fb 0 (fbBytes c))]

/-- The first page of a dirty rectangle (spec/43_refresh.md R207). -/
def pageStart (d : Dirty) : Nat := d.top.toNat / 8

/-- The last page of a dirty rectangle (spec/43_refresh.md R207). -/
def pageEnd (d : Dirty) : Nat := d.bottom.toNat / 8

/-- The transactions of the partial path: the windows, then one burst per page (spec/43_refresh.md R207). -/
def partialTraffic (c : Config) (fb : Memory) (d : Dirty) : List BusRecord :=
  setWindows c (c.colOffset + d.left.toNat) (c.colOffset + d.right.toNat) (pageStart d) (pageEnd d)
    ++ (List.range' (pageStart d) (pageEnd d + 1 - pageStart d)).map fun p =>
        busData c (fbRun fb (d.left.toNat + p * c.W) (d.right.toNat + 1 - d.left.toNat))

/-- The last act of REFRESH: DIRTY is the sentinel (spec/43_refresh.md R209). -/
def emptyDirty (s : State) : State := { s with dirty := Dirty.sentinel }

/-- Issue the transactions of a refresh, then empty DIRTY, whatever the answers (spec/43_refresh.md R209). -/
def sendAndEmpty (traffic : List BusRecord) (s : State) : Result :=
  match issueAll traffic s with
  | .next t => .next (emptyDirty t)
  | .fault f => .fault f
  | .refused x => .refused x

/-- The dirty rectangle lies in the panel's columns and rows (spec/10_state.md R25). -/
def dirtyInPanel (c : Config) (d : Dirty) : Bool :=
  decide (d.right.toNat < c.W) && decide (d.bottom.toNat < c.H)

/-- REFRESH (spec/43_refresh.md R205 to R209): the full path, the partial path, or nothing to send. The partial path
in a state whose DIRTY leaves the panel would read bytes FB does not have (log 11). -/
def execRefresh (force : Bool) (s : State) : Result :=
  if force = true ∨ s.dirty = Dirty.full s.cfg then sendAndEmpty (fullTraffic s.cfg s.fb) s
  else if s.dirty.isEmpty then sendAndEmpty [] s
  else if dirtyInPanel s.cfg s.dirty then sendAndEmpty (partialTraffic s.cfg s.fb s.dirty) s
  else .fault .fbOutOfRange

/-- SEND_CMD1 (spec/43_refresh.md R212). -/
def execSendCmd1 (b : Byte) (s : State) : Result := issueAll [busCmd s.cfg b] s

/-- SEND_CMD2 (spec/43_refresh.md R213): the second byte is sent whatever the first answer. -/
def execSendCmd2 (b v : Byte) (s : State) : Result := issueAll [busCmd s.cfg b, busCmd s.cfg v] s

/-- CLEAR_STATUS (spec/43_refresh.md R214). -/
def execClearStatus (s : State) : Result := .next (clearErrors s)

end Sys2Proof.Machine
end

