-- ==== Sys2Proof/Machine/Text.lean ====
section
/-! DEFINITION. Glyph geometry and the five text commands (spec/42_text.md R173 to R186). -/

namespace Sys2Proof.Machine

/-! ## Glyphs -/

/-- `Index(f, code)`: a code outside the font's range is the space character 0x20 (spec/42_text.md R173). -/
def charIndex (f : Font) (code : Nat) : Nat :=
  (if f.charStart ≤ code ∧ code ≤ f.charEnd then code else 0x20) - f.charStart

/-- The descriptor of a code (spec/42_text.md R174). It exists in a well-formed font. -/
def glyphOf (f : Font) (code : Nat) : Glyph := f.desc.getD (charIndex f code) ⟨0, 0⟩

/-- `GlyphWidth(f, code)` (spec/42_text.md R174). -/
def glyphWidth (f : Font) (code : Nat) : Nat := (glyphOf f code).width

/-- `GlyphBit(f, code, i, j)`: column `i`, row `j`, most significant bit first (spec/42_text.md R174). -/
def glyphBit (f : Font) (code i j : Nat) : Bool :=
  (f.bitmap.getD ((glyphOf f code).offset + bytesPerRow (glyphOf f code) * j + i / 8) 0).getLsbD (7 - i % 8)

/-- One cell of `CharProc`: a set bit plots `fg`, a clear bit plots a Black or White `bg` and nothing else
(spec/42_text.md R176, R179). -/
def cellPlot (f : Font) (x y : Int) (code : Nat) (fg bg : Colour) (j i : Nat) : Option PlotCall :=
  if glyphBit f code i j then some ⟨x + i, y + j, fg⟩
  else if bg = .black ∨ bg = .white then some ⟨x + i, y + j, bg⟩
  else none

/-- The `Plot` calls of `CharProc(x, y, code, fg, bg)`, row by row (spec/42_text.md R176). -/
def charPlots (f : Font) (x y : Int) (code : Nat) (fg bg : Colour) : List PlotCall :=
  (List.range f.height).flatMap fun j =>
    (List.range (glyphWidth f code)).filterMap fun i => cellPlot f x y code fg bg j i

/-! ## Strings -/

/-- `Advance(f, s)` (spec/42_text.md R181). -/
def advance (f : Font) (bytes : List Byte) : Nat :=
  match bytes with
  | [] => 0
  | _ :: _ => (bytes.map fun b => glyphWidth f (charCode b)).sum + f.spacing * (bytes.length - 1)

/-- `Cursor(k)`: the offset of character `k` (spec/42_text.md R181). -/
def cursor (f : Font) (bytes : List Byte) (k : Nat) : Nat :=
  ((bytes.take k).map fun b => glyphWidth f (charCode b) + f.spacing).sum

/-- The `Plot` calls of a string: character `k` at `x + Cursor(k)` (spec/42_text.md R182, R183). -/
def stringPlots (f : Font) (x y : Int) (bytes : List Byte) (fg bg : Colour) : List PlotCall :=
  bytes.zipIdx.flatMap fun c => charPlots f (x + cursor f bytes c.2) y (charCode c.1) fg bg

/-- The active font (spec/10_state.md R26). FONT_SEL never holds an id outside the table; such an id, which no run
reaches, is read as none (log 13). -/
def activeFont (s : State) : Option Font :=
  match s.fontSel with
  | none => none
  | some n => s.cfg.fonts[n.toNat]?

/-- The common course of the string commands, in the order of spec/60_exceptions.md R233: no font or the null string
gives width 0; then the string is read in full, and an unterminated one rejects the command; then `run` has its
effect and RESULT its advance (spec/42_text.md R182, R185). -/
def withString (null : Bool) (address : BitVec 12) (run : Font → List Byte → State → State) (s : State) : Result :=
  match activeFont s with
  | none => .next (setResult 0 s)
  | some f =>
    if null then .next (setResult 0 s)
    else
      match readString s.strmem (size address) with
      | .unwritten a => .fault (.uninitStrmem a)
      | .unterminated => .next (raiseErr .unterminatedString s)
      | .found bytes => .next (setResult (advance f bytes) (run f bytes s))

/-! ## Commands -/

/-- SELECT_FONT (spec/42_text.md R175). -/
def execSelectFont (id : BitVec 12) (s : State) : Result :=
  .next (if size id < numFonts s.cfg then { s with fontSel := some id } else s)

/-- DRAW_CHAR (spec/42_text.md R177). -/
def execDrawChar (fg bg : Colour) (x y : BitVec 12) (code : Byte) (s : State) : Result :=
  match activeFont s with
  | none => .next (setResult 0 s)
  | some f =>
    .next (setResult (glyphWidth f (charCode code))
      (draw (charPlots f (coord x) (coord y) (charCode code) fg bg) s))

/-- DRAW_STRING_COLOR (spec/42_text.md R182). -/
def execDrawStringColor (fg bg : Colour) (null : Bool) (x y address : BitVec 12) (s : State) : Result :=
  withString null address (fun f bytes t => draw (stringPlots f (coord x) (coord y) bytes fg bg) t) s

/-- DRAW_STRING: White on Transparent (spec/42_text.md R184). -/
def execDrawString (null : Bool) (x y address : BitVec 12) (s : State) : Result :=
  withString null address
    (fun f bytes t => draw (stringPlots f (coord x) (coord y) bytes .white .transparent) t) s

/-- MEASURE_STRING: the same advance, nothing drawn (spec/42_text.md R185). -/
def execMeasureString (null : Bool) (address : BitVec 12) (s : State) : Result :=
  withString null address (fun _ _ t => t) s

end Sys2Proof.Machine
end

