-- ==== Sys2Proof/Machine/Dispatch.lean ====
section
/-! DEFINITION. One arm per command: what executing it does (spec/30_encoding.md R86). -/

namespace Sys2Proof.Machine

def exec (i : Instr) (s : State) : Host.Outcome State Fault Refusal :=
  match i with
  | .nop => Sys2Proof.Machine.execNop s
  | .clear => Sys2Proof.Machine.execClear s
  | .markDirty x y => Sys2Proof.Machine.execMarkDirty x y s
  | .setPixel c x y => Sys2Proof.Machine.execSetPixel c x y s
  | .drawHline c x y w => Sys2Proof.Machine.execDrawHline c x y w s
  | .drawVline c x y h => Sys2Proof.Machine.execDrawVline c x y h s
  | .drawRect c x y w h => Sys2Proof.Machine.execDrawRect c x y w h s
  | .fillRect c x y w h => Sys2Proof.Machine.execFillRect c x y w h s
  | .drawCircle c x0 y0 r => Sys2Proof.Machine.execDrawCircle c x0 y0 r s
  | .fillCircle c x0 y0 r => Sys2Proof.Machine.execFillCircle c x0 y0 r s
  | .selectFont id => Sys2Proof.Machine.execSelectFont id s
  | .drawChar fg bg x y code => Sys2Proof.Machine.execDrawChar fg bg x y code s
  | .drawStringColor fg bg null x y a => Sys2Proof.Machine.execDrawStringColor fg bg null x y a s
  | .drawString null x y a => Sys2Proof.Machine.execDrawString null x y a s
  | .measureString null a => Sys2Proof.Machine.execMeasureString null a s
  | .refresh force => Sys2Proof.Machine.execRefresh force s
  | .sendCmd1 b => Sys2Proof.Machine.execSendCmd1 b s
  | .sendCmd2 b v => Sys2Proof.Machine.execSendCmd2 b v s
  | .clearStatus => Sys2Proof.Machine.execClearStatus s

end Sys2Proof.Machine
end

