-- ==== Sys2Proof/Machine/HostWindow.lean ====
section
/-! DEFINITION. The host window (spec/20_memory.md R52 to R54, spec/10_state.md R31): what a host access reaches, what
a read returns, what a write stores, and which write starts a command. -/

namespace Sys2Proof.Machine

/-- The registers of the host window (spec/10_state.md R31). -/
inductive HostReg where
  | cmdLo | cmdHi | status | result | dirty | fontSel | config | panel | fonts
deriving DecidableEq, Repr

/-- What a host access reaches (spec/20_memory.md R52 to R54). -/
inductive Target where
  | reg (r : HostReg)
  | strByte (a : Nat)
  | strWord (a : Nat)
  | nothing
deriving DecidableEq, Repr

/-- The register at an offset (spec/10_state.md R31). -/
def regAt (offset : Nat) : Target :=
  if offset = 0x000 then .reg .cmdLo
  else if offset = 0x004 then .reg .cmdHi
  else if offset = 0x008 then .reg .status
  else if offset = 0x00C then .reg .result
  else if offset = 0x010 then .reg .dirty
  else if offset = 0x014 then .reg .fontSel
  else if offset = 0x018 then .reg .config
  else if offset = 0x01C then .reg .panel
  else if offset = 0x020 then .reg .fonts
  else .nothing

/-- Address decoding: registers by aligned 32-bit accesses only, STRMEM at 0x1000 by 8-bit and aligned 32-bit
accesses, nothing anywhere else or at any other width or alignment (spec/20_memory.md R52, R53, R54). -/
def target (addr : BitVec 16) (width : Width) : Target :=
  if addr.toNat < 0x1000 then
    match width with
    | .word => regAt addr.toNat
    | .byte | .half | .other => .nothing
  else if addr.toNat < 0x2000 then
    match width with
    | .byte => .strByte (addr.toNat - 0x1000)
    | .word => if addr.toNat % 4 = 0 then .strWord (addr.toNat - 0x1000) else .nothing
    | .half | .other => .nothing
  else .nothing

/-- FONT_SEL as the host reads it: valid in bit 0, id in bits 19:8 (spec/10_state.md R26, R31). -/
def fontSelValue : Option (BitVec 12) → Reg32
  | none => 0
  | some n => 0#12 ++ n ++ 0#7 ++ 1#1

/-- DIRTY as the host reads it (spec/10_state.md R31). -/
def dirtyValue (d : Dirty) : Reg32 := d.bottom ++ d.right ++ d.left ++ d.top

/-- CONFIG: W in bits 15:0, H in bits 31:16 (spec/10_state.md R31). -/
def configValue (c : Config) : Reg32 := BitVec.ofNat 16 c.H ++ BitVec.ofNat 16 c.W

/-- PANEL: BUS_ADDR, COL_OFFSET, COM_PINS (spec/10_state.md R31). -/
def panelValue (c : Config) : Reg32 := 0#8 ++ c.comPins ++ BitVec.ofNat 8 c.colOffset ++ 0#1 ++ c.busAddr

/-- FONTS: NUM_FONTS in bits 11:0 (spec/10_state.md R31). -/
def fontsValue (c : Config) : Reg32 := 0#20 ++ BitVec.ofNat 12 (numFonts c)

/-- The value of a register (spec/10_state.md R31). -/
def regValue (r : HostReg) (s : State) : Reg32 :=
  match r with
  | .cmdLo => s.cmdLo
  | .cmdHi => s.cmdHi
  | .status => s.status
  | .result => s.result
  | .dirty => dirtyValue s.dirty
  | .fontSel => fontSelValue s.fontSel
  | .config => configValue s.cfg
  | .panel => panelValue s.cfg
  | .fonts => fontsValue s.cfg

/-- The byte a host read of STRMEM byte `a` returns: the byte written, or a free value, draw number `k`
(spec/60_exceptions.md R249; log 9). -/
def strByteOr (m : Memory) (a k : Nat) : Byte :=
  match strRead m a with
  | some b => b
  | none => Config.freeByte k

/-- A little-endian word of STRMEM (spec/20_memory.md R54); byte `k` of it may take draw number `draw + k`. -/
def strWordValue (m : Memory) (a draw : Nat) : Reg32 :=
  strByteOr m (a + 3) (draw + 3) ++ strByteOr m (a + 2) (draw + 2)
    ++ strByteOr m (a + 1) (draw + 1) ++ strByteOr m a draw

/-- Write a little-endian word to STRMEM (spec/20_memory.md R54). -/
def strWordWrite (m : Memory) (a : Nat) (v : Reg32) : Memory :=
  strWrite (strWrite (strWrite (strWrite m a (v.extractLsb' 0 8)) (a + 1) (v.extractLsb' 8 8))
    (a + 2) (v.extractLsb' 16 8)) (a + 3) (v.extractLsb' 24 8)

/-- A host read (spec/20_memory.md R52 to R54, R56): the value joins the values read; the block does not change. What
is not decoded reads 0. The counter of free values moves past the STRMEM bytes read (log 9). -/
def hostRead (addr : BitVec 16) (width : Width) (s : State) : State :=
  match target addr width with
  | .reg r => { s with reads := s.reads ++ [regValue r s] }
  | .strByte a =>
    { s with reads := s.reads ++ [(strByteOr s.strmem a s.draws).zeroExtend 32], draws := s.draws + 1 }
  | .strWord a => { s with reads := s.reads ++ [strWordValue s.strmem a s.draws], draws := s.draws + 4 }
  | .nothing => { s with reads := s.reads ++ [0] }

/-- What a host write stores (spec/10_state.md R29, R30, R31, spec/20_memory.md R52 to R54). A byte write stores the
low eight bits of the value. Read-only registers and what is not decoded ignore it. -/
def hostStore (addr : BitVec 16) (width : Width) (value : Reg32) (s : State) : State :=
  match target addr width with
  | .reg .cmdLo => { s with cmdLo := value }
  | .reg .cmdHi => { s with cmdHi := value }
  | .reg _ => s
  | .strByte a => { s with strmem := strWrite s.strmem a (value.extractLsb' 0 8) }
  | .strWord a => { s with strmem := strWordWrite s.strmem a value }
  | .nothing => s

/-- Whether a host write starts a command: a write that reaches CMD_HI (spec/10_state.md R29). -/
def startsCommand (addr : BitVec 16) (width : Width) : Bool := target addr width == .reg .cmdHi

/-- The command word `{CMD_HI, CMD_LO}` (spec/10_state.md R29). -/
def commandWord (s : State) : CmdWord := s.cmdHi ++ s.cmdLo

/-- The two host writes that execute a word, CMD_LO first (spec/70_reset_and_hazards.md R267). -/
def commandWrites (w : CmdWord) : List HostAccess :=
  [.write 0x0000 .word (w.extractLsb' 0 32), .write 0x0004 .word (w.extractLsb' 32 32)]

/-- A word placed so that the next host access executes it: its low half in CMD_LO, and the CMD_HI write next. -/
def placeWord (w : CmdWord) (s : State) : State :=
  { s with
    cmdLo := w.extractLsb' 0 32,
    host := .write 0x0004 .word (w.extractLsb' 32 32) :: s.host }

end Sys2Proof.Machine
end

