-- ==== Sys2Proof/Machine/Step.lean ====
section
/-! DEFINITION. One step of the machine: the next access of the host (spec/20_memory.md R57, R58). -/

namespace Sys2Proof.Machine

/-- Execute the command word `{CMD_HI, CMD_LO}`: decode it, reject it, or run it (spec/10_state.md R29,
spec/30_encoding.md R87). -/
def runCommand (s : State) : Host.Outcome State Fault Refusal :=
  match decode (commandWord s) with
  | .ok i => exec i s
  | .error e => .next (raiseErr (errOfDecode e) s)

/-- One host access (spec/70_reset_and_hazards.md R271). -/
def hostAccess (a : HostAccess) (s : State) : Host.Outcome State Fault Refusal :=
  match a with
  | .reset => .next (resetBlock s)
  | .read addr width => .next (hostRead addr width s)
  | .write addr width value =>
    if startsCommand addr width then runCommand (hostStore addr width value s)
    else .next (hostStore addr width value s)

/-- One step: an illegal configuration is refused (spec/60_exceptions.md R249); otherwise the host's next access is
performed; with no access left the block waits and nothing changes (log 4). -/
def step (s : State) : Host.Outcome State Fault Refusal :=
  if legal s.cfg then
    match s.host with
    | [] => .next s
    | a :: rest => hostAccess a { s with host := rest }
  else .refused .illegalConfiguration

/-- `s` with one command word placed so that the very next step executes it: its low half in CMD_LO and the write of
its high half to CMD_HI as the host's next access (log 10). -/
def State.withFetchWord (s : State) (nbits w : Nat) : State :=
  placeWord (BitVec.ofNat 64 (w % 2 ^ nbits)) s

end Sys2Proof.Machine
end

