-- ==== Sys2Proof/Machine/Assembler.lean ====
section
/-! DEFINITION. The host's spellings of commands: the operands of the textual syntax (spec/30_encoding.md R90), the
pseudo-instructions (R91), and the boot and teardown programs (spec/70_reset_and_hazards.md R262, R264). No block
behaviour: they only name command words. Every controller byte here is general knowledge, the host's choice (log 16). -/

namespace Sys2Proof.Machine

/-! ## Operands that fit their fields (spec/30_encoding.md R90: "refuses an operand that does not fit its field") -/

/-- A coordinate operand as a field. -/
def asmCoord (v : Int) : Option (BitVec 12) :=
  if -2048 ≤ v ∧ v ≤ 2047 then some (BitVec.ofInt 12 v) else none

/-- A size, id or address operand as a field. -/
def asmSize (v : Int) : Option (BitVec 12) :=
  if 0 ≤ v ∧ v ≤ 4095 then some (BitVec.ofInt 12 v) else none

/-- A code, command byte or parameter operand as a field. -/
def asmByte (v : Int) : Option Byte :=
  if 0 ≤ v ∧ v ≤ 255 then some (BitVec.ofInt 8 v) else none

/-- A line of the syntax with its integer operands; a string operand is an address or `null`, here `none`. -/
inductive AsmLine where
  | nop
  | clear
  | markDirty (x y : Int)
  | setPixel (x y : Int) (c : Colour)
  | drawHline (x y w : Int) (c : Colour)
  | drawVline (x y h : Int) (c : Colour)
  | drawRect (x y w h : Int) (c : Colour)
  | fillRect (x y w h : Int) (c : Colour)
  | drawCircle (x0 y0 r : Int) (c : Colour)
  | fillCircle (x0 y0 r : Int) (c : Colour)
  | selectFont (id : Int)
  | drawChar (x y code : Int) (fg bg : Colour)
  | drawStringColor (x y : Int) (a : Option Int) (fg bg : Colour)
  | drawString (x y : Int) (a : Option Int)
  | measureString (a : Option Int)
  | refresh
  | refreshForce
  | sendCmd1 (b : Int)
  | sendCmd2 (b v : Int)
  | clearStatus
deriving DecidableEq, Repr

/-- A string operand as NULLSTR and address. -/
def asmString : Option Int → Option (Bool × BitVec 12)
  | none => some (true, 0)
  | some a => (asmSize a).map fun p => (false, p)

/-- The command of a line, or nothing where an operand does not fit (spec/30_encoding.md R90). -/
def assemble : AsmLine → Option Instr
  | .nop => some .nop
  | .clear => some .clear
  | .markDirty x y => do return .markDirty (← asmCoord x) (← asmCoord y)
  | .setPixel x y c => do return .setPixel c (← asmCoord x) (← asmCoord y)
  | .drawHline x y w c => do return .drawHline c (← asmCoord x) (← asmCoord y) (← asmSize w)
  | .drawVline x y h c => do return .drawVline c (← asmCoord x) (← asmCoord y) (← asmSize h)
  | .drawRect x y w h c => do return .drawRect c (← asmCoord x) (← asmCoord y) (← asmSize w) (← asmSize h)
  | .fillRect x y w h c => do return .fillRect c (← asmCoord x) (← asmCoord y) (← asmSize w) (← asmSize h)
  | .drawCircle x y r c => do return .drawCircle c (← asmCoord x) (← asmCoord y) (← asmSize r)
  | .fillCircle x y r c => do return .fillCircle c (← asmCoord x) (← asmCoord y) (← asmSize r)
  | .selectFont n => do return .selectFont (← asmSize n)
  | .drawChar x y k fg bg => do return .drawChar fg bg (← asmCoord x) (← asmCoord y) (← asmByte k)
  | .drawStringColor x y a fg bg => do
    return .drawStringColor fg bg (← asmString a).1 (← asmCoord x) (← asmCoord y) (← asmString a).2
  | .drawString x y a => do return .drawString (← asmString a).1 (← asmCoord x) (← asmCoord y) (← asmString a).2
  | .measureString a => do return .measureString (← asmString a).1 (← asmString a).2
  | .refresh => some (.refresh false)
  | .refreshForce => some (.refresh true)
  | .sendCmd1 b => do return .sendCmd1 (← asmByte b)
  | .sendCmd2 b v => do return .sendCmd2 (← asmByte b) (← asmByte v)
  | .clearStatus => some .clearStatus

/-- The host writes that execute a command, CMD_LO then CMD_HI (spec/10_state.md R29). -/
def hostWrites (i : Instr) : List HostAccess := commandWrites (encode i)

/-! ## Pseudo-instructions (spec/30_encoding.md R91) -/

/-- The pseudo-instructions. -/
inductive Pseudo where
  | displayOn
  | displayOff
  | setContrast (v : Byte)
  | invertDisplay (on : Bool)
  | flipH (on : Bool)
  | flipV (on : Bool)
  | rotate (on : Bool)
  | chargePump (on : Bool)
  | teardown
deriving DecidableEq, Repr

/-- The expansion of a pseudo-instruction (spec/30_encoding.md R91; log 16). -/
def Pseudo.expand : Pseudo → List Instr
  | .displayOn => [.sendCmd1 0xAF]
  | .displayOff => [.sendCmd1 0xAE]
  | .setContrast v => [.sendCmd2 0x81 v]
  | .invertDisplay on => [.sendCmd1 (if on then 0xA7 else 0xA6)]
  | .flipH on => [.sendCmd1 (if on then 0xA1 else 0xA0)]
  | .flipV on => [.sendCmd1 (if on then 0xC8 else 0xC0)]
  | .rotate on =>
    if on then [.sendCmd1 0xA0, .sendCmd1 0xC0] else [.sendCmd1 0xA1, .sendCmd1 0xC8]
  | .chargePump on => [.sendCmd2 0x8D (if on then 0x14 else 0x10)]
  | .teardown => [.sendCmd1 0xAE, .sendCmd2 0x8D 0x10]

/-- The boot program the host sends, with its contrast `v` (spec/70_reset_and_hazards.md R262; log 16). -/
def bootProgram (c : Config) (v : Byte) : List Instr :=
  [.sendCmd2 0xA8 (BitVec.ofNat 8 (c.H - 1)), .sendCmd2 0xD3 0x00, .sendCmd1 0x40, .sendCmd1 0xA1, .sendCmd1 0xC8,
   .sendCmd2 0xDA c.comPins, .sendCmd2 0x81 v, .sendCmd2 0x8D 0x14, .sendCmd2 0x20 0x00, .sendCmd2 0xD9 0xF1]

end Sys2Proof.Machine
end

