-- ==== Sys2Proof/Safety.lean ====
section
/-! DEFINITION. What claims are stated in: the invariant of the state, what a run is, when it has ended, its
observation, and the launch premises (spec/10_state.md R25, spec/00_scope.md R16, spec/70_reset_and_hazards.md R263,
R270). -/

namespace Sys2Proof

open Machine

/-- DIRTY is the sentinel or a rectangle of the panel (spec/10_state.md R25). -/
def dirtyOk (c : Config) (d : Dirty) : Prop :=
  d = Dirty.sentinel ∨
    (d.left.toNat ≤ d.right.toNat ∧ d.right.toNat < c.W ∧ d.top.toNat ≤ d.bottom.toNat ∧ d.bottom.toNat < c.H)

/-- FONT_SEL is none or an id of the font table (spec/10_state.md R26). -/
def fontSelOk (c : Config) (sel : Option (BitVec 12)) : Prop :=
  ∀ n, sel = some n → n.toNat < numFonts c

/-- STATUS: the reserved bits read 0, LAST_ERR is 0 to 4, and it is 0 exactly when no sticky bit is set
(spec/10_state.md R27, spec/60_exceptions.md R230). -/
def statusOk (status : Reg32) : Prop :=
  status &&& statusReserved = 0 ∧ (lastErr status).toNat ≤ 4 ∧
    (lastErr status = 0 ↔ (errIllegal status = false ∧ errString status = false ∧ errBus status = false))

/-- The invariant of every run: a legal configuration; FB and STRMEM in canonical form within their address spaces;
DIRTY, FONT_SEL and STATUS as the spec allows them. -/
structure StateInv (s : State) : Prop where
  cfg     : legal s.cfg = true
  fb      : Memory.wf fbUnlisted (fbBytes s.cfg) s.fb
  strmem  : Memory.wf strUnlisted strBytes s.strmem
  dirty   : dirtyOk s.cfg s.dirty
  fontSel : fontSelOk s.cfg s.fontSel
  status  : statusOk s.status

/-- From `fb` to `fb'` exactly the panel pixels in `S` change, each as `f` says; every byte that holds no such pixel
reads as before. -/
def Paints (c : Config) (S : Int → Int → Prop) (f : Int → Int → Bool → Bool) (fb fb' : Memory) : Prop :=
  (∀ x y, inPanel c x y = true →
    (S x y → pixel c fb' x y = f x y (pixel c fb x y)) ∧ (¬ S x y → pixel c fb' x y = pixel c fb x y)) ∧
  ∀ j, (∀ x y, S x y → inPanel c x y = true → idx c x y ≠ j) → fbRead fb' j = fbRead fb j

/-- `d'` is the smallest rectangle that holds `d` and every panel position in `S` (spec/40_framebuffer.md R113, R117):
it holds them, and each of its bounds is the one of `d` or that of such a position. -/
def GrowsTo (c : Config) (S : Int → Int → Prop) (d d' : Dirty) : Prop :=
  (∀ x y, S x y → inPanel c x y = true →
    (d'.left.toNat : Int) ≤ x ∧ x ≤ d'.right.toNat ∧ (d'.top.toNat : Int) ≤ y ∧ y ≤ d'.bottom.toNat) ∧
  (d'.top.toNat ≤ d.top.toNat ∧ d'.left.toNat ≤ d.left.toNat ∧
    d.right.toNat ≤ d'.right.toNat ∧ d.bottom.toNat ≤ d'.bottom.toNat) ∧
  (d'.top = d.top ∨ ∃ x y, S x y ∧ inPanel c x y = true ∧ y = d'.top.toNat) ∧
  (d'.left = d.left ∨ ∃ x y, S x y ∧ inPanel c x y = true ∧ x = d'.left.toNat) ∧
  (d'.right = d.right ∨ ∃ x y, S x y ∧ inPanel c x y = true ∧ x = d'.right.toNat) ∧
  (d'.bottom = d.bottom ∨ ∃ x y, S x y ∧ inPanel c x y = true ∧ y = d'.bottom.toNat)

/-- A host read of the register at an offset returns `v` and has no side effect (spec/20_memory.md R56). -/
def ReadsAs (s : State) (offset : BitVec 16) (v : Reg32) : Prop :=
  ∀ rest, step { s with host := .read offset .word :: rest } = .next { s with host := rest, reads := s.reads ++ [v] }

/-- A font as spec/42_text.md R170 and R172 require it. -/
def WellFormedFont (f : Font) : Prop :=
  f.height ≤ 255 ∧ f.spacing ≤ 255 ∧ f.charEnd ≤ 255 ∧ f.charStart ≤ f.charEnd ∧
    f.charStart ≤ 0x20 ∧ 0x20 ≤ f.charEnd ∧ f.desc.length = f.charEnd - f.charStart + 1 ∧
    f.bitmap.length ≤ 65536 + 32 * 255 ∧
    ∀ (k : Nat) (d : Glyph), f.desc[k]? = some d →
      d.width ≤ 255 ∧ d.offset ≤ 65535 ∧ d.offset + (d.width + 7) / 8 * f.height ≤ f.bitmap.length

/-- A configuration as spec/00_scope.md R8 requires it. -/
def LegalConfig (c : Config) : Prop :=
  1 ≤ c.W ∧ c.W ≤ 256 ∧ c.colOffset + c.W - 1 ≤ 255 ∧ 8 ≤ c.H ∧ c.H ≤ 256 ∧ c.H % 8 = 0 ∧ c.colOffset ≤ 255 ∧
    c.fonts.length ≤ 4095 ∧ ∀ f ∈ c.fonts, WellFormedFont f

/-- STATUS after a recorded error: its sticky bit set, LAST_ERR its code, every other bit as before
(spec/60_exceptions.md R232, R235). -/
def Records (bit code : Nat) (st st' : Reg32) : Prop :=
  st'.getLsbD bit = true ∧ (lastErr st').toNat = code ∧
    ∀ k, k ≠ bit → k < 8 ∨ 12 ≤ k → st'.getLsbD k = st.getLsbD k

/-- STRMEM holds these bytes from address `a`, none of them 0x00, and a 0x00 after them (spec/42_text.md R180). -/
def StringAt (m : Memory) (a : Nat) (bytes : List Byte) : Prop :=
  a + bytes.length < strBytes ∧ (∀ k b, bytes[k]? = some b → strRead m (a + k) = some b ∧ b ≠ 0x00#8) ∧
    strRead m (a + bytes.length) = some 0x00#8

/-- STRMEM holds no 0x00 from address `a` to its end, and every byte there is written (spec/42_text.md R180). -/
def NoTerminator (m : Memory) (a : Nat) : Prop :=
  ∀ k, a ≤ k → k < strBytes → ∃ b, strRead m k = some b ∧ b ≠ 0x00#8

/-- The active font is `f` (spec/10_state.md R26). -/
def Active (s : State) (f : Font) : Prop :=
  ∃ n, s.fontSel = some n ∧ s.cfg.fonts[n.toNat]? = some f

/-- The descriptor of a code, with the space for a code outside the font's range (spec/42_text.md R173, R174). -/
def Describes (f : Font) (code : Nat) (d : Glyph) : Prop :=
  f.desc[(if f.charStart ≤ code ∧ code ≤ f.charEnd then code else 0x20) - f.charStart]? = some d

/-- Column `i`, row `j` of the cell of a code holds the bit `b` (spec/42_text.md R174). -/
def GlyphShows (f : Font) (code i j : Nat) (b : Bool) : Prop :=
  ∃ d v, Describes f code d ∧ i < d.width ∧ j < f.height ∧
    f.bitmap[d.offset + (d.width + 7) / 8 * j + i / 8]? = some v ∧ v.getLsbD (7 - i % 8) = b

/-- The position `(px, py)` shows the glyph bit `b` when the characters are laid out from `(x, y)`
(spec/42_text.md R182, R183). -/
def TextShows (f : Font) (bytes : List Byte) (x y px py : Int) (b : Bool) : Prop :=
  ∃ k code i j, bytes[k]? = some code ∧ GlyphShows f code.toNat i j b ∧
    px = x + cursor f bytes k + i ∧ py = y + j

/-- What a character cell makes of a pixel: the foreground where the glyph bit is set, a Black or White background
where it is clear, and otherwise nothing (spec/42_text.md R176). -/
def cellBit (fg bg : Colour) (glyph old : Bool) : Bool :=
  if glyph then colourBit fg old
  else if bg = .black then false
  else if bg = .white then true
  else old

/-- From `fb` to `fb'` exactly the panel pixels of the laid out characters change, each as its glyph bit says; every
byte that holds no such pixel reads as before. -/
def PaintsText (c : Config) (f : Font) (bytes : List Byte) (x y : Int) (fg bg : Colour) (fb fb' : Memory) : Prop :=
  (∀ px py, inPanel c px py = true →
    (∀ b, TextShows f bytes x y px py b → pixel c fb' px py = cellBit fg bg b (pixel c fb px py)) ∧
    ((∀ b, ¬ TextShows f bytes x y px py b) → pixel c fb' px py = pixel c fb px py)) ∧
  ∀ j, (∀ px py b, TextShows f bytes x y px py b → inPanel c px py = true → idx c px py ≠ j) →
    fbRead fb' j = fbRead fb j

/-- The positions the characters plot: a clear bit only under a Black or White background (spec/42_text.md R176). -/
def TextPlots (f : Font) (bytes : List Byte) (x y : Int) (bg : Colour) (px py : Int) : Prop :=
  ∃ b, TextShows f bytes x y px py b ∧ (b = true ∨ bg = .black ∨ bg = .white)

/-- The circle recurrence from `(1, r, 1 − r)`, run on past the end of its loop: its states `(a i, b i, e i)`, and `n`,
the number of the first one in which the loop condition fails (spec/41_primitives.md R149, R150, R153). -/
structure CircleRun (r : Nat) (a b e : Nat → Int) (n : Nat) : Prop where
  start : a 0 = 1 ∧ b 0 = r ∧ e 0 = 1 - r
  next  : ∀ i, a (i + 1) = a i + 1
  stay  : ∀ i, e i < 0 → b (i + 1) = b i ∧ e (i + 1) = e i + 2 * a (i + 1) + 1
  fall  : ∀ i, 0 ≤ e i → b (i + 1) = b i - 1 ∧ e (i + 1) = e i + 2 * (a (i + 1) - b (i + 1) + 1)
  loop  : ∀ i, i < n → a i ≤ b i
  exit  : b n < a n

/-- The body of the loop of a circle of radius `r` runs with these values of `a` and `b` (spec/41_primitives.md
R149). -/
def LoopState (r : Nat) (a b : Int) : Prop :=
  ∃ as bs es n i, CircleRun r as bs es n ∧ i < n ∧ as i = a ∧ bs i = b

/-- The positions of DRAW_CIRCLE: the cardinal points, and of each loop state the four direct points and, off the
diagonal, the four mirrored ones (spec/41_primitives.md R150). -/
def OnOutline (x0 y0 : Int) (r : Nat) (px py : Int) : Prop :=
  1 ≤ r ∧
    ((px = x0 - r ∨ px = x0 + r) ∧ py = y0 ∨ px = x0 ∧ (py = y0 - r ∨ py = y0 + r) ∨
      ∃ y x, LoopState r y x ∧
        ((px = x0 + x ∨ px = x0 - x) ∧ (py = y0 + y ∨ py = y0 - y) ∨
          x ≠ y ∧ (px = x0 + y ∨ px = x0 - y) ∧ (py = y0 + x ∨ py = y0 - x)))

/-- The positions of FILL_CIRCLE: the centre column, and the vertical spans of each loop state
(spec/41_primitives.md R153). -/
def InDisc (x0 y0 : Int) (r : Nat) (px py : Int) : Prop :=
  1 ≤ r ∧
    (px = x0 ∧ y0 - r ≤ py ∧ py ≤ y0 + r ∨
      ∃ x y, LoopState r x y ∧
        ((px = x0 - x ∨ px = x0 + x) ∧ y0 - y ≤ py ∧ py ≤ y0 + y ∨
          (px = x0 - y ∨ px = x0 + y) ∧ y0 - x ≤ py ∧ py ≤ y0 + x))

/-- DIRTY covers the whole panel (spec/40_framebuffer.md R121, spec/43_refresh.md R206). -/
def CoversPanel (c : Config) (d : Dirty) : Prop :=
  d.top.toNat = 0 ∧ d.left.toNat = 0 ∧ d.right.toNat + 1 = c.W ∧ d.bottom.toNat + 1 = c.H

/-- Two states that differ in nothing but the transport's answers, STATUS, the values the host has read, and the count
of free values (spec/43_refresh.md R202). Which of the values read may differ, `AnswersChangeOnlyStatus` says read by
read (`FreeReadByte`). -/
def SameButAnswers (s s' : State) : Prop :=
  s' = { s with answers := s'.answers, draws := s'.draws, status := s'.status, reads := s'.reads }

/-- A byte of a host read that the answers may change: one of STATUS, or a STRMEM byte nothing has written, whose value
is free (spec/10_state.md R31, spec/60_exceptions.md R249). -/
def FreeReadByte (s : State) (addr : BitVec 16) (width : Width) (k : Nat) : Prop :=
  width = .word ∧ addr = 0x0008 ∨
    (width = .word ∨ width = .byte ∧ k = 0) ∧ 0x1000 ≤ addr.toNat ∧ addr.toNat + k < 0x2000 ∧
      strRead s.strmem (addr.toNat - 0x1000 + k) = none

/-- The transport answers each of the next `n` transactions: no `never` among the answers that cover them
(spec/70_reset_and_hazards.md R269). -/
def answered (n : Nat) (s : State) : Prop := BusAnswer.never ∉ s.answers.take n

/-- What a run shows (spec/00_scope.md R16): the bus trace, the architectural state and the host's read values. -/
structure Observation where
  trace   : List BusRecord
  fb      : Memory
  dirty   : Dirty
  fontSel : Option (BitVec 12)
  status  : Reg32
  result  : Reg32
  cmdLo   : Reg32
  cmdHi   : Reg32
  strmem  : Memory
  reads   : List Reg32
deriving DecidableEq, Repr

/-- The observation of a state. -/
def observe (s : State) : Observation :=
  ⟨s.trace, s.fb, s.dirty, s.fontSel, s.status, s.result, s.cmdLo, s.cmdHi, s.strmem, s.reads⟩

/-- A run ends when the host has made its last access (spec/70_reset_and_hazards.md R270). -/
def runEnded (s : State) : Bool := s.host.isEmpty

/-- The launch premises that reset establishes (spec/70_reset_and_hazards.md R263). -/
def cleanEntry (s : State) : Prop :=
  s.status = 0 ∧ s.dirty = Dirty.sentinel ∧ s.fontSel = none ∧ s.result = 0 ∧ s.fb = []

/-- A safe run of `n` steps: it stops with no fault and no refusal. -/
def safeRun (n : Nat) (s : State) : Prop := ∃ t, core.run n s = .next t

end Sys2Proof
end

