-- ==== Sys2Proof/Certificates/Slice0/Obligations.lean ====
section
/-! DEFINITION. The statements about this model, one definition each. A docstring names the rules of spec/ a statement
formalises; the words it is stated in are those of Sys2Proof/Safety.lean. -/

section Statements

open Sys2Proof Sys2Proof.Machine

/-! ## Encoding -/

/-- The worked encodings (spec/30_encoding.md R92): the line of each text assembles to a command whose word is the one
given, and the word decodes to it; and the fields of the second one, one by one. -/
def Obligations.SpecWordsDecode : Prop :=
  (∀ (line : AsmLine) (i : Instr) (w : CmdWord),
    (line, i, w) ∈ [
      (AsmLine.setPixel 0 0 .white, Instr.setPixel .white 0 0, 0x0340000000000000#64),
      (.drawHline (-3) 5 10 .invert, .drawHline .invert (-3) 5 10, 0x1080FFD00500A000#64),
      (.drawRect 2 3 4 5 .white, .drawRect .white 2 3 4 5, 0x1240002003004005#64),
      (.drawChar 1 2 0x21 .white .black, .drawChar .white .black 1 2 0x21, 0x2140001002021000#64),
      (.drawStringColor 0 0 none .white .transparent, .drawStringColor .white .transparent true 0 0 0,
        0x2271000000000000#64),
      (.refreshForce, .refresh true, 0x3001000000000000#64),
      (.sendCmd2 0x81 0xCF, .sendCmd2 0x81 0xCF, 0x32000000000810CF#64)] →
    assemble line = some i ∧ encode i = w ∧ decode w = .ok i) ∧
  Fields.ofWord 0x1080FFD00500A000 = ⟨0x10, 0b10, 0, 0, 0, 0xFFD, 0x005, 0x00A, 0⟩

/-- Every command's word, field by field from bit 63 down, with every value of its operands
(spec/30_encoding.md R80, R81, R84, R85, R86). -/
def Obligations.CommandWordLayout : Prop :=
  ∀ (x y p q : BitVec 12) (b v : Byte) (fg bg : BitVec 2) (f0 : BitVec 1) (cf cb : Colour) (flag : Bool),
    (fg, cf) ∈ [(0b00#2, Colour.black), (0b01#2, Colour.white), (0b10#2, Colour.invert), (0b11#2, Colour.transparent)] →
    (bg, cb) ∈ [(0b00#2, Colour.black), (0b01#2, Colour.white), (0b10#2, Colour.invert), (0b11#2, Colour.transparent)] →
    (f0, flag) ∈ [(0#1, false), (1#1, true)] →
    decode (0x00#8 ++ 0#56) = .ok .nop ∧
    decode (0x01#8 ++ 0#56) = .ok .clear ∧
    decode (0x02#8 ++ 0#8 ++ x ++ y ++ 0#24) = .ok (.markDirty x y) ∧
    decode (0x03#8 ++ fg ++ 0#6 ++ x ++ y ++ 0#24) = .ok (.setPixel cf x y) ∧
    decode (0x10#8 ++ fg ++ 0#6 ++ x ++ y ++ p ++ 0#12) = .ok (.drawHline cf x y p) ∧
    decode (0x11#8 ++ fg ++ 0#6 ++ x ++ y ++ p ++ 0#12) = .ok (.drawVline cf x y p) ∧
    decode (0x12#8 ++ fg ++ 0#6 ++ x ++ y ++ p ++ q) = .ok (.drawRect cf x y p q) ∧
    decode (0x13#8 ++ fg ++ 0#6 ++ x ++ y ++ p ++ q) = .ok (.fillRect cf x y p q) ∧
    decode (0x14#8 ++ fg ++ 0#6 ++ x ++ y ++ p ++ 0#12) = .ok (.drawCircle cf x y p) ∧
    decode (0x15#8 ++ fg ++ 0#6 ++ x ++ y ++ p ++ 0#12) = .ok (.fillCircle cf x y p) ∧
    decode (0x20#8 ++ 0#32 ++ p ++ 0#12) = .ok (.selectFont p) ∧
    decode (0x21#8 ++ fg ++ bg ++ 0#4 ++ x ++ y ++ 0#4 ++ b ++ 0#12) = .ok (.drawChar cf cb x y b) ∧
    (f0 = 0#1 ∨ p = 0#12 →
      decode (0x22#8 ++ fg ++ bg ++ 0#3 ++ f0 ++ x ++ y ++ p ++ 0#12) = .ok (.drawStringColor cf cb flag x y p) ∧
      decode (0x23#8 ++ 0#7 ++ f0 ++ x ++ y ++ p ++ 0#12) = .ok (.drawString flag x y p) ∧
      decode (0x24#8 ++ 0#7 ++ f0 ++ 0#24 ++ p ++ 0#12) = .ok (.measureString flag p)) ∧
    decode (0x30#8 ++ 0#7 ++ f0 ++ 0#48) = .ok (.refresh flag) ∧
    decode (0x31#8 ++ 0#36 ++ b ++ 0#12) = .ok (.sendCmd1 b) ∧
    decode (0x32#8 ++ 0#36 ++ b ++ 0#4 ++ v) = .ok (.sendCmd2 b v) ∧
    decode (0x3F#8 ++ 0#56) = .ok .clearStatus

/-- Encoding a well-formed command and decoding it gives it back, at every value of every operand
(spec/30_encoding.md R80, R81, R90). -/
def Obligations.DecodeOfEncode : Prop :=
  ∀ i : Instr, i.wf = true → decode (encode i) = .ok i

/-- A word that decodes is the word of its command, and the command is well-formed: each command has one word
(spec/30_encoding.md R80, R81, R87). -/
def Obligations.EncodeOfDecode : Prop :=
  ∀ (w : CmdWord) (i : Instr), decode w = .ok i → i.wf = true ∧ encode i = w

/-- A word is rejected for its opcode exactly when its top byte lies in one of the undefined ranges, whatever its
other bits (spec/30_encoding.md R86, R87; spec/60_exceptions.md R233). -/
def Obligations.UndefinedOpcodesAreRejected : Prop :=
  ∀ w : CmdWord, decode w = .error .illegalOpcode ↔
    (0x04 ≤ w.toNat / 2 ^ 56 ∧ w.toNat / 2 ^ 56 ≤ 0x0F) ∨ (0x16 ≤ w.toNat / 2 ^ 56 ∧ w.toNat / 2 ^ 56 ≤ 0x1F) ∨
    (0x25 ≤ w.toNat / 2 ^ 56 ∧ w.toNat / 2 ^ 56 ≤ 0x2F) ∨ (0x33 ≤ w.toNat / 2 ^ 56 ∧ w.toNat / 2 ^ 56 ≤ 0x3E) ∨
    0x40 ≤ w.toNat / 2 ^ 56

/-- The rows of spec/opcode_table.json: command, match, mask. -/
def Sys2Proof.opcodeRows : List (Op × CmdWord × CmdWord) :=
  [(.nop, 0x0000000000000000, 0xFFFFFFFFFFFFFFFF), (.clear, 0x0100000000000000, 0xFFFFFFFFFFFFFFFF),
   (.markDirty, 0x0200000000000000, 0xFFFF000000FFFFFF), (.setPixel, 0x0300000000000000, 0xFF3F000000FFFFFF),
   (.drawHline, 0x1000000000000000, 0xFF3F000000000FFF), (.drawVline, 0x1100000000000000, 0xFF3F000000000FFF),
   (.drawRect, 0x1200000000000000, 0xFF3F000000000000), (.fillRect, 0x1300000000000000, 0xFF3F000000000000),
   (.drawCircle, 0x1400000000000000, 0xFF3F000000000FFF), (.fillCircle, 0x1500000000000000, 0xFF3F000000000FFF)]
  ++ [(.selectFont, 0x2000000000000000, 0xFFFFFFFFFF000FFF), (.drawChar, 0x2100000000000000, 0xFF0F000000F00FFF),
   (.drawStringColor, 0x2200000000000000, 0xFF0E000000000FFF), (.drawString, 0x2300000000000000, 0xFFFE000000000FFF),
   (.measureString, 0x2400000000000000, 0xFFFEFFFFFF000FFF), (.refresh, 0x3000000000000000, 0xFFFEFFFFFFFFFFFF),
   (.sendCmd1, 0x3100000000000000, 0xFFFFFFFFFFF00FFF), (.sendCmd2, 0x3200000000000000, 0xFFFFFFFFFFF00F00),
   (.clearStatus, 0x3F00000000000000, 0xFFFFFFFFFFFFFFFF)]

/-- A word decodes to a command of a row exactly when it matches the row under its mask and, for the string commands,
has `P` 0 where NULLSTR is 1 (spec/opcode_table.json; spec/30_encoding.md R81, R87). -/
def Obligations.DecodeAgreesWithOpcodeTable : Prop :=
  ∀ op m k, (op, m, k) ∈ opcodeRows → ∀ w : CmdWord,
    (∃ i, decode w = .ok i ∧ i.op = op) ↔
      (w &&& k = m ∧ (op.isString = true → w.getLsbD 48 = true → w.extractLsb' 12 12 = 0#12))

/-- What a line of the textual syntax says: the fields of its word, "with every field absent from the line 0", and
whether each operand fits its field (spec/30_encoding.md R81, R82, R83, R90). -/
structure Sys2Proof.LineSays where
  opc  : Int
  fg   : Colour := .black
  bg   : Colour := .black
  f0   : Int := 0
  x    : Int := 0
  y    : Int := 0
  p    : Int := 0
  q    : Int := 0
  fits : Prop

/-- A coordinate fits its field (spec/30_encoding.md R82). -/
def Sys2Proof.coordFits (v : Int) : Prop := -2048 ≤ v ∧ v ≤ 2047

/-- A size, font id or address fits its field (spec/30_encoding.md R83). -/
def Sys2Proof.sizeFits (v : Int) : Prop := 0 ≤ v ∧ v ≤ 4095

/-- A code or command byte fits its eight bits (spec/30_encoding.md R81). -/
def Sys2Proof.byteFits (v : Int) : Prop := 0 ≤ v ∧ v ≤ 255

/-- The table of lines (spec/30_encoding.md R90). -/
def Sys2Proof.lineSays : AsmLine → LineSays
  | .nop => { opc := 0x00, fits := True }
  | .clear => { opc := 0x01, fits := True }
  | .markDirty x y => { opc := 0x02, x := x, y := y, fits := coordFits x ∧ coordFits y }
  | .setPixel x y c => { opc := 0x03, fg := c, x := x, y := y, fits := coordFits x ∧ coordFits y }
  | .drawHline x y w c =>
    { opc := 0x10, fg := c, x := x, y := y, p := w, fits := coordFits x ∧ coordFits y ∧ sizeFits w }
  | .drawVline x y h c =>
    { opc := 0x11, fg := c, x := x, y := y, p := h, fits := coordFits x ∧ coordFits y ∧ sizeFits h }
  | .drawRect x y w h c =>
    { opc := 0x12, fg := c, x := x, y := y, p := w, q := h,
      fits := coordFits x ∧ coordFits y ∧ sizeFits w ∧ sizeFits h }
  | .fillRect x y w h c =>
    { opc := 0x13, fg := c, x := x, y := y, p := w, q := h,
      fits := coordFits x ∧ coordFits y ∧ sizeFits w ∧ sizeFits h }
  | .drawCircle x y r c =>
    { opc := 0x14, fg := c, x := x, y := y, p := r, fits := coordFits x ∧ coordFits y ∧ sizeFits r }
  | .fillCircle x y r c =>
    { opc := 0x15, fg := c, x := x, y := y, p := r, fits := coordFits x ∧ coordFits y ∧ sizeFits r }
  | .selectFont n => { opc := 0x20, p := n, fits := sizeFits n }
  | .drawChar x y k fg bg =>
    { opc := 0x21, fg := fg, bg := bg, x := x, y := y, p := k, fits := coordFits x ∧ coordFits y ∧ byteFits k }
  | .drawStringColor x y none fg bg =>
    { opc := 0x22, fg := fg, bg := bg, f0 := 1, x := x, y := y, fits := coordFits x ∧ coordFits y }
  | .drawStringColor x y (some a) fg bg =>
    { opc := 0x22, fg := fg, bg := bg, x := x, y := y, p := a, fits := coordFits x ∧ coordFits y ∧ sizeFits a }
  | .drawString x y none => { opc := 0x23, f0 := 1, x := x, y := y, fits := coordFits x ∧ coordFits y }
  | .drawString x y (some a) =>
    { opc := 0x23, x := x, y := y, p := a, fits := coordFits x ∧ coordFits y ∧ sizeFits a }
  | .measureString none => { opc := 0x24, f0 := 1, fits := True }
  | .measureString (some a) => { opc := 0x24, p := a, fits := sizeFits a }
  | .refresh => { opc := 0x30, fits := True }
  | .refreshForce => { opc := 0x30, f0 := 1, fits := True }
  | .sendCmd1 b => { opc := 0x31, p := b, fits := byteFits b }
  | .sendCmd2 b v => { opc := 0x32, p := b, q := v, fits := byteFits b ∧ byteFits v }
  | .clearStatus => { opc := 0x3F, fits := True }

/-- Every line of the textual syntax: it assembles to a command exactly when each operand fits its field, and the
command's word is then the sum of the line's shifted fields (spec/30_encoding.md R90). -/
def Obligations.AssembledWords : Prop :=
  ∀ (line : AsmLine) (i : Instr), assemble line = some i ↔
    ((lineSays line).fits ∧ ((encode i).toNat : Int) =
      (lineSays line).opc * 2 ^ 56 + (lineSays line).fg.code.toNat * 2 ^ 54 + (lineSays line).bg.code.toNat * 2 ^ 52 +
      (lineSays line).f0 * 2 ^ 48 + (lineSays line).x % 4096 * 2 ^ 36 + (lineSays line).y % 4096 * 2 ^ 24 +
      (lineSays line).p * 2 ^ 12 + (lineSays line).q)

/-! ## The step, errors, reset -/

/-- A step in which the host writes CMD_HI runs the command that `{CMD_HI, CMD_LO}` decodes to, with CMD_LO as it was
left; and a placed word runs at the next step (spec/10_state.md R29; spec/70_reset_and_hazards.md R267; the second
clause: log 10). -/
def Obligations.StepRunsTheDecodedCommand : Prop :=
  (∀ (s : State) (v : Reg32) (rest : List HostAccess) (i : Instr),
    legal s.cfg = true → s.host = .write 0x0004 .word v :: rest → decode (v ++ s.cmdLo) = .ok i →
    step s = exec i { s with host := rest, cmdHi := v }) ∧
  (∀ (s : State) (w : Nat) (i : Instr),
    legal s.cfg = true → w < 2 ^ 64 → decode (BitVec.ofNat 64 w) = .ok i →
    step (s.withFetchWord 64 w) =
      exec i { s with cmdLo := BitVec.ofNat 32 w, cmdHi := BitVec.ofNat 32 (w / 2 ^ 32) })

/-- The rejecting errors, codes 1, 2 and 3: the sticky bit is set, LAST_ERR holds the code, the other bits of STATUS
stay, and nothing else changes (spec/60_exceptions.md R232; spec/30_encoding.md R87; spec/42_text.md R180). -/
def Obligations.RejectingErrorsChangeOnlyStatus : Prop :=
  (∀ (s : State) (v : Reg32) (rest : List HostAccess) (e : DecodeError),
    legal s.cfg = true → s.host = .write 0x0004 .word v :: rest → decode (v ++ s.cmdLo) = .error e →
    ∃ st, step s = .next { s with host := rest, cmdHi := v, status := st } ∧
      (e = .illegalOpcode → Records 0 1 s.status st) ∧ (e = .reservedField → Records 0 2 s.status st)) ∧
  (∀ (s : State) (f : Font) (fg bg : Colour) (x y a : BitVec 12),
    Active s f → NoTerminator s.strmem a.toNat →
    ∃ st, Records 1 3 s.status st ∧
      exec (.drawStringColor fg bg false x y a) s = .next { s with status := st } ∧
      exec (.drawString false x y a) s = .next { s with status := st } ∧
      exec (.measureString false a) s = .next { s with status := st })

/-- The reset event leaves the values of the table of spec/10_state.md R33, issues no transaction and keeps the
configuration (spec/70_reset_and_hazards.md R260). Two clauses are the model's choice: STRMEM, unspecified there, is
unwritten (log 8), and the accesses and answers still to come, the trace, the values read and the count of free values
stay (log 7). -/
def Obligations.ResetState : Prop :=
  ∀ (s : State) (rest : List HostAccess), legal s.cfg = true → s.host = .reset :: rest →
    ∃ t, step s = .next t ∧
      (∀ i, fbRead t.fb i = 0x00) ∧
      t.dirty.top = 0xFF ∧ t.dirty.left = 0xFF ∧ t.dirty.right = 0x00 ∧ t.dirty.bottom = 0x00 ∧
      t.fontSel = none ∧ t.status = 0 ∧ t.result = 0 ∧ t.cmdLo = 0 ∧ t.cmdHi = 0 ∧
      (∀ a, strRead t.strmem a = none) ∧
      t.trace = s.trace ∧ t.cfg = s.cfg ∧
      t.host = rest ∧ t.answers = s.answers ∧ t.reads = s.reads ∧ t.draws = s.draws

/-- The invariant holds right after reset, in every legal configuration (spec/10_state.md R25, R26, R27, R33). -/
def Obligations.InvHoldsAtReset : Prop :=
  (∀ c : Config, legal c = true → StateInv (State.resetOf c)) ∧ StateInv State.reset

/-- Every step keeps the invariant: the configuration legal, FB and STRMEM canonical and inside their address spaces,
DIRTY the sentinel or a rectangle of the panel, FONT_SEL none or a font of the table, the reserved bits of STATUS 0
and LAST_ERR one of the codes (spec/10_state.md R25, R26, R27; spec/60_exceptions.md R230). -/
def Obligations.EveryStepKeepsInv : Prop :=
  ∀ s t : State, StateInv s → step s = .next t → StateInv t

/-- A step is refused exactly in a configuration that breaks spec/00_scope.md R8 or spec/42_text.md R172: no command
and no access of the host is (spec/60_exceptions.md R248, R249). -/
def Obligations.OnlyIllegalConfigurationsAreRefused : Prop :=
  ∀ s : State, (∃ r, step s = .refused r) ↔ ¬ LegalConfig s.cfg

/-- Where the invariant holds, a command stops for two reasons alone: a string command reads an unwritten STRMEM byte,
or a transaction of REFRESH, SEND_CMD1 or SEND_CMD2 is never answered (spec/60_exceptions.md R249). -/
def Obligations.FaultsHaveNamedCauses : Prop :=
  ∀ (i : Instr) (s : State) (f : Fault), StateInv s → exec i s = .fault f →
    (∃ a, f = .uninitStrmem a ∧ i.op ∈ [Op.drawStringColor, Op.drawString, Op.measureString] ∧
      a < strBytes ∧ strRead s.strmem a = none) ∨
    (f = .transportStuck ∧ i.op ∈ [Op.refresh, Op.sendCmd1, Op.sendCmd2] ∧ BusAnswer.never ∈ s.answers)

/-- What each command may write: none writes CMD_LO, CMD_HI or STRMEM, and every other piece of state is written by the
named commands alone (spec/10_state.md R23, R24, R26, R28, R29, R30; spec/20_memory.md R63; spec/60_exceptions.md
R234). -/
def Obligations.OnlyNamedCommandsWrite : Prop :=
  ∀ (i : Instr) (s t : State), exec i s = .next t →
    t.cfg = s.cfg ∧ t.cmdLo = s.cmdLo ∧ t.cmdHi = s.cmdHi ∧ t.strmem = s.strmem ∧ t.host = s.host ∧
    t.reads = s.reads ∧
    (t.fb ≠ s.fb → i.op ∈ [Op.clear, Op.setPixel, Op.drawHline, Op.drawVline, Op.drawRect, Op.fillRect,
      Op.drawCircle, Op.fillCircle, Op.drawChar, Op.drawStringColor, Op.drawString]) ∧
    (t.dirty ≠ s.dirty → i.op ∈ [Op.clear, Op.markDirty, Op.setPixel, Op.drawHline, Op.drawVline, Op.drawRect,
      Op.fillRect, Op.drawCircle, Op.fillCircle, Op.drawChar, Op.drawStringColor, Op.drawString, Op.refresh]) ∧
    (t.fontSel ≠ s.fontSel → i.op = Op.selectFont) ∧
    (t.result ≠ s.result → i.op ∈ [Op.drawChar, Op.drawStringColor, Op.drawString, Op.measureString]) ∧
    (t.status ≠ s.status → i.op ∈ [Op.drawStringColor, Op.drawString, Op.measureString, Op.refresh, Op.sendCmd1,
      Op.sendCmd2, Op.clearStatus]) ∧
    (t.trace ≠ s.trace ∨ t.answers ≠ s.answers ∨ t.draws ≠ s.draws →
      i.op ∈ [Op.refresh, Op.sendCmd1, Op.sendCmd2])

/-- CLEAR_STATUS writes 0 to STATUS and nothing else; and a sticky bit that is set stays set through every step but a
CLEAR_STATUS and a reset (spec/43_refresh.md R214; spec/10_state.md R27; spec/60_exceptions.md R235). -/
def Obligations.StickyBitsStayUntilCleared : Prop :=
  (∀ s : State, exec .clearStatus s = .next { s with status := 0 }) ∧
  (∀ (s t : State) (k : Nat), k < 3 → step s = .next t → s.status.getLsbD k = true →
    t.status.getLsbD k = true ∨ (∃ rest, s.host = .reset :: rest) ∨
      (∃ v rest, s.host = .write 0x0004 .word v :: rest ∧ decode (v ++ s.cmdLo) = .ok .clearStatus))

/-! ## The host window -/

/-- The values a host reads from the registers, field by field (spec/10_state.md R31). -/
def Obligations.HostReadsRegisters : Prop :=
  ∀ s : State, legal s.cfg = true →
    ReadsAs s 0x000 s.cmdLo ∧ ReadsAs s 0x004 s.cmdHi ∧ ReadsAs s 0x008 s.status ∧ ReadsAs s 0x00C s.result ∧
    (∃ v, ReadsAs s 0x010 v ∧ v.extractLsb' 0 8 = s.dirty.top ∧ v.extractLsb' 8 8 = s.dirty.left ∧
      v.extractLsb' 16 8 = s.dirty.right ∧ v.extractLsb' 24 8 = s.dirty.bottom) ∧
    (s.fontSel = none → ReadsAs s 0x014 0) ∧
    (∀ n, s.fontSel = some n → ∃ v, ReadsAs s 0x014 v ∧ v.getLsbD 0 = true ∧ v.extractLsb' 1 7 = 0 ∧
      v.extractLsb' 8 12 = n ∧ v.extractLsb' 20 12 = 0) ∧
    (∃ v, ReadsAs s 0x018 v ∧ (v.extractLsb' 0 16).toNat = s.cfg.W ∧ (v.extractLsb' 16 16).toNat = s.cfg.H) ∧
    (∃ v, ReadsAs s 0x01C v ∧ v.extractLsb' 0 7 = s.cfg.busAddr ∧ v.getLsbD 7 = false ∧
      (v.extractLsb' 8 8).toNat = s.cfg.colOffset ∧ v.extractLsb' 16 8 = s.cfg.comPins ∧ v.extractLsb' 24 8 = 0) ∧
    (∃ v, ReadsAs s 0x020 v ∧ (v.extractLsb' 0 12).toNat = s.cfg.fonts.length ∧ v.extractLsb' 12 20 = 0)

/-- An access to an address that is not decoded, or of a width or alignment the block does not perform: a read returns
0, a write does nothing, and no command is executed (spec/20_memory.md R52, R53, R54). -/
def Obligations.UndecodedAccessesDoNothing : Prop :=
  ∀ (s : State) (addr : BitVec 16) (width : Width) (v : Reg32) (rest : List HostAccess), legal s.cfg = true →
    ¬ (width = .word ∧ addr.toNat % 4 = 0 ∧ addr.toNat ≤ 0x0020) →
    ¬ (0x1000 ≤ addr.toNat ∧ addr.toNat ≤ 0x1FFF ∧ (width = .byte ∨ width = .word ∧ addr.toNat % 4 = 0)) →
    step { s with host := .read addr width :: rest } = .next { s with host := rest, reads := s.reads ++ [0] } ∧
    step { s with host := .write addr width v :: rest } = .next { s with host := rest }

/-- Writes that only store: CMD_LO, bytes and aligned little-endian words of STRMEM; and the read-only registers, which
ignore a write (spec/10_state.md R29, R30, R31; spec/20_memory.md R54, R56). That a byte write stores the low eight
bits of the 32-bit value is the model's choice (log 17). -/
def Obligations.HostWritesStore : Prop :=
  ∀ (s : State) (v : Reg32) (rest : List HostAccess), legal s.cfg = true →
    step { s with host := .write 0x0000 .word v :: rest } = .next { s with host := rest, cmdLo := v } ∧
    (∀ r ∈ [0x008#16, 0x00C#16, 0x010#16, 0x014#16, 0x018#16, 0x01C#16, 0x020#16],
      step { s with host := .write r .word v :: rest } = .next { s with host := rest }) ∧
    (∀ a, a < 4096 → ∃ m,
      step { s with host := .write (BitVec.ofNat 16 (0x1000 + a)) .byte v :: rest } =
        .next { s with host := rest, strmem := m } ∧
      strRead m a = some (v.extractLsb' 0 8) ∧ ∀ a', a' ≠ a → strRead m a' = strRead s.strmem a') ∧
    (∀ a, a < 4096 → a % 4 = 0 → ∃ m,
      step { s with host := .write (BitVec.ofNat 16 (0x1000 + a)) .word v :: rest } =
        .next { s with host := rest, strmem := m } ∧
      (∀ k, k < 4 → strRead m (a + k) = some (v.extractLsb' (8 * k) 8)) ∧
      ∀ a', a' < a ∨ a + 4 ≤ a' → strRead m a' = strRead s.strmem a')

/-- Reads of STRMEM return the bytes written, a word little-endian; and no read of any address has a side effect on the
block, a read of an unwritten byte among them, whose value is free (spec/20_memory.md R54, R56; spec/60_exceptions.md
R249). The count of free values (log 9) and that a byte read comes back extended with zeros (log 17) are the model's
choices. -/
def Obligations.HostReadsHaveNoSideEffect : Prop :=
  ∀ (s : State) (rest : List HostAccess), legal s.cfg = true →
    (∀ addr width, ∃ v d, step { s with host := .read addr width :: rest } =
      .next { s with host := rest, reads := s.reads ++ [v], draws := d }) ∧
    (∀ a b, a < 4096 → strRead s.strmem a = some b → ∃ v d,
      step { s with host := .read (BitVec.ofNat 16 (0x1000 + a)) .byte :: rest } =
        .next { s with host := rest, reads := s.reads ++ [v], draws := d } ∧ v.toNat = b.toNat) ∧
    (∀ a, a < 4096 → a % 4 = 0 → ∃ v d,
      step { s with host := .read (BitVec.ofNat 16 (0x1000 + a)) .word :: rest } =
        .next { s with host := rest, reads := s.reads ++ [v], draws := d } ∧
      ∀ k b, k < 4 → strRead s.strmem (a + k) = some b → v.extractLsb' (8 * k) 8 = b)

/-! ## Framebuffer and dirty rectangle -/

/-- What the colours do to the bits under a mask: Black clears, White sets, Invert flips, Transparent leaves; the bits
outside the mask stay (spec/40_framebuffer.md R110, R114). -/
def Obligations.ColoursActOnMaskedBits : Prop :=
  ∀ (b m : Byte) (k : Nat), k < 8 →
    (applyColour b m .black).getLsbD k = (if m.getLsbD k then false else b.getLsbD k) ∧
    (applyColour b m .white).getLsbD k = (if m.getLsbD k then true else b.getLsbD k) ∧
    (applyColour b m .invert).getLsbD k = (if m.getLsbD k then !b.getLsbD k else b.getLsbD k) ∧
    (applyColour b m .transparent).getLsbD k = b.getLsbD k

/-- A sequence of pixel steps of one colour at the positions `ps`: under Black, White and Transparent FB depends on the
set of panel positions alone; under Invert a pixel flips for each time it occurs; DIRTY becomes the smallest rectangle
around itself and those positions; the order does not matter (spec/40_framebuffer.md R117). -/
def Obligations.PlotsOfOneColour : Prop :=
  ∀ (c : Config) (colour : Colour) (ps qs : List (Int × Int)) (v : Canvas),
    legal c = true → Memory.wf fbUnlisted (fbBytes c) v.fb →
    (colour ≠ .invert → (∀ x y, inPanel c x y = true → ((x, y) ∈ ps ↔ (x, y) ∈ qs)) →
      plotAll c (inColour colour ps) v = plotAll c (inColour colour qs) v) ∧
    (∀ x y, inPanel c x y = true → pixel c (plotAll c (inColour .invert ps) v).fb x y =
      (pixel c v.fb x y ^^ decide (ps.count (x, y) % 2 = 1))) ∧
    GrowsTo c (fun x y => (x, y) ∈ ps) v.dirty (plotAll c (inColour colour ps) v).dirty ∧
    (ps.Perm qs → plotAll c (inColour colour ps) v = plotAll c (inColour colour qs) v)

/-- NOP is the all-zero word and leaves every state unchanged (spec/40_framebuffer.md R120). -/
def Obligations.NopChangesNothing : Prop :=
  (∀ w : CmdWord, decode w = .ok .nop ↔ w = 0) ∧ ∀ s : State, exec .nop s = .next s

/-- CLEAR zeroes every byte of FB, sets DIRTY to the full panel, and changes nothing else; a REFRESH that follows does
without FORCE what it does with it (spec/40_framebuffer.md R121). -/
def Obligations.ClearZeroesTheFramebuffer : Prop :=
  (∀ w : CmdWord, decode w = .ok .clear ↔ w = 0x0100000000000000) ∧
  ∀ s : State, legal s.cfg = true → ∃ fb dirty, exec .clear s = .next { s with fb := fb, dirty := dirty } ∧
    (∀ j, fbRead fb j = 0x00) ∧
    dirty.top.toNat = 0 ∧ dirty.left.toNat = 0 ∧ dirty.right.toNat = s.cfg.W - 1 ∧ dirty.bottom.toNat = s.cfg.H - 1 ∧
    exec (.refresh false) { s with fb := fb, dirty := dirty } = exec (.refresh true) { s with fb := fb, dirty := dirty }

/-- MARK_DIRTY takes the minimum and maximum of each bound with a panel point, ignores any other point, and writes
DIRTY only (spec/40_framebuffer.md R115, R122). -/
def Obligations.MarkDirtyGrowsByOnePoint : Prop :=
  ∀ (s : State) (x y : BitVec 12), legal s.cfg = true →
    ∃ dirty, exec (.markDirty x y) s = .next { s with dirty := dirty } ∧
      (0 ≤ x.toInt ∧ x.toInt < s.cfg.W ∧ 0 ≤ y.toInt ∧ y.toInt < s.cfg.H →
        (dirty.top.toNat : Int) = min (s.dirty.top.toNat : Int) y.toInt ∧
        (dirty.left.toNat : Int) = min (s.dirty.left.toNat : Int) x.toInt ∧
        (dirty.right.toNat : Int) = max (s.dirty.right.toNat : Int) x.toInt ∧
        (dirty.bottom.toNat : Int) = max (s.dirty.bottom.toNat : Int) y.toInt) ∧
      (¬ (0 ≤ x.toInt ∧ x.toInt < s.cfg.W ∧ 0 ≤ y.toInt ∧ y.toInt < s.cfg.H) → dirty = s.dirty)

/-- SET_PIXEL changes its own pixel as its colour says, where that lies in the panel, marks it, and changes nothing
else (spec/40_framebuffer.md R116, R123). -/
def Obligations.SetPixelPaintsOnePixel : Prop :=
  ∀ (s : State) (colour : Colour) (x y : BitVec 12), legal s.cfg = true →
    ∃ fb dirty, exec (.setPixel colour x y) s = .next { s with fb := fb, dirty := dirty } ∧
      Paints s.cfg (fun px py => px = x.toInt ∧ py = y.toInt) (fun _ _ b => colourBit colour b) s.fb fb ∧
      GrowsTo s.cfg (fun px py => px = x.toInt ∧ py = y.toInt) s.dirty dirty

/-- Off the panel SET_PIXEL leaves FB and DIRTY, and all else, unchanged (spec/40_framebuffer.md R124). -/
def Obligations.SetPixelOffPanelChangesNothing : Prop :=
  ∀ (s : State) (colour : Colour) (x y : BitVec 12),
    x.toInt < 0 ∨ (s.cfg.W : Int) ≤ x.toInt ∨ y.toInt < 0 ∨ (s.cfg.H : Int) ≤ y.toInt →
    exec (.setPixel colour x y) s = .next s

/-! ## Lines and rectangles -/

/-- DRAW_HLINE paints the panel part of `w` pixels of one row from `(x, y)`, marks them, and changes nothing else
(spec/41_primitives.md R140). -/
def Obligations.DrawHlinePaintsItsRow : Prop :=
  ∀ (s : State) (colour : Colour) (x y w : BitVec 12), legal s.cfg = true →
    ∃ fb dirty, exec (.drawHline colour x y w) s = .next { s with fb := fb, dirty := dirty } ∧
      Paints s.cfg (fun px py => x.toInt ≤ px ∧ px < x.toInt + w.toNat ∧ py = y.toInt)
        (fun _ _ b => colourBit colour b) s.fb fb ∧
      GrowsTo s.cfg (fun px py => x.toInt ≤ px ∧ px < x.toInt + w.toNat ∧ py = y.toInt) s.dirty dirty

/-- The byte-level form of DRAW_HLINE is equal to its pixel steps (spec/41_primitives.md R141). -/
def Obligations.HlineBytewiseEqualsPlots : Prop :=
  ∀ (c : Config) (colour : Colour) (x y w : Int) (v : Canvas), legal c = true →
    hlineBytes c colour x y w v = plotAll c (inColour colour (hlinePoints x y w)) v

/-- DRAW_VLINE paints the panel part of `h` pixels of one column from `(x, y)`, marks them, and changes nothing else
(spec/41_primitives.md R142). -/
def Obligations.DrawVlinePaintsItsColumn : Prop :=
  ∀ (s : State) (colour : Colour) (x y h : BitVec 12), legal s.cfg = true →
    ∃ fb dirty, exec (.drawVline colour x y h) s = .next { s with fb := fb, dirty := dirty } ∧
      Paints s.cfg (fun px py => px = x.toInt ∧ y.toInt ≤ py ∧ py < y.toInt + h.toNat)
        (fun _ _ b => colourBit colour b) s.fb fb ∧
      GrowsTo s.cfg (fun px py => px = x.toInt ∧ y.toInt ≤ py ∧ py < y.toInt + h.toNat) s.dirty dirty

/-- The byte-batched form of DRAW_VLINE leaves FB and DIRTY exactly as its pixel steps do, for every colour and every
span, partly or wholly off the panel too (spec/41_primitives.md R143, R144). -/
def Obligations.VlineBatchedEqualsPlots : Prop :=
  ∀ (c : Config) (colour : Colour) (x y h : Int) (v : Canvas),
    legal c = true → Memory.wf fbUnlisted (fbBytes c) v.fb →
    vlineBatched c colour x y h v = plotAll c (inColour colour (vlinePoints x y h)) v

/-- A white line and then the same line in black: the span is 0, every other bit is as it was, the original bytes are
restored exactly when the span was 0 before, and DIRTY keeps the marks; for both kinds of line
(spec/41_primitives.md R145). -/
def Obligations.WhiteThenBlackLine : Prop :=
  ∀ (s : State) (x y n : BitVec 12), legal s.cfg = true →
    ∀ (line : Colour → Instr) (span : Int → Int → Prop),
      (line = (fun c => .drawHline c x y n) ∧
          span = (fun px py => x.toInt ≤ px ∧ px < x.toInt + n.toNat ∧ py = y.toInt)) ∨
        (line = (fun c => .drawVline c x y n) ∧
          span = (fun px py => px = x.toInt ∧ y.toInt ≤ py ∧ py < y.toInt + n.toNat)) →
      ∃ t fb dirty, exec (line .white) s = .next t ∧ exec (line .black) t = .next { s with fb := fb, dirty := dirty } ∧
        Paints s.cfg span (fun _ _ _ => false) s.fb fb ∧
        ((∀ j, fbRead fb j = fbRead s.fb j) ↔
          ∀ px py, inPanel s.cfg px py = true → span px py → pixel s.cfg s.fb px py = false) ∧
        dirty = t.dirty ∧ GrowsTo s.cfg span s.dirty dirty

/-- How many of the four edges of DRAW_RECT hold a position: the top, bottom, left and right edge
(spec/41_primitives.md R146). -/
def Sys2Proof.edgeCount (x y w h px py : Int) : Nat :=
  (if x ≤ px ∧ px < x + w ∧ py = y then 1 else 0) + (if x ≤ px ∧ px < x + w ∧ py = y + h - 1 then 1 else 0) +
  (if px = x ∧ y ≤ py ∧ py < y + h then 1 else 0) + (if px = x + w - 1 ∧ y ≤ py ∧ py < y + h then 1 else 0)

/-- DRAW_RECT paints its edges: under Invert a pixel flips once for each edge that holds it, under the other colours the
edges take the colour; it marks them and changes nothing else; sizes 0 and 1 included (spec/41_primitives.md R146). -/
def Obligations.DrawRectPaintsItsBorder : Prop :=
  ∀ (s : State) (colour : Colour) (x y w h : BitVec 12), legal s.cfg = true →
    ∃ fb dirty, exec (.drawRect colour x y w h) s = .next { s with fb := fb, dirty := dirty } ∧
      Paints s.cfg (fun px py => 0 < edgeCount x.toInt y.toInt w.toNat h.toNat px py)
        (fun px py b =>
          if colour = .invert then b ^^ decide (edgeCount x.toInt y.toInt w.toNat h.toNat px py % 2 = 1)
          else colourBit colour b) s.fb fb ∧
      GrowsTo s.cfg (fun px py => 0 < edgeCount x.toInt y.toInt w.toNat h.toNat px py) s.dirty dirty

/-- For `w ≥ 2` and `h ≥ 2` DRAW_RECT plots each corner twice and every other border pixel once, so under Invert the
corners keep their bits and the rest of the border toggles (spec/41_primitives.md R147). -/
def Obligations.RectInvertKeepsCorners : Prop :=
  ∀ (x y w h : BitVec 12), 2 ≤ w.toNat → 2 ≤ h.toNat →
    ∀ corner border : Int → Int → Prop,
      corner = (fun px py => (px = x.toInt ∨ px = x.toInt + w.toNat - 1) ∧ (py = y.toInt ∨ py = y.toInt + h.toNat - 1)) →
      border = (fun px py => x.toInt ≤ px ∧ px < x.toInt + w.toNat ∧ y.toInt ≤ py ∧ py < y.toInt + h.toNat ∧
        (px = x.toInt ∨ px = x.toInt + w.toNat - 1 ∨ py = y.toInt ∨ py = y.toInt + h.toNat - 1)) →
      (∀ px py,
        (corner px py → (rectPoints x.toInt y.toInt w.toNat h.toNat).count (px, py) = 2) ∧
        (border px py → ¬ corner px py → (rectPoints x.toInt y.toInt w.toNat h.toNat).count (px, py) = 1) ∧
        (¬ border px py → (rectPoints x.toInt y.toInt w.toNat h.toNat).count (px, py) = 0)) ∧
      (∀ s : State, legal s.cfg = true → ∃ fb dirty,
        exec (.drawRect .invert x y w h) s = .next { s with fb := fb, dirty := dirty } ∧
        Paints s.cfg (fun px py => border px py ∧ ¬ corner px py) (fun _ _ b => !b) s.fb fb)

/-- FILL_RECT paints the panel part of the rectangle, each pixel once, marks it, and changes nothing else
(spec/41_primitives.md R148). -/
def Obligations.FillRectPaintsEachPixelOnce : Prop :=
  ∀ (s : State) (colour : Colour) (x y w h : BitVec 12), legal s.cfg = true →
    ∃ fb dirty, exec (.fillRect colour x y w h) s = .next { s with fb := fb, dirty := dirty } ∧
      Paints s.cfg (fun px py => x.toInt ≤ px ∧ px < x.toInt + w.toNat ∧ y.toInt ≤ py ∧ py < y.toInt + h.toNat)
        (fun _ _ b => colourBit colour b) s.fb fb ∧
      GrowsTo s.cfg (fun px py => x.toInt ≤ px ∧ px < x.toInt + w.toNat ∧ y.toInt ≤ py ∧ py < y.toInt + h.toNat)
        s.dirty dirty

/-! ## Circles -/

/-- The loop states of the circle commands are those of the recurrence from `(1, r, 1 − r)`, and the loop ends when its
condition first fails; the checkpoint of FILL_CIRCLE is the `a` it ends with; and no other run of the recurrence has
other loop states (spec/41_primitives.md R149, R150, R153; log 14, log 15). -/
def Obligations.CircleLoopFollowsTheRecurrence : Prop :=
  ∀ r : Nat,
    (∃ a b e n, CircleRun r a b e n ∧ circleStates r = (List.range n).map (fun i => (a i, b i)) ∧
      fillCheckpoint r = a n) ∧
    (∀ a b, LoopState r a b ↔ (a, b) ∈ circleStates r)

/-- DRAW_CIRCLE paints the panel part of its positions, each once, marks them, and changes nothing else: the cardinal
points, and of each state of the recurrence the four direct points and, off the diagonal, the four mirrored ones
(spec/41_primitives.md R149, R150, R151; the positions are the spec's own choice, log 14). -/
def Obligations.DrawCirclePaintsItsPoints : Prop :=
  ∀ (s : State) (colour : Colour) (x0 y0 r : BitVec 12), legal s.cfg = true →
    ∃ fb dirty, exec (.drawCircle colour x0 y0 r) s = .next { s with fb := fb, dirty := dirty } ∧
      Paints s.cfg (OnOutline x0.toInt y0.toInt r.toNat) (fun _ _ b => colourBit colour b) s.fb fb ∧
      GrowsTo s.cfg (OnOutline x0.toInt y0.toInt r.toNat) s.dirty dirty

/-- The list of the positions of DRAW_CIRCLE holds those of R150 and no others; for every radius from 1 it holds no
position twice; its positions span exactly the columns `x0 ± r` and the rows `y0 ± r`; and a circle in the panel
contributes that rectangle to DIRTY (spec/41_primitives.md R150, R151). -/
def Obligations.CirclePlotsNoPositionTwice : Prop :=
  ∀ (x0 y0 : Int) (r : Nat),
    (∀ px py, (px, py) ∈ circlePoints x0 y0 r ↔ OnOutline x0 y0 r px py) ∧
    (1 ≤ r →
      (circlePoints x0 y0 r).Nodup ∧
      (∀ px py, (px, py) ∈ circlePoints x0 y0 r → x0 - r ≤ px ∧ px ≤ x0 + r ∧ y0 - r ≤ py ∧ py ≤ y0 + r) ∧
      (∃ py, (x0 - r, py) ∈ circlePoints x0 y0 r) ∧ (∃ py, (x0 + r, py) ∈ circlePoints x0 y0 r) ∧
      (∃ px, (px, y0 - r) ∈ circlePoints x0 y0 r) ∧ (∃ px, (px, y0 + r) ∈ circlePoints x0 y0 r) ∧
      (∀ (c : Config) (colour : Colour) (v : Canvas), legal c = true →
        inPanel c (x0 - r) (y0 - r) = true → inPanel c (x0 + r) (y0 + r) = true → v.dirty = Dirty.sentinel →
        ∀ d, d = (plotAll c (inColour colour (circlePoints x0 y0 r)) v).dirty →
          (d.top.toNat : Int) = y0 - r ∧ (d.left.toNat : Int) = x0 - r ∧
          (d.right.toNat : Int) = x0 + r ∧ (d.bottom.toNat : Int) = y0 + r))

/-- FILL_CIRCLE paints the panel part of its positions, under Invert each one once, marks them, and changes nothing
else: the centre column, and the vertical spans of each state of the recurrence (spec/41_primitives.md R149, R153,
R154; the positions are the spec's own choice, log 14). -/
def Obligations.FillCirclePaintsItsPoints : Prop :=
  ∀ (s : State) (colour : Colour) (x0 y0 r : BitVec 12), legal s.cfg = true →
    ∃ fb dirty, exec (.fillCircle colour x0 y0 r) s = .next { s with fb := fb, dirty := dirty } ∧
      Paints s.cfg (InDisc x0.toInt y0.toInt r.toNat) (fun _ _ b => colourBit colour b) s.fb fb ∧
      GrowsTo s.cfg (InDisc x0.toInt y0.toInt r.toNat) s.dirty dirty

/-- The two passes of FILL_CIRCLE under Invert: no position is plotted twice, the positions are exactly those of White,
and both are the spans of R153; the DIRTY the two leave is the same, no width of pass 2 is negative, and a circle in
the panel contributes its bounding square to DIRTY; for every radius, where the spec's own check stops at 127
(spec/41_primitives.md R153, R154). -/
def Obligations.FillCircleInvertFillsTheSameSet : Prop :=
  ∀ (x0 y0 : Int) (r : Nat),
    (fillCirclePoints x0 y0 r .invert).Nodup ∧
    (∀ px py, (px, py) ∈ fillCirclePoints x0 y0 r .invert ↔ (px, py) ∈ fillCirclePoints x0 y0 r .white) ∧
    (∀ px py, (px, py) ∈ fillCirclePoints x0 y0 r .white ↔ InDisc x0 y0 r px py) ∧
    (1 ≤ r → 0 ≤ r - fillCheckpoint r + 1 ∧ ∀ y x, LoopState r y x → 0 ≤ x - fillCheckpoint r + 1) ∧
    (∀ (c : Config) (v : Canvas), legal c = true →
      (plotAll c (inColour .invert (fillCirclePoints x0 y0 r .invert)) v).dirty =
        (plotAll c (inColour .white (fillCirclePoints x0 y0 r .white)) v).dirty) ∧
    (∀ (c : Config) (v : Canvas), legal c = true → 1 ≤ r →
      inPanel c (x0 - r) (y0 - r) = true → inPanel c (x0 + r) (y0 + r) = true → v.dirty = Dirty.sentinel →
      ∀ d, d = (plotAll c (inColour .invert (fillCirclePoints x0 y0 r .invert)) v).dirty →
        (d.top.toNat : Int) = y0 - r ∧ (d.left.toNat : Int) = x0 - r ∧
        (d.right.toNat : Int) = x0 + r ∧ (d.bottom.toNat : Int) = y0 + r)

/-- The smallest circles: radius 0 draws nothing; radius 1 outlines the eight neighbours of the centre and fills the
three by three square, under every colour (spec/41_primitives.md R150, R153). -/
def Obligations.SmallestCircles : Prop :=
  ∀ (s : State) (colour : Colour) (x0 y0 : BitVec 12), legal s.cfg = true →
    exec (.drawCircle colour x0 y0 0) s = .next s ∧ exec (.fillCircle colour x0 y0 0) s = .next s ∧
    (∃ fb dirty, exec (.drawCircle colour x0 y0 1) s = .next { s with fb := fb, dirty := dirty } ∧
      Paints s.cfg (fun px py => x0.toInt - 1 ≤ px ∧ px ≤ x0.toInt + 1 ∧ y0.toInt - 1 ≤ py ∧ py ≤ y0.toInt + 1 ∧
        ¬ (px = x0.toInt ∧ py = y0.toInt)) (fun _ _ b => colourBit colour b) s.fb fb) ∧
    (∃ fb dirty, exec (.fillCircle colour x0 y0 1) s = .next { s with fb := fb, dirty := dirty } ∧
      Paints s.cfg (fun px py => x0.toInt - 1 ≤ px ∧ px ≤ x0.toInt + 1 ∧ y0.toInt - 1 ≤ py ∧ py ≤ y0.toInt + 1)
        (fun _ _ b => colourBit colour b) s.fb fb)

/-! ## Text -/

/-- SELECT_FONT, with its id in the field P, takes an id of the font table and ignores any other (spec/42_text.md
R175). -/
def Obligations.SelectFontTakesValidIds : Prop :=
  ∀ (s : State) (id : BitVec 12),
    decode (0x20#8 ++ 0#32 ++ id ++ 0#12) = .ok (.selectFont id) ∧
    (id.toNat < s.cfg.fonts.length → exec (.selectFont id) s = .next { s with fontSel := some id }) ∧
    (s.cfg.fonts.length ≤ id.toNat → exec (.selectFont id) s = .next s)

/-- DRAW_CHAR with an active font paints the glyph's cell in foreground and background, marks what it plots, writes the
glyph's width to RESULT, and changes nothing else (spec/42_text.md R173, R174, R176, R177). -/
def Obligations.DrawCharPaintsItsGlyph : Prop :=
  ∀ (s : State) (f : Font) (fg bg : Colour) (x y : BitVec 12) (code : Byte),
    legal s.cfg = true → Active s f →
    ∃ fb dirty result,
      exec (.drawChar fg bg x y code) s = .next { s with fb := fb, dirty := dirty, result := result } ∧
      (∃ d, Describes f code.toNat d ∧ result.toNat = d.width) ∧
      PaintsText s.cfg f [code] x.toInt y.toInt fg bg s.fb fb ∧
      GrowsTo s.cfg (TextPlots f [code] x.toInt y.toInt bg) s.dirty dirty

/-- DRAW_CHAR of a code outside the font's range does exactly what it does for the space (spec/42_text.md R178). -/
def Obligations.DrawCharSubstitutesSpace : Prop :=
  ∀ (s : State) (f : Font) (fg bg : Colour) (x y : BitVec 12) (code : Byte),
    Active s f → code.toNat < f.charStart ∨ f.charEnd < code.toNat →
    exec (.drawChar fg bg x y code) s = exec (.drawChar fg bg x y 0x20) s

/-- An Invert background is treated like a Transparent one: neither changes nor marks a background pixel
(spec/42_text.md R179). -/
def Obligations.InvertBackgroundIsTransparent : Prop :=
  (∀ (s : State) (fg : Colour) (x y : BitVec 12) (code : Byte),
    exec (.drawChar fg .invert x y code) s = exec (.drawChar fg .transparent x y code) s) ∧
  (∀ (s : State) (fg : Colour) (null : Bool) (x y a : BitVec 12),
    exec (.drawStringColor fg .invert null x y a) s = exec (.drawStringColor fg .transparent null x y a) s) ∧
  (∀ (s : State) (f : Font) (fg : Colour) (x y : BitVec 12) (code : Byte), legal s.cfg = true → Active s f →
    ∃ fb dirty result,
      exec (.drawChar fg .invert x y code) s = .next { s with fb := fb, dirty := dirty, result := result } ∧
      (∀ px py, inPanel s.cfg px py = true → TextShows f [code] x.toInt y.toInt px py false →
        pixel s.cfg fb px py = pixel s.cfg s.fb px py) ∧
      GrowsTo s.cfg (fun px py => TextShows f [code] x.toInt y.toInt px py true) s.dirty dirty)

/-- With no active font, and with the null string, the text commands write 0 to RESULT and nothing else
(spec/42_text.md R177, R182, R184, R185). -/
def Obligations.NoFontOrNullStringGivesZero : Prop :=
  ∀ (s : State) (fg bg : Colour) (null : Bool) (x y a : BitVec 12) (code : Byte),
    (s.fontSel = none → exec (.drawChar fg bg x y code) s = .next { s with result := 0 }) ∧
    (s.fontSel = none ∨ null = true →
      exec (.drawStringColor fg bg null x y a) s = .next { s with result := 0 } ∧
      exec (.drawString null x y a) s = .next { s with result := 0 } ∧
      exec (.measureString null a) s = .next { s with result := 0 })

/-- DRAW_STRING_COLOR of a terminated string paints its characters one after another, marks what it plots, writes the
advance to RESULT, and changes nothing else (spec/42_text.md R180, R181, R182, R183). -/
def Obligations.DrawStringColorPaintsItsText : Prop :=
  ∀ (s : State) (f : Font) (fg bg : Colour) (x y a : BitVec 12) (bytes : List Byte),
    legal s.cfg = true → Active s f → StringAt s.strmem a.toNat bytes →
    ∃ fb dirty result,
      exec (.drawStringColor fg bg false x y a) s = .next { s with fb := fb, dirty := dirty, result := result } ∧
      result.toNat = advance f bytes ∧
      PaintsText s.cfg f bytes x.toInt y.toInt fg bg s.fb fb ∧
      GrowsTo s.cfg (TextPlots f bytes x.toInt y.toInt bg) s.dirty dirty

/-- DRAW_STRING is DRAW_STRING_COLOR with White on Transparent: alike in every state, and of a terminated string it
lights the set glyph bits, marks them alone, and writes the advance to RESULT (spec/42_text.md R184). -/
def Obligations.DrawStringIsWhiteOnTransparent : Prop :=
  (∀ (s : State) (null : Bool) (x y a : BitVec 12),
    exec (.drawString null x y a) s = exec (.drawStringColor .white .transparent null x y a) s) ∧
  (∀ (s : State) (f : Font) (x y a : BitVec 12) (bytes : List Byte),
    legal s.cfg = true → Active s f → StringAt s.strmem a.toNat bytes →
    ∃ fb dirty result,
      exec (.drawString false x y a) s = .next { s with fb := fb, dirty := dirty, result := result } ∧
      result.toNat = advance f bytes ∧
      Paints s.cfg (fun px py => TextShows f bytes x.toInt y.toInt px py true) (fun _ _ _ => true) s.fb fb ∧
      GrowsTo s.cfg (fun px py => TextShows f bytes x.toInt y.toInt px py true) s.dirty dirty)

/-- MEASURE_STRING of a terminated string writes its advance to RESULT and nothing else (spec/42_text.md R185). -/
def Obligations.MeasureStringWritesOnlyResult : Prop :=
  ∀ (s : State) (f : Font) (a : BitVec 12) (bytes : List Byte),
    legal s.cfg = true → Active s f → StringAt s.strmem a.toNat bytes →
    ∃ result, exec (.measureString false a) s = .next { s with result := result } ∧ result.toNat = advance f bytes

/-- MEASURE_STRING leaves the same RESULT as the two string draws, at any position, in any colours, with or without a
font, for the null string too, and it goes on exactly where they do: 0 with no font or the null string, else the
advance of the string (spec/42_text.md R186). -/
def Obligations.MeasureEqualsDraw : Prop :=
  ∀ (s : State) (fg bg : Colour) (null : Bool) (x y a : BitVec 12),
    ∀ draw, draw = Instr.drawStringColor fg bg null x y a ∨ draw = Instr.drawString null x y a →
      (∀ t, exec (.measureString null a) s = .next t →
        ∃ u, exec draw s = .next u ∧ u.result = t.result ∧ u.status = t.status) ∧
      (∀ u, exec draw s = .next u →
        ∃ t, exec (.measureString null a) s = .next t ∧ t.result = u.result ∧ t.status = u.status) ∧
      (s.fontSel = none ∨ null = true → ∃ u, exec draw s = .next u ∧ u.result = 0) ∧
      (∀ f bytes, legal s.cfg = true → Active s f → null = false → StringAt s.strmem a.toNat bytes →
        ∃ u, exec draw s = .next u ∧ u.result.toNat = advance f bytes)

/-- The advance of a string: 0 for the empty one; else the last character's offset and its width, with the spacing after
every character but the last; and it is below 2²¹ (spec/42_text.md R181, R183). -/
def Obligations.AdvanceEndsAtTheLastCharacter : Prop :=
  ∀ (f : Font) (bytes : List Byte), WellFormedFont f →
    advance f [] = 0 ∧
    (∀ last, advance f (bytes ++ [last]) = cursor f (bytes ++ [last]) bytes.length + glyphWidth f last.toNat) ∧
    cursor f bytes 0 = 0 ∧
    (∀ k b, bytes[k]? = some b → cursor f bytes (k + 1) = cursor f bytes k + glyphWidth f b.toNat + f.spacing) ∧
    (bytes.length ≤ 4095 → advance f bytes < 2 ^ 21) ∧
    (∀ code : Byte, Describes f code.toNat ⟨glyphWidth f code.toNat, (glyphOf f code.toNat).offset⟩)

/-- A string command whose scan meets a STRMEM byte the host never wrote, before any 0x00, stops with that byte's
address (spec/70_reset_and_hazards.md R265; spec/60_exceptions.md R249). -/
def Obligations.UnwrittenStringByteFaults : Prop :=
  ∀ (s : State) (f : Font) (fg bg : Colour) (x y a : BitVec 12) (k : Nat),
    Active s f → a.toNat ≤ k → k < 4096 → strRead s.strmem k = none →
    (∀ j, a.toNat ≤ j → j < k → ∃ b, strRead s.strmem j = some b ∧ b ≠ 0x00#8) →
    exec (.drawStringColor fg bg false x y a) s = .fault (.uninitStrmem k) ∧
    exec (.drawString false x y a) s = .fault (.uninitStrmem k) ∧
    exec (.measureString false a) s = .fault (.uninitStrmem k)

/-! ## The bus -/

/-- REFRESH with FORCE, or with DIRTY the whole panel: the two windows of the whole panel, then all bytes of FB in one
burst; DIRTY is then the sentinel, STATUS as before or with a failed transaction recorded, and nothing else changes
(spec/43_refresh.md R204, R206, R209, R210). -/
def Obligations.RefreshSendsTheFullFrame : Prop :=
  ∀ (s : State) (force : Bool), StateInv s → force = true ∨ CoversPanel s.cfg s.dirty → answered 7 s →
    ∃ (status : Reg32) (draws : Nat) (c0 c1 p0 p1 : Byte) (bytes : List Byte),
      exec (.refresh force) s = .next { s with
        dirty := ⟨0xFF, 0xFF, 0x00, 0x00⟩, status := status, draws := draws, answers := s.answers.drop 7,
        trace := s.trace ++
          ([s.cfg.opcColwin, c0, c1, s.cfg.opcPagewin, p0, p1].map (.command s.cfg.busAddr s.cfg.regCmd)
            ++ [.data s.cfg.busAddr s.cfg.regData bytes]) } ∧
      c0.toNat = s.cfg.colOffset ∧ c1.toNat = s.cfg.colOffset + s.cfg.W - 1 ∧
      p0.toNat = 0 ∧ p1.toNat = s.cfg.H / 8 - 1 ∧
      bytes.length = s.cfg.W * s.cfg.H / 8 ∧ (∀ k, k < s.cfg.W * s.cfg.H / 8 → bytes[k]? = some (fbRead s.fb k)) ∧
      (status = s.status ∨ Records 2 4 s.status status)

/-- REFRESH without FORCE, with DIRTY neither empty nor the whole panel: the windows of its columns and pages, then for
each of its pages one burst of its columns; DIRTY is then the sentinel, STATUS as before or with a failed transaction
recorded, and nothing else changes (spec/43_refresh.md R204, R207, R209, R210). -/
def Obligations.RefreshSendsTheDirtyPages : Prop :=
  ∀ (s : State) (ps n w : Nat), StateInv s → ¬ CoversPanel s.cfg s.dirty → s.dirty.isEmpty = false →
    ps = s.dirty.top.toNat / 8 → n = s.dirty.bottom.toNat / 8 + 1 - ps →
    w = s.dirty.right.toNat + 1 - s.dirty.left.toNat → answered (6 + n) s →
    ∃ (status : Reg32) (draws : Nat) (c0 c1 p0 p1 : Byte) (bursts : List (List Byte)),
      exec (.refresh false) s = .next { s with
        dirty := ⟨0xFF, 0xFF, 0x00, 0x00⟩, status := status, draws := draws, answers := s.answers.drop (6 + n),
        trace := s.trace ++
          ([s.cfg.opcColwin, c0, c1, s.cfg.opcPagewin, p0, p1].map (.command s.cfg.busAddr s.cfg.regCmd)
            ++ bursts.map (.data s.cfg.busAddr s.cfg.regData)) } ∧
      c0.toNat = s.cfg.colOffset + s.dirty.left.toNat ∧ c1.toNat = s.cfg.colOffset + s.dirty.right.toNat ∧
      p0.toNat = ps ∧ p1.toNat = s.dirty.bottom.toNat / 8 ∧ p1.toNat < s.cfg.H / 8 ∧
      bursts.length = n ∧
      (∀ p, p < n → ∃ bytes, bursts[p]? = some bytes ∧ bytes.length = w ∧
        ∀ k, k < w → bytes[k]? = some (fbRead s.fb (s.dirty.left.toNat + k + (ps + p) * s.cfg.W)) ∧
          s.dirty.left.toNat + k + (ps + p) * s.cfg.W < s.cfg.W * s.cfg.H / 8) ∧
      (status = s.status ∨ Records 2 4 s.status status)

/-- Without FORCE an empty DIRTY sends nothing, so a second REFRESH in a row changes nothing; and right after CLEAR a
REFRESH does without FORCE what it does with it (spec/43_refresh.md R208, R211). -/
def Obligations.RefreshOfNothingAndAfterClear : Prop :=
  (∀ s : State, legal s.cfg = true → s.dirty.isEmpty = true →
    exec (.refresh false) s = .next { s with dirty := ⟨0xFF, 0xFF, 0x00, 0x00⟩ }) ∧
  (∀ (s t : State) (force : Bool), legal s.cfg = true → exec (.refresh force) s = .next t →
    exec (.refresh false) t = .next t) ∧
  (∀ s : State, ∃ t, exec .clear s = .next t ∧ exec (.refresh false) t = exec (.refresh true) t)

/-- A REFRESH that ends leaves DIRTY the sentinel, whatever the answers; and no other command empties a DIRTY that is
not empty (spec/43_refresh.md R209). -/
def Obligations.OnlyRefreshEmptiesDirty : Prop :=
  (∀ (s t : State) (force : Bool), exec (.refresh force) s = .next t → t.dirty = ⟨0xFF, 0xFF, 0x00, 0x00⟩) ∧
  (∀ (i : Instr) (s t : State), legal s.cfg = true → exec i s = .next t → (∀ force, i ≠ .refresh force) →
    s.dirty.isEmpty = false → t.dirty.isEmpty = false)

/-- SEND_CMD1 sends its byte and SEND_CMD2 its two bytes, the second whatever the first answer; STATUS is as before or
has a failed transaction recorded, and nothing else changes (spec/43_refresh.md R212, R213). -/
def Obligations.SendCommandsSendTheirBytes : Prop :=
  ∀ (s : State) (b v : Byte),
    (answered 1 s → ∃ status draws, exec (.sendCmd1 b) s = .next { s with
        status := status, draws := draws, answers := s.answers.drop 1,
        trace := s.trace ++ [.command s.cfg.busAddr s.cfg.regCmd b] } ∧
      (status = s.status ∨ Records 2 4 s.status status)) ∧
    (answered 2 s → ∃ status draws, exec (.sendCmd2 b v) s = .next { s with
        status := status, draws := draws, answers := s.answers.drop 2,
        trace := s.trace ++
          [.command s.cfg.busAddr s.cfg.regCmd b, .command s.cfg.busAddr s.cfg.regCmd v] } ∧
      (status = s.status ∨ Records 2 4 s.status status))

/-- Where the answers are given, STATUS after a command that uses the bus is as before if they are all ok, and has
ERR_BUS set and LAST_ERR 4 as soon as one is fail (spec/43_refresh.md R202; spec/60_exceptions.md R233, R235). -/
def Obligations.FailedTransactionsAreRecorded : Prop :=
  ∀ (i : Instr) (s t : State) (n : Nat), i.op ∈ [Op.refresh, Op.sendCmd1, Op.sendCmd2] → exec i s = .next t →
    t.trace.length = s.trace.length + n → n ≤ s.answers.length →
    ((∀ a ∈ s.answers.take n, a = .ok) → t.status = s.status) ∧
    (BusAnswer.fail ∈ s.answers.take n → Records 2 4 s.status t.status)

/-- A transaction that is never answered leaves the engine stuck inside its command (spec/70_reset_and_hazards.md R266;
the stuck state is a fault of the model, log 6). -/
def Obligations.UnansweredTransactionIsStuck : Prop :=
  ∀ (s : State) (b v : Byte) (force : Bool),
    (¬ answered 1 s → exec (.sendCmd1 b) s = .fault .transportStuck) ∧
    (¬ answered 2 s → exec (.sendCmd2 b v) s = .fault .transportStuck) ∧
    (StateInv s → force = true ∨ CoversPanel s.cfg s.dirty → ¬ answered 7 s →
      exec (.refresh force) s = .fault .transportStuck) ∧
    (StateInv s → ¬ CoversPanel s.cfg s.dirty → s.dirty.isEmpty = false →
      ¬ answered (6 + (s.dirty.bottom.toNat / 8 + 1 - s.dirty.top.toNat / 8)) s →
      exec (.refresh false) s = .fault .transportStuck)

/-- No answer of the transport changes what the block sends or does: two runs of any length that differ only in the
answers, STATUS, the values read so far and the count of free values end in states that differ only there; and in
each step of the two, a host read returns the same byte in both, except of STATUS and of a STRMEM byte nothing has
written, and any other access returns nothing (spec/43_refresh.md R202; spec/60_exceptions.md R236, R249). -/
def Obligations.AnswersChangeOnlyStatus : Prop :=
  (∀ (n : Nat) (s s' t t' : State), SameButAnswers s s' → core.run n s = .next t → core.run n s' = .next t' →
    SameButAnswers t t') ∧
  (∀ s s' t t' : State, SameButAnswers s s' → step s = .next t → step s' = .next t' →
    (∀ addr width rest, s.host = .read addr width :: rest →
      ∃ v v' : Reg32, t.reads = s.reads ++ [v] ∧ t'.reads = s'.reads ++ [v'] ∧
        ∀ k, k < 4 → ¬ FreeReadByte s addr width k → v.extractLsb' (8 * k) 8 = v'.extractLsb' (8 * k) 8) ∧
    ((∀ addr width rest, s.host ≠ .read addr width :: rest) → t.reads = s.reads ∧ t'.reads = s'.reads))

end Statements
end

