-- ==== Sys2Proof/Laws/State.lean ====
section
/-! SUPPORT. One lemma per field per update of the state, so that no later proof unfolds a record update. -/

namespace Sys2Proof.Machine

@[simp] theorem canvas_fb (s : State) : s.canvas.fb = s.fb := rfl
@[simp] theorem canvas_dirty (s : State) : s.canvas.dirty = s.dirty := rfl
@[simp] theorem withCanvas_canvas (s : State) : s.withCanvas s.canvas = s := rfl

@[simp] theorem withCanvas_cfg (s : State) (v : Canvas) : (s.withCanvas v).cfg = s.cfg := rfl
@[simp] theorem withCanvas_fb (s : State) (v : Canvas) : (s.withCanvas v).fb = v.fb := rfl
@[simp] theorem withCanvas_dirty (s : State) (v : Canvas) : (s.withCanvas v).dirty = v.dirty := rfl
@[simp] theorem withCanvas_fontSel (s : State) (v : Canvas) : (s.withCanvas v).fontSel = s.fontSel := rfl
@[simp] theorem withCanvas_status (s : State) (v : Canvas) : (s.withCanvas v).status = s.status := rfl
@[simp] theorem withCanvas_result (s : State) (v : Canvas) : (s.withCanvas v).result = s.result := rfl
@[simp] theorem withCanvas_cmdLo (s : State) (v : Canvas) : (s.withCanvas v).cmdLo = s.cmdLo := rfl
@[simp] theorem withCanvas_cmdHi (s : State) (v : Canvas) : (s.withCanvas v).cmdHi = s.cmdHi := rfl
@[simp] theorem withCanvas_strmem (s : State) (v : Canvas) : (s.withCanvas v).strmem = s.strmem := rfl
@[simp] theorem withCanvas_host (s : State) (v : Canvas) : (s.withCanvas v).host = s.host := rfl
@[simp] theorem withCanvas_answers (s : State) (v : Canvas) : (s.withCanvas v).answers = s.answers := rfl
@[simp] theorem withCanvas_trace (s : State) (v : Canvas) : (s.withCanvas v).trace = s.trace := rfl
@[simp] theorem withCanvas_reads (s : State) (v : Canvas) : (s.withCanvas v).reads = s.reads := rfl
@[simp] theorem withCanvas_draws (s : State) (v : Canvas) : (s.withCanvas v).draws = s.draws := rfl

@[simp] theorem draw_cfg (s : State) (ps : List PlotCall) : (draw ps s).cfg = s.cfg := rfl
@[simp] theorem draw_fb (s : State) (ps : List PlotCall) : (draw ps s).fb = (plotAll s.cfg ps s.canvas).fb := rfl
@[simp] theorem draw_dirty (s : State) (ps : List PlotCall) : (draw ps s).dirty = (plotAll s.cfg ps s.canvas).dirty := rfl
@[simp] theorem draw_fontSel (s : State) (ps : List PlotCall) : (draw ps s).fontSel = s.fontSel := rfl
@[simp] theorem draw_status (s : State) (ps : List PlotCall) : (draw ps s).status = s.status := rfl
@[simp] theorem draw_result (s : State) (ps : List PlotCall) : (draw ps s).result = s.result := rfl
@[simp] theorem draw_cmdLo (s : State) (ps : List PlotCall) : (draw ps s).cmdLo = s.cmdLo := rfl
@[simp] theorem draw_cmdHi (s : State) (ps : List PlotCall) : (draw ps s).cmdHi = s.cmdHi := rfl
@[simp] theorem draw_strmem (s : State) (ps : List PlotCall) : (draw ps s).strmem = s.strmem := rfl
@[simp] theorem draw_host (s : State) (ps : List PlotCall) : (draw ps s).host = s.host := rfl
@[simp] theorem draw_answers (s : State) (ps : List PlotCall) : (draw ps s).answers = s.answers := rfl
@[simp] theorem draw_trace (s : State) (ps : List PlotCall) : (draw ps s).trace = s.trace := rfl
@[simp] theorem draw_reads (s : State) (ps : List PlotCall) : (draw ps s).reads = s.reads := rfl
@[simp] theorem draw_draws (s : State) (ps : List PlotCall) : (draw ps s).draws = s.draws := rfl

@[simp] theorem setResult_cfg (s : State) (v : Nat) : (setResult v s).cfg = s.cfg := rfl
@[simp] theorem setResult_fb (s : State) (v : Nat) : (setResult v s).fb = s.fb := rfl
@[simp] theorem setResult_dirty (s : State) (v : Nat) : (setResult v s).dirty = s.dirty := rfl
@[simp] theorem setResult_fontSel (s : State) (v : Nat) : (setResult v s).fontSel = s.fontSel := rfl
@[simp] theorem setResult_status (s : State) (v : Nat) : (setResult v s).status = s.status := rfl
@[simp] theorem setResult_result (s : State) (v : Nat) : (setResult v s).result = BitVec.ofNat 32 v := rfl
@[simp] theorem setResult_cmdLo (s : State) (v : Nat) : (setResult v s).cmdLo = s.cmdLo := rfl
@[simp] theorem setResult_cmdHi (s : State) (v : Nat) : (setResult v s).cmdHi = s.cmdHi := rfl
@[simp] theorem setResult_strmem (s : State) (v : Nat) : (setResult v s).strmem = s.strmem := rfl
@[simp] theorem setResult_host (s : State) (v : Nat) : (setResult v s).host = s.host := rfl
@[simp] theorem setResult_answers (s : State) (v : Nat) : (setResult v s).answers = s.answers := rfl
@[simp] theorem setResult_trace (s : State) (v : Nat) : (setResult v s).trace = s.trace := rfl
@[simp] theorem setResult_reads (s : State) (v : Nat) : (setResult v s).reads = s.reads := rfl
@[simp] theorem setResult_draws (s : State) (v : Nat) : (setResult v s).draws = s.draws := rfl

@[simp] theorem raiseErr_cfg (s : State) (e : ErrCode) : (raiseErr e s).cfg = s.cfg := rfl
@[simp] theorem raiseErr_fb (s : State) (e : ErrCode) : (raiseErr e s).fb = s.fb := rfl
@[simp] theorem raiseErr_dirty (s : State) (e : ErrCode) : (raiseErr e s).dirty = s.dirty := rfl
@[simp] theorem raiseErr_fontSel (s : State) (e : ErrCode) : (raiseErr e s).fontSel = s.fontSel := rfl
@[simp] theorem raiseErr_status (s : State) (e : ErrCode) : (raiseErr e s).status = statusAfter e s.status := rfl
@[simp] theorem raiseErr_result (s : State) (e : ErrCode) : (raiseErr e s).result = s.result := rfl
@[simp] theorem raiseErr_cmdLo (s : State) (e : ErrCode) : (raiseErr e s).cmdLo = s.cmdLo := rfl
@[simp] theorem raiseErr_cmdHi (s : State) (e : ErrCode) : (raiseErr e s).cmdHi = s.cmdHi := rfl
@[simp] theorem raiseErr_strmem (s : State) (e : ErrCode) : (raiseErr e s).strmem = s.strmem := rfl
@[simp] theorem raiseErr_host (s : State) (e : ErrCode) : (raiseErr e s).host = s.host := rfl
@[simp] theorem raiseErr_answers (s : State) (e : ErrCode) : (raiseErr e s).answers = s.answers := rfl
@[simp] theorem raiseErr_trace (s : State) (e : ErrCode) : (raiseErr e s).trace = s.trace := rfl
@[simp] theorem raiseErr_reads (s : State) (e : ErrCode) : (raiseErr e s).reads = s.reads := rfl
@[simp] theorem raiseErr_draws (s : State) (e : ErrCode) : (raiseErr e s).draws = s.draws := rfl

@[simp] theorem clearErrors_cfg (s : State) : (clearErrors s).cfg = s.cfg := rfl
@[simp] theorem clearErrors_fb (s : State) : (clearErrors s).fb = s.fb := rfl
@[simp] theorem clearErrors_dirty (s : State) : (clearErrors s).dirty = s.dirty := rfl
@[simp] theorem clearErrors_fontSel (s : State) : (clearErrors s).fontSel = s.fontSel := rfl
@[simp] theorem clearErrors_status (s : State) : (clearErrors s).status = 0 := rfl
@[simp] theorem clearErrors_result (s : State) : (clearErrors s).result = s.result := rfl
@[simp] theorem clearErrors_cmdLo (s : State) : (clearErrors s).cmdLo = s.cmdLo := rfl
@[simp] theorem clearErrors_cmdHi (s : State) : (clearErrors s).cmdHi = s.cmdHi := rfl
@[simp] theorem clearErrors_strmem (s : State) : (clearErrors s).strmem = s.strmem := rfl
@[simp] theorem clearErrors_host (s : State) : (clearErrors s).host = s.host := rfl
@[simp] theorem clearErrors_answers (s : State) : (clearErrors s).answers = s.answers := rfl
@[simp] theorem clearErrors_trace (s : State) : (clearErrors s).trace = s.trace := rfl
@[simp] theorem clearErrors_reads (s : State) : (clearErrors s).reads = s.reads := rfl
@[simp] theorem clearErrors_draws (s : State) : (clearErrors s).draws = s.draws := rfl

@[simp] theorem emptyDirty_cfg (s : State) : (emptyDirty s).cfg = s.cfg := rfl
@[simp] theorem emptyDirty_fb (s : State) : (emptyDirty s).fb = s.fb := rfl
@[simp] theorem emptyDirty_dirty (s : State) : (emptyDirty s).dirty = Dirty.sentinel := rfl
@[simp] theorem emptyDirty_fontSel (s : State) : (emptyDirty s).fontSel = s.fontSel := rfl
@[simp] theorem emptyDirty_status (s : State) : (emptyDirty s).status = s.status := rfl
@[simp] theorem emptyDirty_result (s : State) : (emptyDirty s).result = s.result := rfl
@[simp] theorem emptyDirty_cmdLo (s : State) : (emptyDirty s).cmdLo = s.cmdLo := rfl
@[simp] theorem emptyDirty_cmdHi (s : State) : (emptyDirty s).cmdHi = s.cmdHi := rfl
@[simp] theorem emptyDirty_strmem (s : State) : (emptyDirty s).strmem = s.strmem := rfl
@[simp] theorem emptyDirty_host (s : State) : (emptyDirty s).host = s.host := rfl
@[simp] theorem emptyDirty_answers (s : State) : (emptyDirty s).answers = s.answers := rfl
@[simp] theorem emptyDirty_trace (s : State) : (emptyDirty s).trace = s.trace := rfl
@[simp] theorem emptyDirty_reads (s : State) : (emptyDirty s).reads = s.reads := rfl
@[simp] theorem emptyDirty_draws (s : State) : (emptyDirty s).draws = s.draws := rfl

@[simp] theorem resetBlock_cfg (s : State) : (resetBlock s).cfg = s.cfg := rfl
@[simp] theorem resetBlock_fb (s : State) : (resetBlock s).fb = [] := rfl
@[simp] theorem resetBlock_dirty (s : State) : (resetBlock s).dirty = Dirty.sentinel := rfl
@[simp] theorem resetBlock_fontSel (s : State) : (resetBlock s).fontSel = none := rfl
@[simp] theorem resetBlock_status (s : State) : (resetBlock s).status = 0 := rfl
@[simp] theorem resetBlock_result (s : State) : (resetBlock s).result = 0 := rfl
@[simp] theorem resetBlock_cmdLo (s : State) : (resetBlock s).cmdLo = 0 := rfl
@[simp] theorem resetBlock_cmdHi (s : State) : (resetBlock s).cmdHi = 0 := rfl
@[simp] theorem resetBlock_strmem (s : State) : (resetBlock s).strmem = [] := rfl
@[simp] theorem resetBlock_host (s : State) : (resetBlock s).host = s.host := rfl
@[simp] theorem resetBlock_answers (s : State) : (resetBlock s).answers = s.answers := rfl
@[simp] theorem resetBlock_trace (s : State) : (resetBlock s).trace = s.trace := rfl
@[simp] theorem resetBlock_reads (s : State) : (resetBlock s).reads = s.reads := rfl
@[simp] theorem resetBlock_draws (s : State) : (resetBlock s).draws = s.draws := rfl

/-- Drawing changes FB and DIRTY and nothing else. -/
theorem draw_frame (ps : List PlotCall) (s : State) :
    draw ps s = { s with fb := (draw ps s).fb, dirty := (draw ps s).dirty } := rfl

/-- Drawing nothing changes nothing. -/
theorem draw_nil (s : State) : draw [] s = s := rfl

end Sys2Proof.Machine
end

