-- ==== Sys2Proof/Laws/Status.lean ====
section
/-! SUPPORT. The bits of STATUS after an error, and that every update of STATUS keeps it as the spec allows it. -/

namespace Sys2Proof.Machine

/-- An error sets its own sticky bit (spec/60_exceptions.md R230). -/
theorem sticky_statusAfter (e : ErrCode) (st : Reg32) : (statusAfter e st).getLsbD e.stickyBit = true := by
  cases e <;> simp [statusAfter, ErrCode.stickyBit, ErrCode.code]

/-- An error records its code in LAST_ERR (spec/60_exceptions.md R232, R235). -/
theorem lastErr_statusAfter (e : ErrCode) (st : Reg32) : lastErr (statusAfter e st) = e.code := by
  apply BitVec.eq_of_getLsbD_eq
  intro i hi
  have h4 : i = 0 ∨ i = 1 ∨ i = 2 ∨ i = 3 := by omega
  cases e <;> rcases h4 with rfl | rfl | rfl | rfl <;>
    simp [lastErr, statusAfter, ErrCode.stickyBit, ErrCode.code]

/-- Outside its sticky bit and LAST_ERR an error leaves every bit of STATUS as it was. -/
theorem other_bit_statusAfter (e : ErrCode) (st : Reg32) {i : Nat} (h : i ≠ e.stickyBit) (hlo : i < 8 ∨ 12 ≤ i) :
    (statusAfter e st).getLsbD i = st.getLsbD i := by
  by_cases hi : i < 32
  · have hcode : (e.code.zeroExtend 32 <<< 8 : Reg32).getLsbD i = false := by
      rcases hlo with hlo | hlo
      · simp [hlo]
      · have : ¬ i - 8 < 4 := by omega
        simp [BitVec.getLsbD_setWidth, BitVec.getLsbD_of_ge _ _ (show 4 ≤ i - 8 by omega)]
    have hmask : (~~~0xF00#32).getLsbD i = true := by
      have : i < 8 ∨ 12 ≤ i := hlo
      interval_cases i <;> first | rfl | omega
    have hone : (1#32 <<< e.stickyBit).getLsbD i = false := by
      have h3 : e.stickyBit ≤ 2 := by cases e <;> decide
      interval_cases hs : e.stickyBit <;> interval_cases i <;> first | rfl | omega
    unfold statusAfter
    rw [BitVec.getLsbD_or, BitVec.getLsbD_and, BitVec.getLsbD_or, hcode, hmask, hone]
    simp
  · rw [BitVec.getLsbD_of_ge _ _ (by omega), BitVec.getLsbD_of_ge _ _ (by omega)]

/-- A sticky bit that is set stays set through any error. -/
theorem sticky_stays (e : ErrCode) (st : Reg32) {i : Nat} (hi : i < 8) (h : st.getLsbD i = true) :
    (statusAfter e st).getLsbD i = true := by
  by_cases he : i = e.stickyBit
  · rw [he]; exact sticky_statusAfter e st
  · rw [other_bit_statusAfter e st he (.inl hi)]; exact h

end Sys2Proof.Machine

namespace Sys2Proof

open Machine

/-- The reserved bits of STATUS read 0, bit by bit. -/
theorem reserved_iff (st : Reg32) :
    st &&& statusReserved = 0 ↔ ∀ i, (3 ≤ i ∧ i < 8 ∨ 12 ≤ i) → st.getLsbD i = false := by
  constructor
  · intro h i hi
    by_cases h32 : i < 32
    · have hb := congrArg (fun v : Reg32 => v.getLsbD i) h
      simp only [BitVec.getLsbD_and] at hb
      have hm : statusReserved.getLsbD i = true := by
        interval_cases i <;> first | rfl | omega
      simpa [hm] using hb
    · exact BitVec.getLsbD_of_ge _ _ (by omega)
  · intro h
    apply BitVec.eq_of_getLsbD_eq
    intro i hi
    simp only [BitVec.getLsbD_and]
    by_cases hr : 3 ≤ i ∧ i < 8 ∨ 12 ≤ i
    · simp [h i hr]
    · have hm : statusReserved.getLsbD i = false := by
        interval_cases i <;> first | rfl | omega
      simp [hm]

/-- STATUS is as the spec allows it after reset and after CLEAR_STATUS. -/
theorem statusOk_zero : statusOk 0 := by
  refine ⟨by decide, by decide, by decide⟩

/-- Every error leaves STATUS as the spec allows it. -/
theorem statusOk_statusAfter (e : ErrCode) {st : Reg32} (h : statusOk st) : statusOk (statusAfter e st) := by
  refine ⟨(reserved_iff _).2 fun i hi => ?_, ?_, ?_⟩
  · rw [other_bit_statusAfter e st (by cases e <;> simp [ErrCode.stickyBit] <;> omega) (by omega)]
    exact (reserved_iff st).1 h.1 i hi
  · rw [lastErr_statusAfter]
    cases e <;> decide
  · rw [lastErr_statusAfter]
    have hs := sticky_statusAfter e st
    cases e <;> simp_all [ErrCode.code, ErrCode.stickyBit, errIllegal, errString, errBus]

end Sys2Proof
end

