-- ==== Sys2Proof/Laws/Bus.lean ====
section
/-! SUPPORT. What issuing transactions can do: the records join the trace in order, one answer is taken for each, only
STATUS depends on the answers, and a transaction never answered is stuck. -/

namespace Sys2Proof.Machine

/-- Everything one transaction can do when it is answered (spec/43_refresh.md R202). -/
theorem issue_cases {r : BusRecord} {s t : State} (h : issue r s = .next t) :
    ∃ ok d, t = { s with
      trace := s.trace ++ [r],
      answers := s.answers.drop 1,
      draws := d,
      status := statusAfterAnswer ok s.status } := by
  unfold issue at h
  split at h
  · rename_i ha
    cases h
    exact ⟨Config.freeAnswer s.draws, s.draws + 1, by simp [ha]⟩
  · rename_i ha
    cases h
    exact ⟨true, s.draws, by simp [ha, statusAfterAnswer]⟩
  · rename_i ha
    cases h
    exact ⟨false, s.draws, by simp [ha, statusAfterAnswer]⟩
  · cases h

/-- A transaction is answered unless the next answer is `never` (spec/70_reset_and_hazards.md R266). -/
theorem issue_next {r : BusRecord} {s : State} (h : s.answers.head? ≠ some .never) : ∃ t, issue r s = .next t := by
  unfold issue
  split <;> simp_all

theorem issue_stuck {r : BusRecord} {s : State} (h : s.answers.head? = some .never) :
    issue r s = .fault .transportStuck := by
  unfold issue
  split <;> simp_all

/-- Everything a sequence of transactions can do when all are answered. -/
theorem issueAll_cases {rs : List BusRecord} {s t : State} (h : issueAll rs s = .next t) :
    t = { s with
      trace := s.trace ++ rs, answers := s.answers.drop rs.length, draws := t.draws, status := t.status } := by
  induction rs generalizing s with
  | nil =>
    simp only [issueAll] at h
    cases h
    simp
  | cons r rs ih =>
    simp only [issueAll] at h
    split at h
    · rename_i u hu
      obtain ⟨ok, d, rfl⟩ := issue_cases hu
      have ht := ih h
      rw [ht]
      simp
    · cases h
    · cases h

theorem issueAll_append (rs qs : List BusRecord) (s : State) :
    issueAll (rs ++ qs) s =
      match issueAll rs s with
      | .next t => issueAll qs t
      | .fault f => .fault f
      | .refused x => .refused x := by
  induction rs generalizing s with
  | nil => rfl
  | cons r rs ih =>
    simp only [List.cons_append, issueAll]
    cases issue r s with
    | next t => exact ih t
    | fault f => rfl
    | refused x => rfl

/-- All transactions are answered where no `never` covers one of them (spec/70_reset_and_hazards.md R269). -/
theorem issueAll_next {rs : List BusRecord} {s : State} (h : answered rs.length s) : ∃ t, issueAll rs s = .next t := by
  induction rs generalizing s with
  | nil => exact ⟨s, rfl⟩
  | cons r rs ih =>
    have hhead : s.answers.head? ≠ some .never := by
      intro hn
      apply h
      cases ha : s.answers with
      | nil => simp [ha] at hn
      | cons a as => simp_all
    obtain ⟨u, hu⟩ := issue_next (r := r) hhead
    have hrest : answered rs.length u := by
      obtain ⟨ok, d, rfl⟩ := issue_cases hu
      intro hn
      apply h
      cases ha : s.answers with
      | nil => simp [ha] at hn
      | cons a as =>
        simp only [ha, List.drop_succ_cons, List.drop_zero] at hn
        simp [hn]
    obtain ⟨t, ht⟩ := ih hrest
    exact ⟨t, by simp [issueAll, hu, ht]⟩

/-- A `never` that covers one of the transactions leaves the engine stuck (spec/70_reset_and_hazards.md R266). -/
theorem issueAll_stuck {rs : List BusRecord} {s : State} (h : ¬ answered rs.length s) :
    issueAll rs s = .fault .transportStuck := by
  induction rs generalizing s with
  | nil => exact absurd (show answered 0 s by simp [answered]) h
  | cons r rs ih =>
    by_cases hhead : s.answers.head? = some .never
    · simp [issueAll, issue_stuck hhead]
    · obtain ⟨u, hu⟩ := issue_next (r := r) hhead
      have hrest : ¬ answered rs.length u := by
        obtain ⟨ok, d, rfl⟩ := issue_cases hu
        intro hn
        apply h
        intro hm
        apply hn
        cases ha : s.answers with
        | nil => simp [ha] at hm
        | cons a as =>
          simp only [ha, List.length_cons, List.take_succ_cons, List.mem_cons] at hm
          rcases hm with hm | hm
          · simp [ha, ← hm] at hhead
          · simpa using hm
      simp [issueAll, hu, ih hrest]

theorem statusOk_issueAll {rs : List BusRecord} {s t : State} (h : issueAll rs s = .next t) (hs : statusOk s.status) :
    statusOk t.status := by
  induction rs generalizing s with
  | nil =>
    simp only [issueAll] at h
    cases h
    exact hs
  | cons r rs ih =>
    simp only [issueAll] at h
    split at h
    · rename_i u hu
      obtain ⟨ok, d, rfl⟩ := issue_cases hu
      refine ih h ?_
      cases ok
      · exact statusOk_statusAfter _ hs
      · exact hs
    · cases h
    · cases h

/-- No answer clears a sticky bit (spec/60_exceptions.md R235). -/
theorem sticky_issueAll {rs : List BusRecord} {s t : State} (h : issueAll rs s = .next t) {i : Nat} (hi : i < 8)
    (hs : s.status.getLsbD i = true) : t.status.getLsbD i = true := by
  induction rs generalizing s with
  | nil =>
    simp only [issueAll] at h
    cases h
    exact hs
  | cons r rs ih =>
    simp only [issueAll] at h
    split at h
    · rename_i u hu
      obtain ⟨ok, d, rfl⟩ := issue_cases hu
      refine ih h ?_
      cases ok
      · exact sticky_stays _ _ hi hs
      · exact hs
    · cases h
    · cases h

/-- Everything a refresh can do once its transactions are known (spec/43_refresh.md R209). -/
theorem sendAndEmpty_cases {rs : List BusRecord} {s t : State} (h : sendAndEmpty rs s = .next t) :
    ∃ u, issueAll rs s = .next u ∧ t = emptyDirty u := by
  unfold sendAndEmpty at h
  split at h
  · rename_i u hu
    cases h
    exact ⟨u, hu, rfl⟩
  · cases h
  · cases h

end Sys2Proof.Machine
end

