-- ==== Sys2Proof/Laws/Memory.lean ====
section
/-! SUPPORT. The laws of memory: what a byte reads as after a write, and that every operation keeps the canonical
form, in which equal reads mean equal memories. -/

namespace Sys2Proof.Machine

/-! ## Listing and unlisting -/

@[simp] theorem find_nil (a : Nat) : Memory.find [] a = none := rfl

theorem find_put_same (m : Memory) (a : Nat) (b : Byte) : (m.put a b).find a = some b := by
  induction m with
  | nil => simp [Memory.put, Memory.find]
  | cons c m ih =>
    obtain ⟨k, v⟩ := c
    simp only [Memory.put]
    split
    · simp [Memory.find]
    · split
      · simp [Memory.find]
      · rename_i h
        simp [Memory.find, ih, Ne.symm h]

theorem find_put_other (m : Memory) {a a' : Nat} (b : Byte) (h : a' ≠ a) : (m.put a b).find a' = m.find a' := by
  induction m with
  | nil => simp [Memory.put, Memory.find, h.symm]
  | cons c m ih =>
    obtain ⟨k, v⟩ := c
    simp only [Memory.put]
    split
    · simp [Memory.find, h.symm]
    · split
      · rename_i hk
        subst hk
        simp [Memory.find, h.symm]
      · simp [Memory.find, ih]

theorem find_drop_same (m : Memory) (a : Nat) : (m.drop a).find a = none := by
  induction m with
  | nil => rfl
  | cons c m ih =>
    obtain ⟨k, v⟩ := c
    by_cases hk : k = a
    · subst hk
      simpa [Memory.drop] using ih
    · simpa [Memory.drop, Memory.find, hk] using ih

theorem find_drop_other (m : Memory) {a a' : Nat} (h : a' ≠ a) : (m.drop a).find a' = m.find a' := by
  induction m with
  | nil => rfl
  | cons c m ih =>
    obtain ⟨k, v⟩ := c
    by_cases hk : k = a
    · subst hk
      simpa [Memory.drop, Memory.find, h.symm] using ih
    · have ih' : Memory.find (List.filter (fun c => c.1 != a) m) a' = Memory.find m a' := ih
      simp [Memory.drop, Memory.find, hk, ih']

/-! ## Reading after writing -/

theorem get_set_same (u : Option Byte) (m : Memory) (a : Nat) (b : Byte) : (m.set u a b).get u a = some b := by
  by_cases hb : some b = u
  · simp [Memory.set, Memory.get, hb, find_drop_same]
  · simp [Memory.set, Memory.get, hb, find_put_same]

theorem get_set_other (u : Option Byte) (m : Memory) {a a' : Nat} (b : Byte) (h : a' ≠ a) :
    (m.set u a b).get u a' = m.get u a' := by
  by_cases hb : some b = u
  · simp [Memory.set, Memory.get, hb, find_drop_other m h]
  · simp [Memory.set, Memory.get, hb, find_put_other m b h]

/-- FB: a byte reads as it was last written. -/
@[simp] theorem fbRead_fbWrite_same (fb : Memory) (i : Nat) (v : Byte) : fbRead (fbWrite fb i v) i = v := by
  simp [fbRead, fbWrite, get_set_same]

/-- FB: a write leaves every other byte alone. -/
theorem fbRead_fbWrite_other (fb : Memory) {i j : Nat} (v : Byte) (h : j ≠ i) :
    fbRead (fbWrite fb i v) j = fbRead fb j := by
  simp [fbRead, fbWrite, get_set_other _ _ _ h]

theorem fbRead_fbWrite (fb : Memory) (i j : Nat) (v : Byte) :
    fbRead (fbWrite fb i v) j = if j = i then v else fbRead fb j := by
  split
  · subst_vars; simp
  · rename_i h; exact fbRead_fbWrite_other fb v h

/-- The empty FB is all zero (spec/10_state.md R23). -/
@[simp] theorem fbRead_nil (i : Nat) : fbRead [] i = 0 := rfl

/-- STRMEM: a byte reads as the host last wrote it. -/
@[simp] theorem strRead_strWrite_same (m : Memory) (a : Nat) (v : Byte) : strRead (strWrite m a v) a = some v :=
  get_set_same _ _ _ _

/-- STRMEM: a write leaves every other byte alone. -/
theorem strRead_strWrite_other (m : Memory) {a a' : Nat} (v : Byte) (h : a' ≠ a) :
    strRead (strWrite m a v) a' = strRead m a' :=
  get_set_other _ _ _ h

@[simp] theorem strRead_nil (a : Nat) : strRead [] a = none := rfl

/-! ## The canonical form -/

theorem mem_put {m : Memory} {a : Nat} {b : Byte} {c : Host.Cell} (h : c ∈ m.put a b) : c = (a, b) ∨ c ∈ m := by
  induction m with
  | nil => simpa [Memory.put] using h
  | cons d m ih =>
    obtain ⟨k, v⟩ := d
    simp only [Memory.put] at h
    split at h
    · simpa using h
    · split at h
      · rcases List.mem_cons.1 h with h | h
        · exact .inl h
        · exact .inr (List.mem_cons_of_mem _ h)
      · rcases List.mem_cons.1 h with h | h
        · exact .inr (by simp [h])
        · exact (ih h).imp id (List.mem_cons_of_mem _)

theorem rising_put {m : Memory} (a : Nat) (b : Byte) (h : m.Pairwise (fun p q => p.1 < q.1)) :
    (m.put a b).Pairwise (fun p q => p.1 < q.1) := by
  induction m with
  | nil => simp [Memory.put]
  | cons c m ih =>
    obtain ⟨k, v⟩ := c
    have hm := List.pairwise_cons.1 h
    simp only [Memory.put]
    split
    · rename_i hk
      refine List.pairwise_cons.2 ⟨?_, h⟩
      intro d hd
      rcases List.mem_cons.1 hd with rfl | hd
      · exact hk
      · exact lt_trans hk (hm.1 d hd)
    · split
      · rename_i hk
        subst hk
        exact List.pairwise_cons.2 ⟨hm.1, hm.2⟩
      · refine List.pairwise_cons.2 ⟨?_, ih hm.2⟩
        intro d hd
        rcases mem_put hd with rfl | hd
        · show k < a
          omega
        · exact hm.1 d hd

theorem wf_nil (u : Option Byte) (n : Nat) : Memory.wf u n [] := by simp [Memory.wf]

/-- A write inside the address space keeps the canonical form. -/
theorem wf_set {u : Option Byte} {n : Nat} {m : Memory} {a : Nat} (b : Byte) (h : Memory.wf u n m) (ha : a < n) :
    Memory.wf u n (m.set u a b) := by
  unfold Memory.set
  split
  · exact ⟨h.1.filter _, fun c hc => h.2 c (List.mem_filter.1 hc).1⟩
  · rename_i hb
    refine ⟨rising_put a b h.1, fun c hc => ?_⟩
    rcases mem_put hc with rfl | hc
    · exact ⟨ha, hb⟩
    · exact h.2 c hc

theorem wf_fbWrite {n : Nat} {fb : Memory} {i : Nat} (v : Byte) (h : Memory.wf fbUnlisted n fb) (hi : i < n) :
    Memory.wf fbUnlisted n (fbWrite fb i v) := wf_set v h hi

theorem wf_strWrite {m : Memory} {a : Nat} (v : Byte) (h : Memory.wf strUnlisted strBytes m) (ha : a < strBytes) :
    Memory.wf strUnlisted strBytes (strWrite m a v) := wf_set v h ha

theorem find_eq_none_of_lt {m : Memory} {a : Nat} (h : ∀ c ∈ m, a < c.1) : m.find a = none := by
  induction m with
  | nil => rfl
  | cons c m ih =>
    obtain ⟨k, v⟩ := c
    have hk : k ≠ a := Nat.ne_of_gt (h (k, v) (by simp))
    simpa [Memory.find, hk] using ih fun c hc => h c (List.mem_cons_of_mem _ hc)

theorem mem_of_find {m : Memory} {a : Nat} {b : Byte} (h : m.find a = some b) : (a, b) ∈ m := by
  induction m with
  | nil => simp at h
  | cons c m ih =>
    obtain ⟨k, v⟩ := c
    by_cases hk : k = a
    · simp_all [Memory.find]
    · simp only [Memory.find, hk, if_false] at h
      exact List.mem_cons_of_mem _ (ih h)

/-- Two canonical memories that list the same bytes are the same list. -/
theorem eq_of_find_eq {m m' : Memory} (h : m.Pairwise (fun p q => p.1 < q.1))
    (h' : m'.Pairwise (fun p q => p.1 < q.1)) (hf : ∀ a, m.find a = m'.find a) : m = m' := by
  induction m generalizing m' with
  | nil =>
    cases m' with
    | nil => rfl
    | cons c m' => simpa [Memory.find] using hf c.1
  | cons c m ih =>
    obtain ⟨k, v⟩ := c
    cases m' with
    | nil => simpa [Memory.find] using hf k
    | cons c' m' =>
      obtain ⟨k', v'⟩ := c'
      have hm := List.pairwise_cons.1 h
      have hm' := List.pairwise_cons.1 h'
      have hle : k ≤ k' := by
        by_contra hlt
        have hn : Memory.find ((k, v) :: m) k' = none := find_eq_none_of_lt (by
          intro d hd
          rcases List.mem_cons.1 hd with rfl | hd
          · simpa using hlt
          · exact lt_trans (by simpa using hlt) (hm.1 d hd))
        rw [hf k'] at hn
        simp [Memory.find] at hn
      have hge : k' ≤ k := by
        by_contra hlt
        have hn : Memory.find ((k', v') :: m') k = none := find_eq_none_of_lt (by
          intro d hd
          rcases List.mem_cons.1 hd with rfl | hd
          · simpa using hlt
          · exact lt_trans (by simpa using hlt) (hm'.1 d hd))
        rw [← hf k] at hn
        simp [Memory.find] at hn
      obtain rfl : k = k' := le_antisymm hle hge
      obtain rfl : v = v' := by simpa [Memory.find] using hf k
      congr 1
      refine ih hm.2 hm'.2 fun a => ?_
      by_cases ha : k = a
      · subst ha
        rw [find_eq_none_of_lt hm.1, find_eq_none_of_lt hm'.1]
      · simpa [Memory.find, ha] using hf a

/-- Two canonical memories with the same reads are the same list. -/
theorem eq_of_get_eq {u : Option Byte} {n : Nat} {m m' : Memory} (h : Memory.wf u n m) (h' : Memory.wf u n m')
    (hg : ∀ a, m.get u a = m'.get u a) : m = m' := by
  refine eq_of_find_eq h.1 h'.1 fun a => ?_
  have ha := hg a
  unfold Memory.get at ha
  cases hf : m.find a with
  | none =>
    cases hf' : m'.find a with
    | none => rfl
    | some b => simp [hf, hf'] at ha; exact absurd ha.symm (h'.2 _ (mem_of_find hf')).2
  | some b =>
    cases hf' : m'.find a with
    | none => simp [hf, hf'] at ha; exact absurd ha (h.2 _ (mem_of_find hf)).2
    | some b' => simpa [hf, hf'] using ha

/-- Two canonical framebuffers with the same bytes are the same list. -/
theorem fb_ext {n : Nat} {fb fb' : Memory} (h : Memory.wf fbUnlisted n fb) (h' : Memory.wf fbUnlisted n fb')
    (hr : ∀ i, fbRead fb i = fbRead fb' i) : fb = fb' := by
  refine eq_of_get_eq h h' fun a => ?_
  have ha := hr a
  unfold fbRead Memory.get fbUnlisted at *
  cases hf : fb.find a <;> cases hf' : fb'.find a <;> simp_all

end Sys2Proof.Machine
end

