-- ==== Sys2Proof/Laws/Canvas.lean ====
section
/-! SUPPORT. What the pixel step and a sequence of pixel steps do: to a pixel, to a byte of FB, to DIRTY, and to the
canonical form. -/

namespace Sys2Proof.Machine

/-! ## The panel -/

theorem inPanel_iff (c : Config) (x y : Int) :
    inPanel c x y = true ↔ (0 ≤ x ∧ x < c.W) ∧ (0 ≤ y ∧ y < c.H) := by
  simp only [inPanel, Bool.and_eq_true, decide_eq_true_eq]
  tauto

/-- The ranges of a legal configuration (spec/00_scope.md R8). -/
theorem legal_ranges {c : Config} (h : legal c = true) :
    1 ≤ c.W ∧ c.W ≤ 256 ∧ c.colOffset + c.W ≤ 256 ∧ 8 ≤ c.H ∧ c.H ≤ 256 ∧ c.H % 8 = 0 ∧ numFonts c ≤ 4095 := by
  simp only [legal, Bool.and_eq_true, decide_eq_true_eq] at h
  tauto

/-- The byte of a panel point lies inside FB (spec/40_framebuffer.md R112). -/
theorem idx_lt_fbBytes {c : Config} (hc : legal c = true) {x y : Int} (h : inPanel c x y = true) :
    idx c x y < fbBytes c := by
  obtain ⟨hW, -, -, -, -, h8, -⟩ := legal_ranges hc
  obtain ⟨⟨hx0, hx⟩, hy0, hy⟩ := (inPanel_iff c x y).1 h
  obtain ⟨k, hk⟩ : ∃ k, c.H = 8 * k := ⟨c.H / 8, by omega⟩
  have hyk : y.toNat / 8 + 1 ≤ k := by omega
  have hfb : fbBytes c = k * c.W := by
    unfold fbBytes
    rw [hk, show c.W * (8 * k) = 8 * (k * c.W) by ring]
    omega
  have := Nat.mul_le_mul_right c.W hyk
  have hxW : x.toNat < c.W := by omega
  rw [hfb, idx]
  nlinarith

/-- Two panel points share byte and bit only if they are the same point. -/
theorem idx_inj {c : Config} {x y x' y' : Int} (h : inPanel c x y = true) (h' : inPanel c x' y' = true)
    (hi : idx c x y = idx c x' y') (hb : y.toNat % 8 = y'.toNat % 8) : x = x' ∧ y = y' := by
  obtain ⟨⟨hx0, hx⟩, hy0, hy⟩ := (inPanel_iff c x y).1 h
  obtain ⟨⟨hx0', hx'⟩, hy0', hy'⟩ := (inPanel_iff c x' y').1 h'
  have hl : x.toNat < c.W := by omega
  have hl' : x'.toNat < c.W := by omega
  unfold idx at hi
  have hd : y.toNat / 8 = y'.toNat / 8 := by
    have h1 := congrArg (· / c.W) hi
    simpa [Nat.add_mul_div_right _ _ (show 0 < c.W by omega), Nat.div_eq_of_lt hl, Nat.div_eq_of_lt hl'] using h1
  rw [hd] at hi
  omega

/-! ## One bit of one byte -/

/-- A colour under a one-bit mask changes that bit as R110 says and no other (spec/40_framebuffer.md R114). -/
theorem applyColour_bit (b : Byte) (colour : Colour) {k j : Nat} (hk : k < 8) (hj : j < 8) :
    (applyColour b (1#8 <<< k) colour).getLsbD j =
      if j = k then colourBit colour (b.getLsbD j) else b.getLsbD j := by
  have hone : (1#8 <<< k).getLsbD j = decide (j = k) := by
    interval_cases k <;> interval_cases j <;> rfl
  by_cases h : j = k
  · subst h
    cases colour <;> simp [applyColour, colourBit, hj]
  · have hone' : (1#8 <<< k).getLsbD j = false := by simpa [h] using hone
    cases colour <;>
      simp only [applyColour, BitVec.getLsbD_and, BitVec.getLsbD_or, BitVec.getLsbD_xor, BitVec.getLsbD_not,
        hone', h, hj, if_false] <;> simp

/-! ## The pixel step -/

theorem plot_off {c : Config} {p : PlotCall} (h : inPanel c p.x p.y = false) (v : Canvas) : plot c p v = v := by
  simp [plot, h]

/-- A pixel step changes its own pixel as its colour says, and no other (spec/40_framebuffer.md R116). -/
theorem pixel_plot (c : Config) (p : PlotCall) (v : Canvas) {x y : Int} (h : inPanel c x y = true) :
    pixel c (plot c p v).fb x y =
      if p.x = x ∧ p.y = y then colourBit p.colour (pixel c v.fb x y) else pixel c v.fb x y := by
  by_cases hp : inPanel c p.x p.y = true
  · simp only [plot, hp, if_true, pixel, fbRead_fbWrite]
    by_cases hi : idx c x y = idx c p.x p.y
    · simp only [hi, if_true, bitMask]
      rw [applyColour_bit _ _ (Nat.mod_lt _ (by decide)) (Nat.mod_lt _ (by decide))]
      by_cases hb : y.toNat % 8 = p.y.toNat % 8
      · obtain ⟨rfl, rfl⟩ := idx_inj h hp hi hb
        simp
      · have : ¬ (p.x = x ∧ p.y = y) := by rintro ⟨-, rfl⟩; exact hb rfl
        simp [hb, this]
    · have : ¬ (p.x = x ∧ p.y = y) := by rintro ⟨rfl, rfl⟩; exact hi rfl
      simp [hi, this]
  · have hp' : inPanel c p.x p.y = false := by simpa using hp
    rw [plot_off hp']
    have : ¬ (p.x = x ∧ p.y = y) := by rintro ⟨rfl, rfl⟩; exact hp h
    simp [this]

/-- A pixel step leaves every byte but the one of its point as it was. -/
theorem fbRead_plot_other (c : Config) (p : PlotCall) (v : Canvas) {j : Nat}
    (h : inPanel c p.x p.y = true → idx c p.x p.y ≠ j) : fbRead (plot c p v).fb j = fbRead v.fb j := by
  by_cases hp : inPanel c p.x p.y = true
  · simp only [plot, hp, if_true]
    exact fbRead_fbWrite_other _ _ (h hp).symm
  · rw [plot_off (by simpa using hp)]

theorem plot_dirty (c : Config) (p : PlotCall) (v : Canvas) : (plot c p v).dirty = mark c p.x p.y v.dirty := by
  unfold plot
  split
  · rfl
  · simp [mark, *]

/-- A pixel step keeps the canonical form of FB. -/
theorem wf_plot {c : Config} (hc : legal c = true) (p : PlotCall) {v : Canvas}
    (h : Memory.wf fbUnlisted (fbBytes c) v.fb) : Memory.wf fbUnlisted (fbBytes c) (plot c p v).fb := by
  unfold plot
  split
  · rename_i hp
    exact wf_fbWrite _ h (idx_lt_fbBytes hc hp)
  · exact h

/-! ## Sequences of pixel steps -/

/-- What a sequence of pixel steps does to one pixel: the colours of the steps at that position, in order. -/
theorem pixel_plotAll (c : Config) (ps : List PlotCall) (v : Canvas) {x y : Int} (h : inPanel c x y = true) :
    pixel c (plotAll c ps v).fb x y =
      (ps.filter fun p => decide (p.x = x ∧ p.y = y)).foldl (fun b p => colourBit p.colour b) (pixel c v.fb x y) := by
  induction ps generalizing v with
  | nil => rfl
  | cons p ps ih =>
    rw [plotAll, ih, pixel_plot c p v h]
    by_cases hp : p.x = x ∧ p.y = y <;> simp [hp]

theorem fbRead_plotAll_other (c : Config) (ps : List PlotCall) (v : Canvas) {j : Nat}
    (h : ∀ p ∈ ps, inPanel c p.x p.y = true → idx c p.x p.y ≠ j) : fbRead (plotAll c ps v).fb j = fbRead v.fb j := by
  induction ps generalizing v with
  | nil => rfl
  | cons p ps ih =>
    rw [plotAll, ih _ fun q hq => h q (List.mem_cons_of_mem _ hq),
      fbRead_plot_other c p v (h p (by simp))]

theorem plotAll_append (c : Config) (ps qs : List PlotCall) (v : Canvas) :
    plotAll c (ps ++ qs) v = plotAll c qs (plotAll c ps v) := by
  induction ps generalizing v with
  | nil => rfl
  | cons p ps ih => exact ih _

/-- DIRTY depends on the positions alone (spec/40_framebuffer.md R117). -/
theorem plotAll_dirty (c : Config) (ps : List PlotCall) (v : Canvas) :
    (plotAll c ps v).dirty = ps.foldl (fun d p => mark c p.x p.y d) v.dirty := by
  induction ps generalizing v with
  | nil => rfl
  | cons p ps ih => rw [plotAll, ih, plot_dirty]; rfl

/-- A sequence of pixel steps keeps the canonical form of FB. -/
theorem wf_plotAll {c : Config} (hc : legal c = true) (ps : List PlotCall) {v : Canvas}
    (h : Memory.wf fbUnlisted (fbBytes c) v.fb) : Memory.wf fbUnlisted (fbBytes c) (plotAll c ps v).fb := by
  induction ps generalizing v with
  | nil => exact h
  | cons p ps ih => exact ih (wf_plot hc p h)

/-! ## The dirty rectangle -/

/-- `Mark` at a panel point: minimum and maximum of each bound with the point, exactly (spec/40_framebuffer.md R115). -/
theorem mark_bounds {c : Config} (hc : legal c = true) {x y : Int} (h : inPanel c x y = true) (d : Dirty) :
    (mark c x y d).top.toNat = min d.top.toNat y.toNat ∧ (mark c x y d).left.toNat = min d.left.toNat x.toNat ∧
      (mark c x y d).right.toNat = max d.right.toNat x.toNat ∧
      (mark c x y d).bottom.toNat = max d.bottom.toNat y.toNat := by
  obtain ⟨-, hW, -, -, hH, -, -⟩ := legal_ranges hc
  obtain ⟨⟨hx0, hx⟩, hy0, hy⟩ := (inPanel_iff c x y).1 h
  have ht := d.top.isLt
  have hl := d.left.isLt
  have hr := d.right.isLt
  have hb := d.bottom.isLt
  simp only [mark, h, if_true, Dirty.grow, BitVec.toNat_ofNat]
  refine ⟨Nat.mod_eq_of_lt ?_, Nat.mod_eq_of_lt ?_, Nat.mod_eq_of_lt ?_, Nat.mod_eq_of_lt ?_⟩ <;> omega

theorem mark_off {c : Config} {x y : Int} (h : inPanel c x y = false) (d : Dirty) : mark c x y d = d := by
  simp [mark, h]

/-- `Mark` keeps DIRTY in the panel or empty (spec/10_state.md R25). -/
theorem dirtyOk_mark {c : Config} (hc : legal c = true) (x y : Int) {d : Dirty} (h : dirtyOk c d) :
    dirtyOk c (mark c x y d) := by
  by_cases hp : inPanel c x y = true
  · obtain ⟨hW1, hW, -, -, hH, -, -⟩ := legal_ranges hc
    obtain ⟨⟨hx0, hx⟩, hy0, hy⟩ := (inPanel_iff c x y).1 hp
    obtain ⟨et, el, er, eb⟩ := mark_bounds hc hp d
    right
    rw [et, el, er, eb]
    rcases h with rfl | ⟨h1, h2, h3, h4⟩
    · have e1 : Dirty.sentinel.top.toNat = 255 := rfl
      have e2 : Dirty.sentinel.left.toNat = 255 := rfl
      have e3 : Dirty.sentinel.right.toNat = 0 := rfl
      have e4 : Dirty.sentinel.bottom.toNat = 0 := rfl
      omega
    · omega
  · rw [mark_off (by simpa using hp)]
    exact h

theorem dirtyOk_plotAll {c : Config} (hc : legal c = true) (ps : List PlotCall) {v : Canvas} (h : dirtyOk c v.dirty) :
    dirtyOk c (plotAll c ps v).dirty := by
  induction ps generalizing v with
  | nil => exact h
  | cons p ps ih =>
    apply ih
    rw [plot_dirty]
    exact dirtyOk_mark hc _ _ h

/-- CLEAR's rectangle is one of the panel (spec/10_state.md R25). -/
theorem dirtyOk_full {c : Config} (hc : legal c = true) : dirtyOk c (Dirty.full c) := by
  obtain ⟨hW1, hW, -, hH8, hH, -, -⟩ := legal_ranges hc
  right
  have e1 : (Dirty.full c).top.toNat = 0 := rfl
  have e2 : (Dirty.full c).left.toNat = 0 := rfl
  have e3 : (Dirty.full c).right.toNat = c.W - 1 := Nat.mod_eq_of_lt (by omega)
  have e4 : (Dirty.full c).bottom.toNat = c.H - 1 := Nat.mod_eq_of_lt (by omega)
  omega

theorem growsTo_refl (c : Config) (d : Dirty) : GrowsTo c (fun _ _ => False) d d := by
  refine ⟨fun _ _ h => h.elim, ⟨le_rfl, le_rfl, le_rfl, le_rfl⟩, .inl rfl, .inl rfl, .inl rfl, .inl rfl⟩

theorem eq_or_of_toNat {a b : BitVec 8} {n : Nat} (h : a.toNat = n) (h' : n = b.toNat) : a = b :=
  BitVec.eq_of_toNat_eq (h.trans h')

/-- One `Mark` gives the smallest rectangle with its point (spec/40_framebuffer.md R115). -/
theorem growsTo_mark {c : Config} (hc : legal c = true) (x y : Int) (d : Dirty) :
    GrowsTo c (fun x' y' => x' = x ∧ y' = y) d (mark c x y d) := by
  by_cases hp : inPanel c x y = true
  · obtain ⟨⟨hx0, hx⟩, hy0, hy⟩ := (inPanel_iff c x y).1 hp
    obtain ⟨et, el, er, eb⟩ := mark_bounds hc hp d
    refine ⟨?_, ⟨by omega, by omega, by omega, by omega⟩, ?_, ?_, ?_, ?_⟩
    · rintro x' y' ⟨rfl, rfl⟩ -
      omega
    · by_cases hm : d.top.toNat ≤ y.toNat
      · exact .inl (eq_or_of_toNat et (by omega))
      · exact .inr ⟨x, y, ⟨rfl, rfl⟩, hp, by omega⟩
    · by_cases hm : d.left.toNat ≤ x.toNat
      · exact .inl (eq_or_of_toNat el (by omega))
      · exact .inr ⟨x, y, ⟨rfl, rfl⟩, hp, by omega⟩
    · by_cases hm : x.toNat ≤ d.right.toNat
      · exact .inl (eq_or_of_toNat er (by omega))
      · exact .inr ⟨x, y, ⟨rfl, rfl⟩, hp, by omega⟩
    · by_cases hm : y.toNat ≤ d.bottom.toNat
      · exact .inl (eq_or_of_toNat eb (by omega))
      · exact .inr ⟨x, y, ⟨rfl, rfl⟩, hp, by omega⟩
  · rw [mark_off (by simpa using hp)]
    refine ⟨?_, ⟨le_rfl, le_rfl, le_rfl, le_rfl⟩, .inl rfl, .inl rfl, .inl rfl, .inl rfl⟩
    rintro x' y' ⟨rfl, rfl⟩ h
    exact absurd h hp

theorem growsTo_trans {c : Config} {S T : Int → Int → Prop} {d d' d'' : Dirty} (h : GrowsTo c S d d')
    (h' : GrowsTo c T d' d'') : GrowsTo c (fun x y => S x y ∨ T x y) d d'' := by
  obtain ⟨a1, a2, a3, a4, a5, a6⟩ := h
  obtain ⟨b1, b2, b3, b4, b5, b6⟩ := h'
  have lift {P : Int → Int → Nat → Prop} {e e' e'' : BitVec 8}
      (g : e' = e ∨ ∃ x y, S x y ∧ inPanel c x y = true ∧ P x y e'.toNat)
      (g' : e'' = e' ∨ ∃ x y, T x y ∧ inPanel c x y = true ∧ P x y e''.toNat) :
      e'' = e ∨ ∃ x y, (S x y ∨ T x y) ∧ inPanel c x y = true ∧ P x y e''.toNat := by
    rcases g' with rfl | ⟨x, y, hT, hp, hP⟩
    · rcases g with rfl | ⟨x, y, hS, hp, hP⟩
      · exact .inl rfl
      · exact .inr ⟨x, y, .inl hS, hp, hP⟩
    · exact .inr ⟨x, y, .inr hT, hp, hP⟩
  refine ⟨?_, by omega, lift (P := fun _ y n => y = n) a3 b3, lift (P := fun x _ n => x = n) a4 b4,
    lift (P := fun x _ n => x = n) a5 b5, lift (P := fun _ y n => y = n) a6 b6⟩
  rintro x y (hS | hT) hp
  · have := a1 x y hS hp
    omega
  · exact b1 x y hT hp

theorem growsTo_congr {c : Config} {S T : Int → Int → Prop} {d d' : Dirty} (h : GrowsTo c S d d')
    (hST : ∀ x y, inPanel c x y = true → (S x y ↔ T x y)) : GrowsTo c T d d' := by
  obtain ⟨a1, a2, a3, a4, a5, a6⟩ := h
  have mv {P : Int → Int → Prop} (g : ∃ x y, S x y ∧ inPanel c x y = true ∧ P x y) :
      ∃ x y, T x y ∧ inPanel c x y = true ∧ P x y := by
    obtain ⟨x, y, hS, hp, hP⟩ := g
    exact ⟨x, y, (hST x y hp).1 hS, hp, hP⟩
  exact ⟨fun x y hT hp => a1 x y ((hST x y hp).2 hT) hp, a2, a3.imp id mv, a4.imp id mv, a5.imp id mv, a6.imp id mv⟩

/-- A sequence of pixel steps grows DIRTY to the smallest rectangle that holds every panel position of the sequence
(spec/40_framebuffer.md R117). -/
theorem growsTo_plotAll {c : Config} (hc : legal c = true) (ps : List PlotCall) (v : Canvas) :
    GrowsTo c (fun x y => ∃ p ∈ ps, p.x = x ∧ p.y = y) v.dirty (plotAll c ps v).dirty := by
  induction ps generalizing v with
  | nil => exact growsTo_congr (growsTo_refl c v.dirty) (by simp)
  | cons p ps ih =>
    have h1 := growsTo_mark hc p.x p.y v.dirty
    rw [← plot_dirty] at h1
    refine growsTo_congr (growsTo_trans h1 (ih (plot c p v))) fun x y _ => ?_
    constructor
    · rintro (⟨rfl, rfl⟩ | ⟨q, hq, hxy⟩)
      · exact ⟨p, by simp, rfl, rfl⟩
      · exact ⟨q, List.mem_cons_of_mem _ hq, hxy⟩
    · rintro ⟨q, hq, hxy⟩
      rcases List.mem_cons.1 hq with rfl | hq
      · exact .inl ⟨hxy.1.symm, hxy.2.symm⟩
      · exact .inr ⟨q, hq, hxy⟩

end Sys2Proof.Machine
end

