-- ==== Sys2Proof/Laws/Circle.lean ====
section
/-! SUPPORT. The states of the circle loops (spec/41_primitives.md R149): `a` counts up from its start, `b` never grows
and falls by at most one, the fuel never cuts the loop short, and the states are those of the recurrence. -/

namespace Sys2Proof.Machine

theorem circleStep_a (a b e : Int) : (circleStep a b e).1 = a + 1 := by
  unfold circleStep
  split <;> rfl

theorem circleStep_b (a b e : Int) : (circleStep a b e).2.1 = b ∨ (circleStep a b e).2.1 = b - 1 := by
  unfold circleStep
  split
  · exact .inl rfl
  · exact .inr rfl

/-- More fuel than the distance of `a` and `b` changes nothing: the loop has ended by its own test. -/
theorem circleWalk_fuel {n : Nat} {a b e : Int} (h : b - a < n) :
    circleWalk (n + 1) a b e = circleWalk n a b e := by
  induction n generalizing a b e with
  | zero =>
    have : ¬ a ≤ b := by omega
    simp [circleWalk, this]
  | succ n ih =>
    by_cases hab : a ≤ b
    · have ha := circleStep_a a b e
      have hb := circleStep_b a b e
      have hr := ih (a := (circleStep a b e).1) (b := (circleStep a b e).2.1) (e := (circleStep a b e).2.2) (by omega)
      rw [circleWalk, if_pos hab, hr, circleWalk, if_pos hab]
    · rw [circleWalk, if_neg hab, circleWalk, if_neg hab]

/-- The state number `i` of the walk: `a` is `i` more than at the start, the loop test holds, and `b` has not grown. -/
theorem circleWalk_getElem {n : Nat} {a b e : Int} {i : Nat} (h : i < (circleWalk n a b e).length) :
    ((circleWalk n a b e)[i]).1 = a + i ∧ ((circleWalk n a b e)[i]).1 ≤ ((circleWalk n a b e)[i]).2 ∧
      ((circleWalk n a b e)[i]).2 ≤ b := by
  induction n generalizing a b e i with
  | zero => simp [circleWalk] at h
  | succ n ih =>
    by_cases hab : a ≤ b
    · have hw : circleWalk (n + 1) a b e =
          (a, b) :: circleWalk n (circleStep a b e).1 (circleStep a b e).2.1 (circleStep a b e).2.2 := by
        rw [circleWalk, if_pos hab]
      simp only [hw] at h ⊢
      cases i with
      | zero => simpa using hab
      | succ i =>
        have hi : i < (circleWalk n (circleStep a b e).1 (circleStep a b e).2.1 (circleStep a b e).2.2).length := by
          simpa using h
        have := ih hi
        have ha := circleStep_a a b e
        have hb := circleStep_b a b e
        simp only [List.getElem_cons_succ]
        push_cast
        omega
    · have hw : circleWalk (n + 1) a b e = [] := by rw [circleWalk, if_neg hab]
      simp [hw] at h

/-- From one state to the next `b` stays or falls by one. -/
theorem circleWalk_next {n : Nat} {a b e : Int} {i : Nat} (h : i + 1 < (circleWalk n a b e).length) :
    ((circleWalk n a b e)[i + 1]).2 = ((circleWalk n a b e)[i]).2 ∨
      ((circleWalk n a b e)[i + 1]).2 = ((circleWalk n a b e)[i]).2 - 1 := by
  induction n generalizing a b e i with
  | zero => simp [circleWalk] at h
  | succ n ih =>
    by_cases hab : a ≤ b
    · have hw : circleWalk (n + 1) a b e =
          (a, b) :: circleWalk n (circleStep a b e).1 (circleStep a b e).2.1 (circleStep a b e).2.2 := by
        rw [circleWalk, if_pos hab]
      simp only [hw] at h ⊢
      have hi : i < (circleWalk n (circleStep a b e).1 (circleStep a b e).2.1 (circleStep a b e).2.2).length := by
        simpa using h
      cases i with
      | zero =>
        cases n with
        | zero => simp [circleWalk] at hi
        | succ n =>
          have hb := circleStep_b a b e
          by_cases hab' : (circleStep a b e).1 ≤ (circleStep a b e).2.1
          · simp only [circleWalk, if_pos hab']
            simpa using hb
          · simp [circleWalk, hab'] at hi
      | succ i =>
        simpa using ih hi
    · have hw : circleWalk (n + 1) a b e = [] := by rw [circleWalk, if_neg hab]
      simp [hw] at h

/-- Where the walk stops before its fuel does, the last `b` is at most one more than its `a`. -/
theorem circleWalk_last {n : Nat} {a b e : Int} (hn : b - a < n) {i : Nat} (h : i < (circleWalk n a b e).length)
    (hi : i + 1 = (circleWalk n a b e).length) :
    ((circleWalk n a b e)[i]).2 ≤ a + (circleWalk n a b e).length := by
  induction n generalizing a b e i with
  | zero => simp [circleWalk] at h
  | succ n ih =>
    by_cases hab : a ≤ b
    · have hw : circleWalk (n + 1) a b e =
          (a, b) :: circleWalk n (circleStep a b e).1 (circleStep a b e).2.1 (circleStep a b e).2.2 := by
        rw [circleWalk, if_pos hab]
      have ha := circleStep_a a b e
      have hb := circleStep_b a b e
      simp only [hw, List.length_cons] at h hi ⊢
      cases i with
      | zero =>
        have hnil : ¬ (circleStep a b e).1 ≤ (circleStep a b e).2.1 := by
          intro hab'
          cases n with
          | zero => omega
          | succ n => simp [circleWalk, hab'] at hi
        simp only [List.getElem_cons_zero]
        push_cast
        omega
      | succ i =>
        have := ih (a := (circleStep a b e).1) (b := (circleStep a b e).2.1) (e := (circleStep a b e).2.2) (i := i)
          (by omega) (by omega) (by omega)
        simp only [List.getElem_cons_succ]
        push_cast
        omega
    · have hw : circleWalk (n + 1) a b e = [] := by rw [circleWalk, if_neg hab]
      simp [hw] at h

/-! ## The states of a circle of radius `r` -/

/-- State number `i` of a circle: `a = 1 + i ≤ b ≤ r` (spec/41_primitives.md R150, R153). -/
theorem circleStates_getElem {r i : Nat} (h : i < (circleStates r).length) :
    ((circleStates r)[i]).1 = 1 + i ∧ ((circleStates r)[i]).1 ≤ ((circleStates r)[i]).2 ∧
      ((circleStates r)[i]).2 ≤ r :=
  circleWalk_getElem h

/-- A later state has no larger `b`. -/
theorem circleStates_antitone {r i j : Nat} (hij : i ≤ j) (h : j < (circleStates r).length) :
    ((circleStates r)[j]).2 ≤ ((circleStates r)[i]).2 := by
  induction j, hij using Nat.le_induction with
  | base => exact le_rfl
  | succ j hij ih =>
    have hn := circleWalk_next (n := r) (a := 1) (b := r) (e := 1 - r) (i := j) h
    have hi := ih (by omega)
    unfold circleStates at *
    omega

/-- A circle with a radius has a first state `(1, r)`. -/
theorem circleStates_cons {r : Nat} (h : 1 ≤ r) :
    ∃ l, circleStates r = (1, (r : Int)) :: l := by
  obtain ⟨n, rfl⟩ : ∃ n, r = n + 1 := ⟨r - 1, by omega⟩
  exact ⟨_, by rw [circleStates, circleWalk, if_pos (by push_cast; omega)]⟩

/-- The last state of a circle: its `b` is at most the number of states plus one. -/
theorem circleStates_last {r i : Nat} (h : i < (circleStates r).length) (hi : i + 1 = (circleStates r).length) :
    ((circleStates r)[i]).2 ≤ 1 + (circleStates r).length :=
  circleWalk_last (by omega) h hi

/-! ## Runs of the recurrence -/

/-- From state number `k` of a run the walk goes through the rest of its loop states. -/
theorem circleWalk_of_run {r : Nat} {a b e : Nat → Int} {n : Nat} (h : CircleRun r a b e n) {k m : Nat}
    (hm : b k - a k < m) (hk : k ≤ n) :
    circleWalk m (a k) (b k) (e k) = (List.range' k (n - k)).map fun i => (a i, b i) := by
  induction m generalizing k with
  | zero =>
    have hkn : k = n := by
      by_contra hne
      have := h.loop k (by omega)
      omega
    simp [hkn, circleWalk]
  | succ m ih =>
    by_cases hkn : k = n
    · simp [hkn, circleWalk, not_le.2 h.exit]
    · have hstep : circleStep (a k) (b k) (e k) = (a (k + 1), b (k + 1), e (k + 1)) := by
        unfold circleStep
        by_cases he : e k < 0
        · rw [if_pos he, (h.stay k he).1, (h.stay k he).2, h.next]
        · rw [if_neg he, (h.fall k (by omega)).2, (h.fall k (by omega)).1, h.next]
      have hb : b (k + 1) ≤ b k := by
        have := circleStep_b (a k) (b k) (e k)
        rw [hstep] at this
        simp only at this
        omega
      have hrest := ih (k := k + 1) (by rw [h.next]; push_cast at hm; omega) (by omega)
      simp only [circleWalk, if_pos (h.loop k (by omega)), hstep]
      rw [hrest, show n - k = n - (k + 1) + 1 by omega, List.range'_succ, List.map_cons]

/-- The loop states of a circle are those of any run of its recurrence (spec/41_primitives.md R149). -/
theorem circleStates_of_run {r : Nat} {a b e : Nat → Int} {n : Nat} (h : CircleRun r a b e n) :
    circleStates r = (List.range n).map fun i => (a i, b i) := by
  have hw := circleWalk_of_run h (k := 0) (m := r) (by rw [h.start.1, h.start.2.1]; omega) (by omega)
  rw [h.start.1, h.start.2.1, h.start.2.2] at hw
  rw [circleStates, hw, List.range_eq_range', Nat.sub_zero]

/-- The states of the recurrence, run on without end. -/
def circleSeq (r : Nat) : Nat → Int × Int × Int
  | 0 => (1, r, 1 - r)
  | i + 1 => circleStep (circleSeq r i).1 (circleSeq r i).2.1 (circleSeq r i).2.2

/-- Every radius has a run of the recurrence. -/
theorem exists_circleRun (r : Nat) : ∃ a b e n, CircleRun r a b e n := by
  have hnext : ∀ i, (circleSeq r (i + 1)).1 = (circleSeq r i).1 + 1 := fun i => circleStep_a _ _ _
  have hstep : ∀ i, circleSeq r (i + 1) = circleStep (circleSeq r i).1 (circleSeq r i).2.1 (circleSeq r i).2.2 :=
    fun _ => rfl
  have hbound : ∀ i : Nat, (circleSeq r i).1 = 1 + i ∧ (circleSeq r i).2.1 ≤ r := by
    intro i
    induction i with
    | zero => exact ⟨rfl, le_rfl⟩
    | succ i ih =>
      have := circleStep_b (circleSeq r i).1 (circleSeq r i).2.1 (circleSeq r i).2.2
      rw [← hstep] at this
      rw [hnext]
      push_cast
      omega
  have hend : ∃ n, (circleSeq r n).2.1 < (circleSeq r n).1 := ⟨r, by have := hbound r; omega⟩
  refine ⟨fun i => (circleSeq r i).1, fun i => (circleSeq r i).2.1, fun i => (circleSeq r i).2.2, Nat.find hend,
    ⟨rfl, rfl, rfl⟩, hnext, fun i h => ?_, fun i h => ?_, fun i h => ?_, Nat.find_spec hend⟩
  · rw [hnext, hstep]
    simp [circleStep, h]
  · rw [hnext, hstep]
    simp [circleStep, not_lt.2 h]
  · simpa using Nat.find_min hend h

end Sys2Proof.Machine
end

