-- ==== Sys2Proof/Laws/Decode.lean ====
section
/-! SUPPORT. The bit fields of a word, the opcode map and the colour codes read both ways. -/

namespace Sys2Proof

/-- The fields of the word made of fields are those fields (spec/30_encoding.md R80). -/
theorem ofWord_toWord (f : Fields) : Fields.ofWord f.toWord = f := by
  obtain ⟨opc, fg, bg, rsv, f0, x, y, p, q⟩ := f
  simp only [Fields.ofWord, Fields.toWord, Fields.mk.injEq]
  refine ⟨?_, ?_, ?_, ?_, ?_, ?_, ?_, ?_, ?_⟩ <;>
    · apply BitVec.eq_of_getLsbD_eq
      intro i hi
      simp only [BitVec.getLsbD_extractLsb', hi, decide_true, Bool.true_and, BitVec.getLsbD_append]
      interval_cases i <;> simp

/-- A word is the word made of its fields (spec/30_encoding.md R80). -/
theorem toWord_ofWord (w : CmdWord) : (Fields.ofWord w).toWord = w := by
  apply BitVec.eq_of_getLsbD_eq
  intro i hi
  simp only [Fields.ofWord, Fields.toWord, BitVec.getLsbD_append, BitVec.getLsbD_extractLsb']
  interval_cases i <;> simp

@[simp] theorem opOfByte_toByte (op : Op) : Op.ofByte op.toByte = some op := by
  cases op <;> decide

/-- The fields of a command carry its opcode. -/
theorem opc_toFields (i : Instr) : Op.ofByte i.toFields.opc = some i.op := by
  have h : i.toFields.opc = i.op.toByte := by cases i <;> rfl
  rw [h, opOfByte_toByte]

/-- The opcode map is one to one (spec/30_encoding.md R86). -/
theorem toByte_of_opOfByte {b : Byte} {op : Op} (h : Op.ofByte b = some op) : op.toByte = b := by
  have all : ∀ b : Byte, ∀ op ∈ Op.ofByte b, op.toByte = b := by decide
  exact all b op h

@[simp] theorem colour_ofCode_code (c : Colour) : Colour.ofCode c.code = c := by
  cases c <;> decide

@[simp] theorem colour_code_ofCode (c : BitVec 2) : (Colour.ofCode c).code = c := by
  revert c
  decide

@[simp] theorem flagOf_flagBit (b : Bool) : flagOf (flagBit b) = b := by
  cases b <;> decide

@[simp] theorem flagBit_flagOf (f : BitVec 1) : flagBit (flagOf f) = f := by
  revert f
  decide

/-- The low eight bits of a byte widened to a field are the byte. -/
@[simp] theorem low8_zeroExtend (b : Byte) : (b.zeroExtend 12).extractLsb' 0 8 = b := by
  apply BitVec.eq_of_getLsbD_eq
  intro i hi
  simp [hi, show i < 12 by omega]

/-- The high four bits of a byte widened to a field are 0. -/
@[simp] theorem high4_zeroExtend (b : Byte) : (b.zeroExtend 12).extractLsb' 8 4 = 0#4 := by
  apply BitVec.eq_of_getLsbD_eq
  intro i hi
  simp

/-- A field whose high four bits are 0 is its low eight bits widened. -/
theorem zeroExtend_low8 {v : BitVec 12} (h : v.extractLsb' 8 4 = 0#4) : (v.extractLsb' 0 8).zeroExtend 12 = v := by
  apply BitVec.eq_of_getLsbD_eq
  intro i hi
  by_cases h8 : i < 8
  · simp [h8, hi]
  · have hb := congrArg (fun u : BitVec 4 => u.getLsbD (i - 8)) h
    simp only [BitVec.getLsbD_extractLsb', BitVec.getLsbD_zero, show i - 8 < 4 by omega, decide_true,
      Bool.true_and, show 8 + (i - 8) = i by omega] at hb
    simpa [h8, hi, BitVec.getLsbD_eq_getElem hi] using hb

end Sys2Proof
end

