-- ==== Sys2Proof/Laws/Paint.lean ====
section
/-! SUPPORT. What a sequence of pixel steps of one colour paints and marks (spec/40_framebuffer.md R117), and which
positions the lines and rectangles hold. -/

namespace Sys2Proof.Machine

/-! ## Pixel steps of one colour -/

/-- One pixel after a sequence of pixel steps of one colour: flipped for each of its occurrences under Invert, and
otherwise as the colour says where it occurs (spec/40_framebuffer.md R117). -/
theorem pixel_inColour (c : Config) (colour : Colour) (ps : List (Int × Int)) (v : Canvas) {x y : Int}
    (h : inPanel c x y = true) :
    pixel c (plotAll c (inColour colour ps) v).fb x y =
      if colour = .invert then (pixel c v.fb x y ^^ decide (ps.count (x, y) % 2 = 1))
      else if (x, y) ∈ ps then colourBit colour (pixel c v.fb x y) else pixel c v.fb x y := by
  induction ps generalizing v with
  | nil => cases colour <;> simp [inColour, plotAll]
  | cons p ps ih =>
    have hstep := pixel_plot c ⟨p.1, p.2, colour⟩ v h
    have hrest := ih (plot c ⟨p.1, p.2, colour⟩ v)
    simp only [inColour, List.map_cons, plotAll] at hrest ⊢
    rw [hrest, hstep]
    by_cases hp : p = (x, y)
    · subst hp
      cases colour <;> simp [colourBit]
      by_cases h2 : ps.count (x, y) % 2 = 1
      · have : ¬ (ps.count (x, y) + 1) % 2 = 1 := by omega
        simp [h2, this]
      · have : (ps.count (x, y) + 1) % 2 = 1 := by omega
        simp [h2, this]
    · have hne : ¬ (p.1 = x ∧ p.2 = y) := fun e => hp (Prod.ext e.1 e.2)
      have hne' : (x, y) ≠ p := fun e => hp e.symm
      simp [hne, hne', hp]

/-- What a sequence of pixel steps of one colour paints. -/
theorem paints_inColour (c : Config) (colour : Colour) (ps : List (Int × Int)) (v : Canvas) :
    Paints c (fun x y => (x, y) ∈ ps)
      (fun x y b => if colour = .invert then b ^^ decide (ps.count (x, y) % 2 = 1) else colourBit colour b)
      v.fb (plotAll c (inColour colour ps) v).fb := by
  refine ⟨fun x y h => ⟨fun hm => ?_, fun hm => ?_⟩, fun j hj => ?_⟩
  · rw [pixel_inColour c colour ps v h]
    simp [hm]
  · rw [pixel_inColour c colour ps v h]
    simp [hm, List.count_eq_zero_of_not_mem hm]
  · apply fbRead_plotAll_other
    intro p hp
    simp only [inColour, List.mem_map] at hp
    obtain ⟨q, hq, rfl⟩ := hp
    exact hj q.1 q.2 hq

/-- The same paint, described in other words on the panel. -/
theorem paints_congr {c : Config} {S T : Int → Int → Prop} {f g : Int → Int → Bool → Bool} {fb fb' : Memory}
    (h : Paints c S f fb fb') (hS : ∀ x y, inPanel c x y = true → (S x y ↔ T x y))
    (hf : ∀ x y b, inPanel c x y = true → S x y → f x y b = g x y b) : Paints c T g fb fb' := by
  obtain ⟨h1, h2⟩ := h
  refine ⟨fun x y hp => ⟨fun hT => ?_, fun hT => ?_⟩, fun j hj => h2 j fun x y hS' hp => hj x y ((hS x y hp).1 hS') hp⟩
  · have hS' := (hS x y hp).2 hT
    rw [(h1 x y hp).1 hS', hf x y _ hp hS']
  · exact (h1 x y hp).2 fun hS' => hT ((hS x y hp).1 hS')

/-- Where no position repeats, each one is painted as the colour says. -/
theorem paints_inColour_nodup (c : Config) (colour : Colour) {ps : List (Int × Int)} (v : Canvas) (h : ps.Nodup) :
    Paints c (fun x y => (x, y) ∈ ps) (fun _ _ b => colourBit colour b) v.fb
      (plotAll c (inColour colour ps) v).fb := by
  refine paints_congr (paints_inColour c colour ps v) (fun _ _ _ => Iff.rfl) fun x y b _ hm => ?_
  cases colour <;> simp [colourBit, List.count_eq_one_of_mem h hm]

/-- Under a colour other than Invert, repeats do not matter. -/
theorem paints_inColour_set (c : Config) {colour : Colour} (ps : List (Int × Int)) (v : Canvas) (h : colour ≠ .invert) :
    Paints c (fun x y => (x, y) ∈ ps) (fun _ _ b => colourBit colour b) v.fb
      (plotAll c (inColour colour ps) v).fb :=
  paints_congr (paints_inColour c colour ps v) (fun _ _ _ => Iff.rfl) fun x y b _ _ => by simp [h]

/-- What a sequence of pixel steps of one colour marks (spec/40_framebuffer.md R113). -/
theorem growsTo_inColour {c : Config} (hc : legal c = true) (colour : Colour) (ps : List (Int × Int)) (v : Canvas) :
    GrowsTo c (fun x y => (x, y) ∈ ps) v.dirty (plotAll c (inColour colour ps) v).dirty := by
  refine growsTo_congr (growsTo_plotAll hc (inColour colour ps) v) fun x y _ => ?_
  simp [inColour]

/-! ## The positions of lines and rectangles -/

theorem mem_hlinePoints {x y w px py : Int} :
    (px, py) ∈ hlinePoints x y w ↔ x ≤ px ∧ px < x + w ∧ py = y := by
  simp only [hlinePoints, List.mem_map, List.mem_range, Prod.mk.injEq]
  constructor
  · rintro ⟨i, hi, rfl, rfl⟩
    omega
  · rintro ⟨h1, h2, rfl⟩
    exact ⟨(px - x).toNat, by omega, by omega, rfl⟩

theorem mem_vlinePoints {x y h px py : Int} :
    (px, py) ∈ vlinePoints x y h ↔ px = x ∧ y ≤ py ∧ py < y + h := by
  simp only [vlinePoints, List.mem_map, List.mem_range, Prod.mk.injEq]
  constructor
  · rintro ⟨i, hi, rfl, rfl⟩
    omega
  · rintro ⟨rfl, h1, h2⟩
    exact ⟨(py - y).toNat, by omega, rfl, by omega⟩

theorem nodup_hlinePoints (x y w : Int) : (hlinePoints x y w).Nodup := by
  refine List.Nodup.map (fun a b h => ?_) List.nodup_range
  simp only [Prod.mk.injEq] at h
  omega

theorem nodup_vlinePoints (x y h : Int) : (vlinePoints x y h).Nodup := by
  refine List.Nodup.map (fun a b hab => ?_) List.nodup_range
  simp only [Prod.mk.injEq] at hab
  omega

theorem mem_fillRectPoints {x y w h px py : Int} :
    (px, py) ∈ fillRectPoints x y w h ↔ x ≤ px ∧ px < x + w ∧ y ≤ py ∧ py < y + h := by
  simp only [fillRectPoints, List.mem_flatMap, List.mem_range, mem_vlinePoints]
  constructor
  · rintro ⟨i, hi, rfl, h1, h2⟩
    omega
  · rintro ⟨h1, h2, h3, h4⟩
    exact ⟨(px - x).toNat, by omega, by omega, h3, h4⟩

/-- FILL_RECT plots no position twice (spec/41_primitives.md R148). -/
theorem nodup_fillRectPoints (x y w h : Int) : (fillRectPoints x y w h).Nodup := by
  rw [fillRectPoints, List.nodup_flatMap]
  refine ⟨fun i _ => nodup_vlinePoints _ _ _, List.nodup_range.imp ?_⟩
  intro i j hij p hp hq
  obtain ⟨px, py⟩ := p
  rw [mem_vlinePoints] at hp hq
  omega

/-- How often a line holds a position. -/
theorem count_hlinePoints (x y w px py : Int) :
    (hlinePoints x y w).count (px, py) = if x ≤ px ∧ px < x + w ∧ py = y then 1 else 0 := by
  split
  · exact List.count_eq_one_of_mem (nodup_hlinePoints x y w) (mem_hlinePoints.2 ‹_›)
  · exact List.count_eq_zero_of_not_mem (mt mem_hlinePoints.1 ‹_›)

theorem count_vlinePoints (x y h px py : Int) :
    (vlinePoints x y h).count (px, py) = if px = x ∧ y ≤ py ∧ py < y + h then 1 else 0 := by
  split
  · exact List.count_eq_one_of_mem (nodup_vlinePoints x y h) (mem_vlinePoints.2 ‹_›)
  · exact List.count_eq_zero_of_not_mem (mt mem_vlinePoints.1 ‹_›)

end Sys2Proof.Machine
end

