-- ==== Sys2Proof/Laws/PerInstr.lean ====
section
/-! SUPPORT. The family EncodedFields: for each command, the fields its encoding writes pass the checks of decoding and
read back as the command (spec/30_encoding.md R80, R81, R90). -/

namespace Sys2Proof.Laws.EncodedFields

/-- A well-formed command's fields carry its opcode, pass the check of unused fields, and read back as the command. -/
def Statement (i : Instr) : Prop :=
  i.wf = true → Op.ofByte i.toFields.opc = some i.op ∧ fieldsOk i.op i.toFields = true ∧ i.toFields.toInstr i.op = i

theorem nop : Statement .nop := fun _ => by decide
theorem clear : Statement .clear := fun _ => by decide
theorem clearStatus : Statement .clearStatus := fun _ => by decide

theorem markDirty (x y : BitVec 12) : Statement (.markDirty x y) := fun _ => by
  refine ⟨opc_toFields _, ?_, ?_⟩ <;>
    simp [Instr.op, Instr.toFields, Fields.zero, fieldsOk, Op.used, Op.isString, FieldUse.ok, Fields.toInstr]

theorem setPixel (c : Colour) (x y : BitVec 12) : Statement (.setPixel c x y) := fun _ => by
  refine ⟨opc_toFields _, ?_, ?_⟩ <;>
    simp [Instr.op, Instr.toFields, Fields.zero, fieldsOk, Op.used, Op.isString, FieldUse.ok, Fields.toInstr]

theorem drawHline (c : Colour) (x y w : BitVec 12) : Statement (.drawHline c x y w) := fun _ => by
  refine ⟨opc_toFields _, ?_, ?_⟩ <;>
    simp [Instr.op, Instr.toFields, Fields.zero, fieldsOk, Op.used, Op.isString, FieldUse.ok, Fields.toInstr]

theorem drawVline (c : Colour) (x y h : BitVec 12) : Statement (.drawVline c x y h) := fun _ => by
  refine ⟨opc_toFields _, ?_, ?_⟩ <;>
    simp [Instr.op, Instr.toFields, Fields.zero, fieldsOk, Op.used, Op.isString, FieldUse.ok, Fields.toInstr]

theorem drawRect (c : Colour) (x y w h : BitVec 12) : Statement (.drawRect c x y w h) := fun _ => by
  refine ⟨opc_toFields _, ?_, ?_⟩ <;>
    simp [Instr.op, Instr.toFields, Fields.zero, fieldsOk, Op.used, Op.isString, FieldUse.ok, Fields.toInstr]

theorem fillRect (c : Colour) (x y w h : BitVec 12) : Statement (.fillRect c x y w h) := fun _ => by
  refine ⟨opc_toFields _, ?_, ?_⟩ <;>
    simp [Instr.op, Instr.toFields, Fields.zero, fieldsOk, Op.used, Op.isString, FieldUse.ok, Fields.toInstr]

theorem drawCircle (c : Colour) (x0 y0 r : BitVec 12) : Statement (.drawCircle c x0 y0 r) := fun _ => by
  refine ⟨opc_toFields _, ?_, ?_⟩ <;>
    simp [Instr.op, Instr.toFields, Fields.zero, fieldsOk, Op.used, Op.isString, FieldUse.ok, Fields.toInstr]

theorem fillCircle (c : Colour) (x0 y0 r : BitVec 12) : Statement (.fillCircle c x0 y0 r) := fun _ => by
  refine ⟨opc_toFields _, ?_, ?_⟩ <;>
    simp [Instr.op, Instr.toFields, Fields.zero, fieldsOk, Op.used, Op.isString, FieldUse.ok, Fields.toInstr]

theorem selectFont (id : BitVec 12) : Statement (.selectFont id) := fun _ => by
  refine ⟨opc_toFields _, ?_, ?_⟩ <;>
    simp [Instr.op, Instr.toFields, Fields.zero, fieldsOk, Op.used, Op.isString, FieldUse.ok, Fields.toInstr]

theorem drawChar (fg bg : Colour) (x y : BitVec 12) (code : Byte) : Statement (.drawChar fg bg x y code) := fun _ => by
  refine ⟨opc_toFields _, ?_, ?_⟩
  · have := high4_zeroExtend code
    simp_all [Instr.op, Instr.toFields, Fields.zero, fieldsOk, Op.used, Op.isString, FieldUse.ok]
  · have := low8_zeroExtend code
    simp_all [Instr.op, Instr.toFields, Fields.zero, Fields.toInstr]

theorem drawStringColor (fg bg : Colour) (null : Bool) (x y a : BitVec 12) :
    Statement (.drawStringColor fg bg null x y a) := fun h => by
  refine ⟨opc_toFields _, ?_, ?_⟩
  · simpa [Instr.op, Instr.toFields, Fields.zero, fieldsOk, Op.used, Op.isString, FieldUse.ok, Instr.wf] using h
  · simp [Instr.op, Instr.toFields, Fields.zero, Fields.toInstr]

theorem drawString (null : Bool) (x y a : BitVec 12) : Statement (.drawString null x y a) := fun h => by
  refine ⟨opc_toFields _, ?_, ?_⟩
  · simpa [Instr.op, Instr.toFields, Fields.zero, fieldsOk, Op.used, Op.isString, FieldUse.ok, Instr.wf] using h
  · simp [Instr.op, Instr.toFields, Fields.zero, Fields.toInstr]

theorem measureString (null : Bool) (a : BitVec 12) : Statement (.measureString null a) := fun h => by
  refine ⟨opc_toFields _, ?_, ?_⟩
  · simpa [Instr.op, Instr.toFields, Fields.zero, fieldsOk, Op.used, Op.isString, FieldUse.ok, Instr.wf] using h
  · simp [Instr.op, Instr.toFields, Fields.zero, Fields.toInstr]

theorem refresh (force : Bool) : Statement (.refresh force) := fun _ => by
  cases force <;> decide

theorem sendCmd1 (b : Byte) : Statement (.sendCmd1 b) := fun _ => by
  refine ⟨opc_toFields _, ?_, ?_⟩
  · have := high4_zeroExtend b
    simp_all [Instr.op, Instr.toFields, Fields.zero, fieldsOk, Op.used, Op.isString, FieldUse.ok]
  · have := low8_zeroExtend b
    simp_all [Instr.op, Instr.toFields, Fields.zero, Fields.toInstr]

theorem sendCmd2 (b v : Byte) : Statement (.sendCmd2 b v) := fun _ => by
  refine ⟨opc_toFields _, ?_, ?_⟩
  · have hb := high4_zeroExtend b
    have hv := high4_zeroExtend v
    simp_all [Instr.op, Instr.toFields, Fields.zero, fieldsOk, Op.used, Op.isString, FieldUse.ok]
  · have hb := low8_zeroExtend b
    have hv := low8_zeroExtend v
    simp_all [Instr.op, Instr.toFields, Fields.zero, Fields.toInstr]

end Sys2Proof.Laws.EncodedFields
end

