-- ==== Sys2Proof/Laws/Step.lean ====
section
/-! SUPPORT. What a host access reaches, and what a step is once the host's next access is known. -/

namespace Sys2Proof.Machine

/-- The registers' offsets are read back from what they reach (spec/10_state.md R31). -/
theorem target_of_reg {a : BitVec 16} {w : Width} {r : HostReg} (h : target a w = .reg r) :
    w = .word ∧ regAt a.toNat = .reg r := by
  unfold target at h
  split at h
  · cases w <;> simp_all
  · split at h
    · cases w <;> simp at h
      split at h <;> cases h
    · cases h

/-- Only an aligned 32-bit access at offset 4 reaches CMD_HI (spec/20_memory.md R53). -/
theorem target_cmdHi {a : BitVec 16} {w : Width} : target a w = .reg .cmdHi ↔ a = 0x0004#16 ∧ w = .word := by
  constructor
  · intro h
    obtain ⟨rfl, hr⟩ := target_of_reg h
    refine ⟨BitVec.eq_of_toNat_eq ?_, rfl⟩
    unfold regAt at hr
    split_ifs at hr <;> simp_all
  · rintro ⟨rfl, rfl⟩
    rfl

theorem startsCommand_iff {a : BitVec 16} {w : Width} : startsCommand a w = true ↔ a = 0x0004#16 ∧ w = .word := by
  rw [← target_cmdHi, startsCommand]
  simp

/-- A byte access reaches STRMEM inside its 4096 bytes (spec/20_memory.md R52). -/
theorem strByte_lt {addr : BitVec 16} {w : Width} {a : Nat} (h : target addr w = .strByte a) : a < strBytes := by
  unfold target at h
  split at h
  · cases w <;> simp at h
    unfold regAt at h
    split_ifs at h
  · split at h
    · cases w <;> simp at h
      · simp only [strBytes]
        omega
      · split at h <;> cases h
    · cases h

/-- A word access reaches four bytes inside STRMEM (spec/20_memory.md R54). -/
theorem strWord_lt {addr : BitVec 16} {w : Width} {a : Nat} (h : target addr w = .strWord a) : a + 3 < strBytes := by
  unfold target at h
  split at h
  · cases w <;> simp at h
    unfold regAt at h
    split_ifs at h
  · split at h
    · cases w <;> simp only [reduceCtorEq] at h
      split at h
      · have := Target.strWord.inj h
        simp only [strBytes]
        omega
      · cases h
    · cases h

/-- A byte address of STRMEM reaches its byte. -/
theorem target_byte {a : Nat} (h : a < 4096) : target (BitVec.ofNat 16 (0x1000 + a)) .byte = .strByte a := by
  have e : (BitVec.ofNat 16 (0x1000 + a)).toNat = 0x1000 + a := by
    rw [BitVec.toNat_ofNat]
    omega
  simp only [target, e]
  rw [if_neg (by omega), if_pos (by omega), Nat.add_sub_cancel_left]

/-- An aligned word address of STRMEM reaches its word. -/
theorem target_word {a : Nat} (h : a < 4096) (h4 : a % 4 = 0) :
    target (BitVec.ofNat 16 (0x1000 + a)) .word = .strWord a := by
  have e : (BitVec.ofNat 16 (0x1000 + a)).toNat = 0x1000 + a := by
    rw [BitVec.toNat_ofNat]
    omega
  simp only [target, e]
  rw [if_neg (by omega), if_pos (by omega), if_pos (by omega), Nat.add_sub_cancel_left]

/-- One step performs the host's next access (spec/20_memory.md R58). -/
theorem step_cons {s : State} {a : HostAccess} {rest : List HostAccess} (hl : legal s.cfg = true)
    (h : s.host = a :: rest) : step s = hostAccess a { s with host := rest } := by
  simp [step, hl, h]

/-- The CMD_HI write stores its value and runs the command word (spec/10_state.md R29). -/
theorem hostAccess_cmdHi (v : Reg32) (s : State) :
    hostAccess (.write 0x0004 .word v) s = runCommand { s with cmdHi := v } := rfl

/-- A write that does not reach CMD_HI only stores (spec/20_memory.md R56). -/
theorem hostAccess_store {a : BitVec 16} {w : Width} (v : Reg32) (s : State) (h : ¬ (a = 0x0004#16 ∧ w = .word)) :
    hostAccess (.write a w v) s = .next (hostStore a w v s) := by
  have : startsCommand a w = false := by
    rw [← Bool.not_eq_true, startsCommand_iff]
    exact h
  simp [hostAccess, this]

/-- The command word of the CMD_HI write (spec/10_state.md R29). -/
theorem runCommand_ok {s : State} {i : Instr} (h : decode (s.cmdHi ++ s.cmdLo) = .ok i) : runCommand s = exec i s := by
  unfold runCommand commandWord
  rw [h]

theorem runCommand_error {s : State} {e : DecodeError} (h : decode (s.cmdHi ++ s.cmdLo) = .error e) :
    runCommand s = .next (raiseErr (errOfDecode e) s) := by
  unfold runCommand commandWord
  rw [h]

/-- The bytes of a word written to STRMEM, little-endian (spec/20_memory.md R54). -/
theorem strRead_strWordWrite (m : Memory) (a : Nat) (v : Reg32) {k : Nat} (hk : k < 4) :
    strRead (strWordWrite m a v) (a + k) = some (v.extractLsb' (8 * k) 8) := by
  unfold strWordWrite
  interval_cases k
  · rw [strRead_strWrite_other _ _ (by omega), strRead_strWrite_other _ _ (by omega),
      strRead_strWrite_other _ _ (by omega)]
    simp
  · rw [strRead_strWrite_other _ _ (by omega), strRead_strWrite_other _ _ (by omega)]
    simp
  · rw [strRead_strWrite_other _ _ (by omega)]
    simp
  · simp

/-- A word written to STRMEM leaves every other byte as it was. -/
theorem strRead_strWordWrite_other (m : Memory) {a a' : Nat} (v : Reg32) (h : a' < a ∨ a + 4 ≤ a') :
    strRead (strWordWrite m a v) a' = strRead m a' := by
  unfold strWordWrite
  rw [strRead_strWrite_other _ _ (by omega), strRead_strWrite_other _ _ (by omega),
    strRead_strWrite_other _ _ (by omega), strRead_strWrite_other _ _ (by omega)]

/-- The bytes of a word read from STRMEM, little-endian (spec/20_memory.md R54). -/
theorem byte_strWordValue (m : Memory) (a d : Nat) {k : Nat} (hk : k < 4) :
    (strWordValue m a d).extractLsb' (8 * k) 8 = strByteOr m (a + k) (d + k) := by
  unfold strWordValue
  apply BitVec.eq_of_getLsbD_eq
  intro i hi
  interval_cases k <;> simp [hi] <;> grind

end Sys2Proof.Machine
end

