-- ==== Sys2Proof/Laws/Text.lean ====
section
/-! SUPPORT. What the string scan and the string commands can do. -/

namespace Sys2Proof.Machine

/-- The scan finds exactly the bytes before the first 0x00 (spec/42_text.md R180). -/
theorem scanString_found {m : Memory} {bytes : List Byte} {n a : Nat} (hlen : bytes.length < n)
    (hb : ∀ k, (h : k < bytes.length) → strRead m (a + k) = some bytes[k] ∧ bytes[k] ≠ 0#8)
    (hz : strRead m (a + bytes.length) = some 0#8) : scanString m n a = .found bytes := by
  induction bytes generalizing n a with
  | nil =>
    obtain ⟨n, rfl⟩ : ∃ n', n = n' + 1 := ⟨n - 1, by simp at hlen; omega⟩
    have hz' : strRead m a = some 0#8 := by simpa using hz
    simp [scanString, hz']
  | cons b bytes ih =>
    obtain ⟨n, rfl⟩ : ∃ n', n = n' + 1 := ⟨n - 1, by simp at hlen; omega⟩
    obtain ⟨h0, hne⟩ := hb 0 (by simp)
    have h0' : strRead m a = some b := by simpa using h0
    have hne' : b ≠ 0#8 := by simpa using hne
    have hrec : scanString m n (a + 1) = .found bytes := by
      refine ih (by simpa using hlen) (fun k hk => ?_) ?_
      · have := hb (k + 1) (by simpa using hk)
        simpa [Nat.add_assoc, Nat.add_comm 1 k] using this
      · simpa [Nat.add_assoc, Nat.add_comm 1] using hz
    simp [scanString, h0', hne', hrec, StringScan.cons]

/-- A scan over written bytes with no 0x00 finds no terminator (spec/42_text.md R180). -/
theorem scanString_unterminated {m : Memory} {n a : Nat}
    (hb : ∀ k, k < n → ∃ b, strRead m (a + k) = some b ∧ b ≠ 0#8) : scanString m n a = .unterminated := by
  induction n generalizing a with
  | zero => rfl
  | succ n ih =>
    obtain ⟨b, h0, hne⟩ := hb 0 (by omega)
    have h0' : strRead m a = some b := by simpa using h0
    have hrec : scanString m n (a + 1) = .unterminated := by
      refine ih fun k hk => ?_
      simpa [Nat.add_assoc, Nat.add_comm 1 k] using hb (k + 1) (by omega)
    simp [scanString, h0', hne, hrec, StringScan.cons]

/-- A scan that meets an unwritten byte before any 0x00 stops there (spec/70_reset_and_hazards.md R265). -/
theorem scanString_unwritten {m : Memory} {n a k : Nat} (hk : k < n)
    (hb : ∀ j, j < k → ∃ b, strRead m (a + j) = some b ∧ b ≠ 0#8) (hu : strRead m (a + k) = none) :
    scanString m n a = .unwritten (a + k) := by
  induction k generalizing n a with
  | zero =>
    obtain ⟨n, rfl⟩ : ∃ n', n = n' + 1 := ⟨n - 1, by omega⟩
    have hu' : strRead m a = none := by simpa using hu
    simp [scanString, hu']
  | succ k ih =>
    obtain ⟨n, rfl⟩ : ∃ n', n = n' + 1 := ⟨n - 1, by omega⟩
    obtain ⟨b, h0, hne⟩ := hb 0 (by omega)
    have h0' : strRead m a = some b := by simpa using h0
    have hrec : scanString m n (a + 1) = .unwritten (a + 1 + k) := by
      refine ih (by omega) (fun j hj => ?_) ?_
      · simpa [Nat.add_assoc, Nat.add_comm 1 j] using hb (j + 1) (by omega)
      · simpa [Nat.add_assoc, Nat.add_comm 1 k] using hu
    simp [scanString, h0', hne, hrec, StringScan.cons, Nat.add_comm 1 k, Nat.add_assoc]

/-- A string found is shorter than the scanned range (spec/42_text.md R181). -/
theorem length_of_found {m : Memory} {n a : Nat} {bytes : List Byte} (h : scanString m n a = .found bytes) :
    bytes.length < n := by
  induction n generalizing a bytes with
  | zero => simp [scanString] at h
  | succ n ih =>
    unfold scanString at h
    split at h
    · cases h
    · split at h
      · cases h
        simp
      · cases hs : scanString m n (a + 1) with
        | found bs =>
          rw [hs, StringScan.cons] at h
          cases h
          simpa using ih hs
        | unterminated => simp [hs, StringScan.cons] at h
        | unwritten k => simp [hs, StringScan.cons] at h

/-- Everything a string command can do when it answers a next state (spec/60_exceptions.md R233). -/
theorem withString_cases {null : Bool} {a : BitVec 12} {run : Font → List Byte → State → State} {s t : State}
    (h : withString null a run s = .next t) :
    ((activeFont s = none ∨ null = true) ∧ t = setResult 0 s) ∨
    (∃ f, activeFont s = some f ∧ null = false ∧ readString s.strmem (size a) = .unterminated ∧
      t = raiseErr .unterminatedString s) ∨
    (∃ f bytes, activeFont s = some f ∧ null = false ∧ readString s.strmem (size a) = .found bytes ∧
      t = setResult (advance f bytes) (run f bytes s)) := by
  unfold withString at h
  split at h
  · rename_i hf
    cases h
    exact .inl ⟨.inl hf, rfl⟩
  · rename_i f hf
    split at h
    · rename_i hn
      cases h
      exact .inl ⟨.inr hn, rfl⟩
    · rename_i hn
      have hn' : null = false := by simpa using hn
      split at h
      · cases h
      · rename_i hs
        cases h
        exact .inr (.inl ⟨f, hf, hn', hs, rfl⟩)
      · rename_i bytes hs
        cases h
        exact .inr (.inr ⟨f, bytes, hf, hn', hs, rfl⟩)

end Sys2Proof.Machine
end

