-- ==== Sys2Proof/Tests/Slice0.lean ====
section
/-! SUPPORT. Small tests of the model. Every expected value is copied from spec/, whose vector is named in the comment;
then one witness for each statement with hypotheses. -/

namespace Sys2Proof.Tests

open Machine

set_option Elab.async false

/-! ## Helpers -/

/-- Configuration B of spec/95_test_vectors.md section 0. -/
def cfgB : Config := { Config.exampleA with W := 8, H := 16, colOffset := 2, comPins := 0x02 }

/-- Reset (configuration A) with font `n` selected and these STRMEM bytes written. -/
def withText (n : BitVec 12) (strmem : Memory) : State := { State.reset with fontSel := some n, strmem := strmem }

/-- The outcome is a next state that passes `p`. -/
def goesOn (r : Result) (p : State → Bool) : Bool :=
  match r with
  | .next t => p t
  | .fault _ => false
  | .refused _ => false

/-- The outcome is this fault. -/
def faultsWith (r : Result) (f : Fault) : Bool :=
  match r with
  | .fault g => g == f
  | .next _ => false
  | .refused _ => false

/-- The word decodes to this command. -/
def decodesTo (w : CmdWord) (i : Instr) : Bool :=
  match decode w with
  | .ok j => j == i
  | .error _ => false

/-- The word is rejected with this error. -/
def rejected (w : CmdWord) (e : DecodeError) : Bool :=
  match decode w with
  | .ok _ => false
  | .error d => d == e

/-- What one host access gives. -/
def after (a : HostAccess) (s : State) : Result := step { s with host := [a] }

/-- The FB and DIRTY after one command. -/
def draws (i : Instr) (s : State) (fb : Memory) (top left right bottom : BitVec 8) : Bool :=
  goesOn (exec i s) fun t => t == { s with fb := fb, dirty := ⟨top, left, right, bottom⟩ }

/-- A command record of configurations A and B. -/
def rec (b : Byte) : BusRecord := .command 0x3C 0x00 b

/-! ## WellFormed: each check refuses an ill-formed term -/

theorem test_wf_null_address_colour : (Instr.drawStringColor .white .black true 0 0 5).wf = false := by decide
theorem test_wf_null_address_string : (Instr.drawString true 0 0 5).wf = false := by decide
theorem test_wf_null_address_measure : (Instr.measureString true 5).wf = false := by decide
theorem test_wf_null : (Instr.measureString true 0).wf = true := by decide
theorem test_wf_address : (Instr.measureString false 5).wf = true := by decide

/-! ## Decoding: the words of spec/95_test_vectors.md section 2.1, one for each command and form -/

theorem test_word_nop : decodesTo 0x0000000000000000 .nop := by decide
theorem test_word_clear : decodesTo 0x0100000000000000 .clear := by decide
theorem test_word_markDirty : decodesTo 0x0200003004000000 (.markDirty 3 4) := by decide
theorem test_word_setPixel : decodesTo 0x0340000000000000 (.setPixel .white 0 0) := by decide
theorem test_word_drawHline : decodesTo 0x1080FFD00500A000 (.drawHline .invert (-3) 5 10) := by decide
theorem test_word_drawVline : decodesTo 0x114000200500D000 (.drawVline .white 2 5 13) := by decide
theorem test_word_drawRect : decodesTo 0x1240002003004005 (.drawRect .white 2 3 4 5) := by decide
theorem test_word_fillRect : decodesTo 0x1340000006002004 (.fillRect .white 0 6 2 4) := by decide
theorem test_word_drawCircle : decodesTo 0x144000A00A005000 (.drawCircle .white 10 10 5) := by decide
theorem test_word_fillCircle : decodesTo 0x158000A00A005000 (.fillCircle .invert 10 10 5) := by decide
theorem test_word_selectFont : decodesTo 0x2000000000001000 (.selectFont 1) := by decide
theorem test_word_drawChar : decodesTo 0x2140001002021000 (.drawChar .white .black 1 2 0x21) := by decide
theorem test_word_drawStringColor_null :
    decodesTo 0x2271000000000000 (.drawStringColor .white .transparent true 0 0 0) := by decide
theorem test_word_drawStringColor :
    decodesTo 0x2270000000000000 (.drawStringColor .white .transparent false 0 0 0) := by decide
theorem test_word_drawString : decodesTo 0x2300005000000000 (.drawString false 5 0 0) := by decide
theorem test_word_drawString_null : decodesTo 0x2301000000000000 (.drawString true 0 0 0) := by decide
theorem test_word_measureString : decodesTo 0x2400000000123000 (.measureString false 0x123) := by decide
theorem test_word_refresh : decodesTo 0x3000000000000000 (.refresh false) := by decide
theorem test_word_refresh_force : decodesTo 0x3001000000000000 (.refresh true) := by decide
theorem test_word_sendCmd1 : decodesTo 0x31000000000AF000 (.sendCmd1 0xAF) := by decide
theorem test_word_sendCmd2 : decodesTo 0x32000000000810CF (.sendCmd2 0x81 0xCF) := by decide
theorem test_word_clearStatus : decodesTo 0x3F00000000000000 .clearStatus := by decide

/-! The rejected words REJ-1 to REJ-13 of spec/95_test_vectors.md section 2.3. -/

theorem test_word_undefined : rejected 0x0400000000000000 .illegalOpcode ∧ rejected 0xFFFFFFFFFFFFFFFF .illegalOpcode ∧
    rejected 0x0402000000000000 .illegalOpcode := by decide
theorem test_word_reserved : rejected 0x0000000000000001 .reservedField ∧ rejected 0x0350000000000000 .reservedField ∧
    rejected 0x2100000000121000 .reservedField ∧ rejected 0x2301000000005000 .reservedField ∧
    rejected 0x1042000000003000 .reservedField ∧ rejected 0x3F00000000000001 .reservedField ∧
    rejected 0x2340000000000000 .reservedField ∧ rejected 0x3000001000000000 .reservedField ∧
    rejected 0x31000000001AF000 .reservedField ∧ rejected 0x32000000000811CF .reservedField := by decide

/-- The words placed by the host's numbering (spec/opcode_table.json). -/
theorem test_decodeTableWord : decodeTableWord 64 0x1080FFD00500A000 = some (.drawHline .invert (-3) 5 10) ∧
    decodeTableWord 64 0x0400000000000000 = none := by decide

/-! ## The text syntax and the pseudo-instructions (spec/30_encoding.md R90, R91; spec/70_reset_and_hazards.md R262) -/

theorem test_assemble : assemble (.drawHline (-3) 5 10 .invert) = some (.drawHline .invert (-3) 5 10) ∧
    assemble (.drawHline 2048 5 10 .invert) = none ∧ assemble (.sendCmd1 256) = none := by decide
theorem test_pseudo : (Pseudo.rotate true).expand.map encode = [0x31000000000A0000, 0x31000000000C0000] ∧
    (Pseudo.setContrast 0xCF).expand.map encode = [0x32000000000810CF] := by decide
/-- Program P1, words 1 to 10, for H = 16 and COM_PINS = 0x02. -/
theorem test_boot : (bootProgram cfgB 0x8F).map encode =
    [0x32000000000A800F, 0x32000000000D3000, 0x3100000000040000, 0x31000000000A1000, 0x31000000000C8000,
     0x32000000000DA002, 0x320000000008108F, 0x320000000008D014, 0x3200000000020000, 0x32000000000D90F1] := by decide

/-! ## Framebuffer and dirty rectangle (spec/95_test_vectors.md section 3) -/

/-- FB-8. -/
theorem test_clear : draws .clear { State.reset with fb := [(133, 0x02)], dirty := ⟨9, 5, 5, 9⟩ } [] 0 0 127 63 := by
  decide +kernel
/-- FB-10, the second command. -/
theorem test_markDirty : draws (.markDirty 100 2) { State.reset with dirty := ⟨40, 3, 3, 40⟩ } [] 2 3 100 40 := by
  decide +kernel
/-- FB-9, the second command: off the panel. -/
theorem test_markDirty_off : draws (.markDirty (-1) 10) { State.reset with dirty := ⟨4, 3, 3, 4⟩ } [] 4 3 3 4 := by
  decide +kernel
/-- FB-2: the last byte, bit 7. -/
theorem test_setPixel : draws (.setPixel .white 127 63) State.reset [(1023, 0x80)] 63 127 127 63 := by decide +kernel
/-- FB-6, black on a lit bit; FB-4, transparent marks. -/
theorem test_setPixel_colours : draws (.setPixel .black 0 1) { State.reset with fb := [(0, 0x0F)] } [(0, 0x0D)] 1 0 0 1 ∧
    draws (.setPixel .transparent 5 5) State.reset [] 5 5 5 5 := by decide +kernel

/-! ## Primitives (spec/95_test_vectors.md sections 1 and 4) -/

/-- HL-1. -/
theorem test_drawHline : draws (.drawHline .white (-3) 9 6) State.reset [(128, 2), (129, 2), (130, 2)] 9 0 2 9 := by
  decide +kernel
/-- HL-7: wholly off to the left. -/
theorem test_drawHline_off : draws (.drawHline .white (-10) 3 5) State.reset [] 0xFF 0xFF 0 0 := by decide +kernel
/-- E4, invert. -/
theorem test_drawVline : draws (.drawVline .invert 2 5 13)
    { State.reset with fb := [(2, 0x5A), (130, 0x5A), (258, 0x5A)] } [(2, 0xBA), (130, 0xA5), (258, 0x59)] 5 2 2 17 := by
  decide +kernel
/-- VL-1 by the byte-batched form of spec/41_primitives.md R143. -/
theorem test_vlineBatched : vlineBatched Config.exampleA .white 2 5 13 ⟨[], Dirty.sentinel⟩ =
    ⟨[(2, 0xE0), (130, 0xFF), (258, 0x03)], ⟨5, 2, 2, 17⟩⟩ := by decide +kernel
/-- RC-1: the corners cancel. -/
theorem test_drawRect : draws (.drawRect .invert 1 1 4 3) State.reset [(1, 0x04), (2, 0x0A), (3, 0x0A), (4, 0x04)]
    1 1 4 3 := by decide +kernel
/-- RC-8: height 0. -/
theorem test_drawRect_flat : draws (.drawRect .white 5 5 3 0) State.reset [(5, 0x30), (6, 0x30), (7, 0x30)] 4 5 7 5 := by
  decide +kernel
/-- FR-1. -/
theorem test_fillRect : draws (.fillRect .white 0 6 2 4) State.reset [(0, 0xC0), (1, 0xC0), (128, 3), (129, 3)]
    6 0 1 9 := by decide +kernel
/-- FR-5: clipped at the top left. -/
theorem test_fillRect_clipped : draws (.fillRect .white (-2) (-2) 4 4) State.reset [(0, 3), (1, 3)] 0 0 1 1 := by
  decide +kernel
/-- L1-5: the plots, in the order of the rule. -/
theorem test_circlePoints : circlePoints 10 10 5 =
    [(5, 10), (15, 10), (10, 5), (10, 15),
     (15, 11), (5, 11), (15, 9), (5, 9), (11, 15), (9, 15), (11, 5), (9, 5),
     (15, 12), (5, 12), (15, 8), (5, 8), (12, 15), (8, 15), (12, 5), (8, 5),
     (14, 13), (6, 13), (14, 7), (6, 7), (13, 14), (7, 14), (13, 6), (7, 6)] := by decide +kernel
/-- CI-6: clipped at the top. -/
theorem test_drawCircle : draws (.drawCircle .white 10 (-4) 5) State.reset
    [(7, 1), (8, 2), (9, 2), (10, 2), (11, 2), (12, 2), (13, 1)] 0 7 13 1 := by decide +kernel
/-- FC-5: how many plots each of the two fills makes. -/
theorem test_fillCircle_plots : (fillCirclePoints 10 10 5 .white).length = 103 ∧
    (fillCirclePoints 10 10 5 .invert).length = 97 := by decide +kernel
/-- FC-1 under Invert: the three by three square. -/
theorem test_fillCircle : draws (.fillCircle .invert 10 10 1) State.reset [(137, 0x0E), (138, 0x0E), (139, 0x0E)]
    9 9 11 11 := by decide +kernel

/-! ## Text (spec/95_test_vectors.md section 5) -/

/-- SF-3, and SF-1: an id outside the table. -/
theorem test_selectFont : goesOn (exec (.selectFont 0) State.reset) (fun t => t.fontSel == some 0) ∧
    goesOn (exec (.selectFont 7) (withText 1 [])) (fun t => t.fontSel == some 1) := by decide +kernel
/-- CH-2. -/
theorem test_drawChar : goesOn (exec (.drawChar .white .black 1 2 0x21) (withText 0 [])) fun t =>
    t.fb == [(1, 0x5C)] && t.dirty == ⟨2, 1, 1, 6⟩ && t.result == 1 := by decide +kernel
/-- CH-13: a glyph of two bytes a row, clipped. -/
theorem test_drawChar_clipped : goesOn (exec (.drawChar .white .black 126 62 0x21) (withText 1 [])) fun t =>
    t.fb == [(1022, 0x40), (1023, 0x80)] && t.dirty == ⟨62, 126, 127, 63⟩ && t.result == 9 := by decide +kernel
/-- ST-5: an Invert background. -/
theorem test_drawStringColor : goesOn (exec (.drawStringColor .white .invert false 3 3 0)
    (withText 0 [(0, 0x41), (1, 0x21), (2, 0x41), (3, 0x00)])) fun t =>
    t.fb == [(7, 0xB8)] && t.dirty == ⟨3, 7, 7, 7⟩ && t.result == 9 := by decide +kernel
/-- ST-8: the null string. -/
theorem test_drawStringColor_null : goesOn (exec (.drawStringColor .white .transparent true 0 0 0)
    { withText 0 [] with result := 9 }) fun t => t == { withText 0 [] with result := 0 } := by decide +kernel
/-- ST-3. -/
theorem test_drawString : goesOn (exec (.drawString false 5 0 0) (withText 0 [(0, 0x21), (1, 0x00)])) fun t =>
    t.fb == [(5, 0x17)] && t.dirty == ⟨0, 5, 5, 4⟩ && t.result == 1 := by decide +kernel
/-- ST-10: no terminator. RESULT keeps its value. -/
theorem test_drawString_unterminated : goesOn (exec (.drawString false 0 0 4094)
    { withText 0 [(4094, 0x21), (4095, 0x21)] with result := 9 }) fun t =>
    t.status == 0x302 && t.result == 9 && t.fb == [] := by decide +kernel
/-- ST-4. -/
theorem test_measureString : goesOn (exec (.measureString false 0)
    (withText 0 [(0, 0x41), (1, 0x21), (2, 0x41), (3, 0x00)])) fun t => t.result == 9 && t.fb == [] := by decide +kernel
/-- ST-13. -/
theorem test_measureString_unwritten :
    faultsWith (exec (.measureString false 0) (withText 0 [(0, 0x21), (1, 0x21)])) (.uninitStrmem 2) := by decide +kernel

/-! ## The bus (spec/95_test_vectors.md section 6) -/

/-- A state of configuration B whose transport answers as given. -/
def onB (answers : List BusAnswer) : State := { State.resetOf cfgB with answers := answers }

/-- R-2: the full path. -/
theorem test_refresh_full : goesOn (exec (.refresh true) (onB (List.replicate 7 .ok))) fun t =>
    t.trace == [rec 0x21, rec 0x02, rec 0x09, rec 0x22, rec 0x00, rec 0x01, .data 0x3C 0x40 (List.replicate 16 0x00)]
      && t.status == 0 && t.dirty == Dirty.sentinel := by decide +kernel
/-- R-3 with the answers of BF-1: the partial path, all of it sent although one transaction fails. -/
theorem test_refresh_partial : goesOn (exec (.refresh false)
    { onB [.ok, .ok, .ok, .ok, .ok, .fail, .ok, .ok] with fb := [(5, 0x04), (11, 0x02)], dirty := ⟨2, 3, 5, 9⟩ }) fun t =>
    t.trace == [rec 0x21, rec 0x05, rec 0x07, rec 0x22, rec 0x00, rec 0x01,
      .data 0x3C 0x40 [0x00, 0x00, 0x04], .data 0x3C 0x40 [0x02, 0x00, 0x00]]
      && t.status == 0x404 && t.dirty == Dirty.sentinel := by decide +kernel
/-- DC-1. -/
theorem test_sendCmd1 : goesOn (exec (.sendCmd1 0xAF) (onB [.ok])) fun t =>
    t == { onB [] with trace := [rec 0xAF] } := by decide +kernel
/-- A transaction never answered (spec/70_reset_and_hazards.md R266). -/
theorem test_sendCmd1_stuck : faultsWith (exec (.sendCmd1 0xAF) (onB [.never])) .transportStuck := by decide +kernel
/-- DC-2: the second byte is still sent. -/
theorem test_sendCmd2 : goesOn (exec (.sendCmd2 0x81 0xCF) (onB [.fail, .ok])) fun t =>
    t == { onB [] with trace := [rec 0x81, rec 0xCF], status := 0x404 } := by decide +kernel
/-- EX-7. -/
theorem test_clearStatus : goesOn (exec .clearStatus { State.reset with status := 0x404, result := 9 }) fun t =>
    t == { State.reset with result := 9 } := by decide +kernel
/-- FB-7. -/
theorem test_nop : goesOn (exec .nop (onB [.fail])) fun t => t == onB [.fail] := by decide +kernel

/-! ## Steps, the host window and reset (spec/95_test_vectors.md sections 7 and 8) -/

theorem test_reset_memory : Memory.wf fbUnlisted 1024 State.reset.fb ∧
    Memory.wf strUnlisted strBytes State.reset.strmem := by decide
/-- RS-1 to RS-8. -/
theorem test_reset_reads : [0x00, 0x04, 0x08, 0x0C, 0x10, 0x14, 0x18, 0x1C, 0x20].map (fun a =>
    match after (.read a .word) State.reset with | .next t => t.reads | .fault _ => [] | .refused _ => []) =
    [[0], [0], [0], [0], [0x0000FFFF], [0], [0x00400080], [0x0012003C], [2]] := by decide +kernel
/-- RS-9 and RS-10: not decoded, misaligned. -/
theorem test_undecoded_reads : [(0x0024, Width.word), (0x0FFC, .word), (0x2000, .byte), (0x0009, .word)].all (fun a =>
    goesOn (after (.read a.1 a.2) State.reset) fun t => t.reads == [0]) := by decide +kernel
/-- RS-12: a little-endian word. -/
theorem test_word_write : goesOn (after (.write 0x1000 .word 0x00222221) State.reset) fun t =>
    t.strmem == [(0, 0x21), (1, 0x22), (2, 0x22), (3, 0x00)] := by decide +kernel
/-- RS-17 and RS-11: writes that are ignored. -/
theorem test_ignored_writes :
    goesOn (after (.write 0x0004 .half 0x0100) State.reset) (fun t => t == State.reset) ∧
    goesOn (after (.write 0x0010 .word 0x12345678) State.reset) (fun t => t == State.reset) := by decide +kernel
/-- RS-16 on a low word left in CMD_LO (spec/70_reset_and_hazards.md R267), here with FB-2's word. -/
theorem test_step_command : goesOn (after (.write 0x0004 .word 0x034007F0) { State.reset with cmdLo := 0x3F000000 })
    fun t => t.fb == [(1023, 0x80)] && t.cmdHi == 0x034007F0 && t.cmdLo == 0x3F000000 := by decide +kernel
/-- EX-2: the second word of the sequence. -/
theorem test_step_rejected : goesOn (after (.write 0x0004 .word 0x03500030)
    { State.reset with cmdLo := 0x07000000, status := 0x101 }) fun t =>
    t.status == 0x201 && t.fb == [] && t.dirty == Dirty.sentinel := by decide +kernel
/-- The placed word is the one the next step runs: DC-1's word. -/
theorem test_withFetchWord : goesOn (step ({ State.reset with answers := [.ok] }.withFetchWord 64 0x31000000000AF000))
    fun t => t.trace == [rec 0xAF] && t.host == [] := by decide +kernel
/-- Reset between commands (spec/70_reset_and_hazards.md R260). -/
theorem test_reset_event : goesOn (after .reset { withText 0 [(0, 0x21)] with fb := [(0, 1)], status := 0x101 }) fun t =>
    t == State.reset := by decide +kernel
/-- A panel of no columns is refused (spec/60_exceptions.md R249). -/
theorem test_illegal_configuration :
    (match step { State.reset with cfg := { Config.exampleA with W := 0 } } with
      | .refused r => r == .illegalConfiguration
      | .next _ => false
      | .fault _ => false) = true := by decide +kernel

/-! ## Witnesses: states and operands that meet the hypotheses of the statements, clause by clause -/

theorem eq_of_goesOn {r : Result} {t : State} (h : goesOn r (fun u => u == t) = true) : r = .next t := by
  cases r <;> simp_all [goesOn]

theorem eq_of_faultsWith {r : Result} {f : Fault} (h : faultsWith r f = true) : r = .fault f := by
  cases r <;> simp_all [faultsWith]

/-- A state of configuration B in the middle of a run: a lit pixel, font T0, a failed transaction recorded, `!` with its
terminator in the first and in the last two bytes of STRMEM. -/
def busy (host : List HostAccess) (answers : List BusAnswer) : State :=
  { State.resetOf cfgB with
    fb := [(3, 0x10)], dirty := ⟨4, 3, 3, 4⟩, fontSel := some 0, status := 0x404,
    strmem := [(0, 0x21), (1, 0x00), (4094, 0x21), (4095, 0x00)], host := host, answers := answers }

theorem legal_cfgB : legal cfgB = true := by decide

theorem inv_busy (host : List HostAccess) (answers : List BusAnswer) : StateInv (busy host answers) where
  cfg := legal_cfgB
  fb := show Memory.wf fbUnlisted (fbBytes cfgB) [(3, 0x10)] by decide
  strmem := show Memory.wf strUnlisted 4096 [(0, 0x21), (1, 0x00), (4094, 0x21), (4095, 0x00)] by decide
  dirty := .inr (show (3 : Nat) ≤ 3 ∧ 3 < 8 ∧ 4 ≤ 4 ∧ 4 < 16 by decide)
  fontSel := by
    intro n h
    cases h
    show (0#12).toNat < numFonts cfgB
    decide
  status := ⟨show (0x404 : Reg32) &&& statusReserved = 0 by decide, show (lastErr 0x404).toNat ≤ 4 by decide,
    show lastErr 0x404 = 0 ↔ (errIllegal 0x404 = false ∧ errString 0x404 = false ∧ errBus 0x404 = false) by decide⟩

theorem active_busy : Active (busy [] []) fontT0 := ⟨0, rfl, rfl⟩

theorem witness_SpecWordsDecode : (AsmLine.refreshForce, Instr.refresh true, 0x3001000000000000#64) ∈
    [(AsmLine.refreshForce, Instr.refresh true, 0x3001000000000000#64)] := by decide
theorem witness_CommandWordLayout :
    (0b10#2, Colour.invert) ∈ [(0b00#2, Colour.black), (0b01#2, Colour.white), (0b10#2, Colour.invert), (0b11#2, Colour.transparent)] ∧
    (0b11#2, Colour.transparent) ∈ [(0b00#2, Colour.black), (0b01#2, Colour.white), (0b10#2, Colour.invert), (0b11#2, Colour.transparent)] ∧
    (1#1, true) ∈ [(0#1, false), (1#1, true)] ∧ (1#1 = 0#1 ∨ 0#12 = 0#12) ∧ (0#1 = 0#1 ∨ 0xFFF#12 = 0#12) := by decide
theorem witness_DecodeOfEncode : (Instr.drawString true (-2048) 2047 0).wf = true ∧
    (Instr.drawString false (-2048) 2047 4095).wf = true := by decide
theorem witness_EncodeOfDecode : decode 0x13C0FFFFFFFFFFFF = .ok (.fillRect .transparent (-1) (-1) 4095 4095) := by decide
theorem witness_DecodeAgreesWithOpcodeTable :
    (Op.drawString, (0x2300000000000000 : CmdWord), (0xFFFE000000000FFF : CmdWord)) ∈ opcodeRows ∧
    (0x2301000000005000 : CmdWord).getLsbD 48 = true ∧ Op.drawString.isString = true := by decide
theorem witness_StepRunsTheDecodedCommand :
    legal cfgB = true ∧ (busy [.write 0x0004 .word 0x34000300, .reset] []).host = .write 0x0004 .word 0x34000300 :: [.reset] ∧
    decode (0x03400030#32 ++ (State.resetOf cfgB).cmdLo) = .ok (.setPixel .white 3 0) ∧
    (0x0340003009000000 : Nat) < 2 ^ 64 ∧ decode (BitVec.ofNat 64 0x0340003009000000) = .ok (.setPixel .white 3 9) := by
  decide
theorem witness_RejectingErrorsChangeOnlyStatus :
    legal cfgB = true ∧ decode (0x04020000#32 ++ (State.resetOf cfgB).cmdLo) = .error .illegalOpcode ∧
    decode (0x03500000#32 ++ (State.resetOf cfgB).cmdLo) = .error .reservedField := by decide
theorem witness_RejectingErrorsChangeOnlyStatus_string :
    Active (withText 0 [(4095, 0x21)]) fontT0 ∧ NoTerminator (withText 0 [(4095, 0x21)]).strmem 4095 := by
  refine ⟨⟨0, rfl, rfl⟩, fun k h1 h2 => ?_⟩
  have : k = 4095 := by
    simp only [strBytes] at h2
    omega
  subst this
  exact ⟨0x21, by decide, by decide⟩
theorem witness_ResetState : legal (busy [.reset, .reset] []).cfg = true ∧
    (busy [.reset, .reset] []).host = .reset :: [.reset] := by decide
theorem witness_InvHoldsAtReset : legal cfgB = true := legal_cfgB
theorem witness_EveryStepKeepsInv : StateInv (busy [.write 0x1001 .byte 0x22] []) ∧
    step (busy [.write 0x1001 .byte 0x22] []) =
      .next { busy [] [] with strmem := [(0, 0x21), (1, 0x22), (4094, 0x21), (4095, 0x00)] } :=
  ⟨inv_busy _ _, eq_of_goesOn (by decide +kernel)⟩
theorem witness_FaultsHaveNamedCauses : StateInv (busy [] [.ok, .never]) ∧
    exec (.measureString false 2) (busy [] [.ok, .never]) = .fault (.uninitStrmem 2) ∧
    exec (.sendCmd2 1 2) (busy [] [.ok, .never]) = .fault .transportStuck :=
  ⟨inv_busy _ _, eq_of_faultsWith (by decide +kernel), eq_of_faultsWith (by decide +kernel)⟩
theorem witness_OnlyNamedCommandsWrite : exec (.selectFont 1) (busy [] []) = .next { busy [] [] with fontSel := some 1 } :=
  eq_of_goesOn (by decide +kernel)
theorem witness_StickyBitsStayUntilCleared : (2 : Nat) < 3 ∧ (busy [] []).status.getLsbD 2 = true ∧
    step (busy [.write 0x0004 .word 0] []) = .next (busy [] []) :=
  ⟨by decide, by decide, eq_of_goesOn (by decide +kernel)⟩
theorem witness_HostReadsRegisters : legal (busy [] []).cfg = true ∧ (busy [] []).fontSel = some 0 ∧
    (State.resetOf cfgB).fontSel = none := by decide
theorem witness_UndecodedAccessesDoNothing :
    [(0x0024#16, Width.word), (0x0000#16, Width.byte), (0x0022#16, Width.word), (0x0FFF#16, Width.byte),
     (0x1FFE#16, Width.word), (0x1000#16, Width.half), (0x2000#16, Width.word), (0xFFFF#16, Width.byte)].all (fun a =>
      decide (¬ (a.2 = .word ∧ a.1.toNat % 4 = 0 ∧ a.1.toNat ≤ 0x0020) ∧
        ¬ (0x1000 ≤ a.1.toNat ∧ a.1.toNat ≤ 0x1FFF ∧ (a.2 = .byte ∨ a.2 = .word ∧ a.1.toNat % 4 = 0)))) = true ∧
    legal cfgB = true := by decide
theorem witness_HostWritesStore : legal (busy [] []).cfg = true ∧ (4095 : Nat) < 4096 ∧ (4092 : Nat) < 4096 ∧
    4092 % 4 = 0 ∧ (0x020#16) ∈ [0x008#16, 0x00C#16, 0x010#16, 0x014#16, 0x018#16, 0x01C#16, 0x020#16] := by decide
theorem witness_HostReadsHaveNoSideEffect : legal (busy [] []).cfg = true ∧
    strRead (busy [] []).strmem 4095 = some 0x00 ∧ strRead (busy [] []).strmem (4092 + 3) = some 0x00 ∧
    strRead (busy [] []).strmem 4092 = none := by decide
theorem witness_ColoursActOnMaskedBits : (7 : Nat) < 8 := by decide
theorem witness_PlotsOfOneColour :
    legal cfgB = true ∧ Memory.wf fbUnlisted (fbBytes cfgB) (busy [] []).fb ∧ Colour.black ≠ .invert ∧
    (∀ x y, inPanel cfgB x y = true →
      ((x, y) ∈ [((7 : Int), (15 : Int)), (8, 0), (7, 15)] ↔ (x, y) ∈ [((7 : Int), (15 : Int))])) ∧
    [((7 : Int), (15 : Int)), (8, 0), (7, 15)].Perm [(8, 0), (7, 15), (7, 15)] := by
  refine ⟨by decide, by decide, by decide, fun x y h => ?_, by decide⟩
  have hx : x < 8 := ((inPanel_iff cfgB x y).1 h).1.2
  simp only [List.mem_cons, Prod.mk.injEq, List.not_mem_nil, or_false]
  omega
theorem witness_legal_panel : legal (busy [] []).cfg = true ∧ legal Config.exampleA = true := by decide
theorem witness_MarkDirtyGrowsByOnePoint : legal cfgB = true ∧
    (0 ≤ (7#12).toInt ∧ (7#12).toInt < cfgB.W ∧ 0 ≤ (15#12).toInt ∧ (15#12).toInt < cfgB.H) ∧
    ¬ (0 ≤ (8#12).toInt ∧ (8#12).toInt < cfgB.W ∧ 0 ≤ (15#12).toInt ∧ (15#12).toInt < cfgB.H) ∧
    ¬ (0 ≤ (7#12).toInt ∧ (7#12).toInt < cfgB.W ∧ 0 ≤ (0xFFF#12).toInt ∧ (0xFFF#12).toInt < cfgB.H) := by decide
theorem witness_SetPixelOffPanelChangesNothing : (0xFFF#12).toInt < 0 ∧ (cfgB.W : Int) ≤ (8#12).toInt ∧
    (0x800#12).toInt < 0 ∧ (cfgB.H : Int) ≤ (16#12).toInt := by decide
theorem witness_VlineBatchedEqualsPlots : legal cfgB = true ∧
    Memory.wf fbUnlisted (fbBytes cfgB) (busy [] []).canvas.fb := by decide
theorem witness_WhiteThenBlackLine : legal (busy [] []).cfg = true ∧ ∃ (line : Colour → Instr) (span : Int → Int → Prop),
    line = (fun c => .drawHline c 2 4 3) ∧
      span = (fun px py => (2#12).toInt ≤ px ∧ px < (2#12).toInt + (3#12).toNat ∧ py = (4#12).toInt) ∧ span 3 4 ∧
      inPanel (busy [] []).cfg 3 4 = true ∧ pixel (busy [] []).cfg (busy [] []).fb 3 4 = true :=
  ⟨legal_cfgB, _, _, rfl, rfl, by decide, by decide, by decide⟩
theorem witness_RectInvertKeepsCorners : 2 ≤ (2#12).toNat ∧ 2 ≤ (2#12).toNat ∧ 2 ≤ (4095#12).toNat := by decide
theorem witness_CirclePlotsNoPositionTwice : 1 ≤ 5 ∧ legal Config.exampleA = true ∧
    inPanel Config.exampleA (5 - (5 : Nat)) (58 - (5 : Nat)) = true ∧ inPanel Config.exampleA (5 + (5 : Nat)) (58 + (5 : Nat)) = true ∧
    State.reset.canvas.dirty = Dirty.sentinel := by decide
theorem witness_SelectFontTakesValidIds : (1#12).toNat < (busy [] []).cfg.fonts.length ∧
    (busy [] []).cfg.fonts.length ≤ (2#12).toNat := by decide
theorem witness_DrawCharPaintsItsGlyph : legal (busy [] []).cfg = true ∧ Active (busy [] []) fontT0 :=
  ⟨legal_cfgB, active_busy⟩
theorem witness_DrawCharSubstitutesSpace : Active (busy [] []) fontT0 ∧ (0x1F#8).toNat < fontT0.charStart ∧
    fontT0.charEnd < (0x23#8).toNat := ⟨active_busy, by decide, by decide⟩
theorem witness_NoFontOrNullStringGivesZero : (State.resetOf cfgB).fontSel = none := by decide
theorem stringAt_busy : StringAt (busy [] []).strmem (4094#12).toNat [0x21] := by
  refine ⟨by decide, fun k b h => ?_, by decide⟩
  match k, h with
  | 0, h =>
    cases h
    exact ⟨by decide, by decide⟩
  | k + 1, h => cases h
theorem witness_DrawStringColorPaintsItsText : legal (busy [] []).cfg = true ∧ Active (busy [] []) fontT0 ∧
    StringAt (busy [] []).strmem (4094#12).toNat [0x21] := ⟨legal_cfgB, active_busy, stringAt_busy⟩
theorem witness_MeasureEqualsDraw :
    exec (.measureString false 4094) (busy [] []) = .next { busy [] [] with result := 1 } ∧
    exec (.drawString false 9 0 4094) (busy [] []) = .next { busy [] [] with result := 1 } ∧
    (State.resetOf cfgB).fontSel = none ∧ legal (busy [] []).cfg = true ∧ Active (busy [] []) fontT0 ∧
    StringAt (busy [] []).strmem (4094#12).toNat [0x21] :=
  ⟨eq_of_goesOn (by decide +kernel), eq_of_goesOn (by decide +kernel), by decide, legal_cfgB, active_busy, stringAt_busy⟩
theorem witness_AdvanceEndsAtTheLastCharacter : WellFormedFont fontT0 ∧ ([0x21, 0x22] : List Byte)[1]? = some 0x22 ∧
    ([0x21, 0x22] : List Byte).length ≤ 4095 := by
  refine ⟨⟨by decide, by decide, by decide, by decide, by decide, by decide, by decide, by decide, fun k d h => ?_⟩,
    by decide, by decide⟩
  match k, h with
  | 0, h => cases h; decide
  | 1, h => cases h; decide
  | 2, h => cases h; decide
  | k + 3, h => cases h
theorem witness_UnwrittenStringByteFaults : Active (withText 0 [(4094, 0x21)]) fontT0 ∧ (4094#12).toNat ≤ 4095 ∧
    (4095 : Nat) < 4096 ∧ strRead (withText 0 [(4094, 0x21)]).strmem 4095 = none ∧
    (∀ j, (4094#12).toNat ≤ j → j < 4095 → ∃ b, strRead (withText 0 [(4094, 0x21)]).strmem j = some b ∧ b ≠ 0x00#8) := by
  refine ⟨⟨0, rfl, rfl⟩, by decide, by decide, by decide, fun j h1 h2 => ?_⟩
  have h1' : 4094 ≤ j := h1
  have : j = 4094 := by omega
  subst this
  exact ⟨0x21, by decide, by decide⟩
theorem witness_RefreshSendsTheFullFrame : StateInv (busy [] [.ok, .fail]) ∧ answered 7 (busy [] [.ok, .fail]) ∧
    StateInv { busy [] [] with dirty := ⟨0, 0, 7, 15⟩ } ∧ CoversPanel cfgB ⟨0, 0, 7, 15⟩ :=
  ⟨inv_busy _ _, show BusAnswer.never ∉ [BusAnswer.ok, .fail] by decide,
    { inv_busy [] [] with dirty := .inr (show (0 : Nat) ≤ 7 ∧ 7 < 8 ∧ 0 ≤ 15 ∧ 15 < 16 by decide) },
    show 0 = 0 ∧ 0 = 0 ∧ 7 + 1 = 8 ∧ 15 + 1 = 16 by decide⟩
theorem witness_RefreshSendsTheDirtyPages : StateInv (busy [] [.ok, .fail]) ∧ ¬ CoversPanel cfgB (busy [] []).dirty ∧
    (busy [] []).dirty.isEmpty = false ∧ answered (6 + 1) (busy [] [.ok, .fail]) :=
  ⟨inv_busy _ _, fun h => absurd h.1 (by decide), by decide, show BusAnswer.never ∉ [BusAnswer.ok, .fail] by decide⟩
theorem witness_RefreshOfNothingAndAfterClear : legal (State.resetOf cfgB).cfg = true ∧
    (State.resetOf cfgB).dirty.isEmpty = true ∧
    exec (.refresh false) (State.resetOf cfgB) = .next (State.resetOf cfgB) :=
  ⟨legal_cfgB, by decide, eq_of_goesOn (by decide +kernel)⟩
theorem witness_OnlyRefreshEmptiesDirty : legal (busy [] []).cfg = true ∧ (busy [] []).dirty.isEmpty = false ∧
    exec (.setPixel .transparent 0 0) (busy [] []) = .next { busy [] [] with dirty := ⟨0, 0, 3, 4⟩ } ∧
    ∀ force, Instr.setPixel .transparent 0 0 ≠ .refresh force :=
  ⟨legal_cfgB, by decide, eq_of_goesOn (by decide +kernel), by decide⟩
theorem witness_SendCommandsSendTheirBytes : answered 1 (busy [] [.ok, .fail, .never]) ∧
    answered 2 (busy [] [.ok, .fail, .never]) :=
  ⟨show BusAnswer.never ∉ [BusAnswer.ok] by decide, show BusAnswer.never ∉ [BusAnswer.ok, .fail] by decide⟩
theorem witness_FailedTransactionsAreRecorded :
    exec (.sendCmd2 1 2) (busy [] [.ok, .fail]) =
      .next { busy [] [] with trace := [rec 1, rec 2] } ∧ 2 ≤ (busy [] [.ok, .fail]).answers.length ∧
    BusAnswer.fail ∈ (busy [] [.ok, .fail]).answers.take 2 ∧
    (∀ a ∈ (busy [] [.ok, .ok]).answers.take 2, a = BusAnswer.ok) :=
  ⟨eq_of_goesOn (by decide +kernel), by decide, by decide, by decide⟩
theorem witness_UnansweredTransactionIsStuck : ¬ answered 1 (busy [] [.never]) ∧ ¬ answered 2 (busy [] [.ok, .never]) ∧
    StateInv (busy [] [.ok, .never]) ∧ ¬ answered 7 (busy [] [.ok, .never]) ∧
    ¬ answered (6 + (4 / 8 + 1 - 4 / 8)) (busy [] [.ok, .never]) :=
  ⟨fun h => h (by decide), fun h => h (by decide), inv_busy _ _, fun h => h (by decide), fun h => h (by decide)⟩
theorem witness_LoopState : 1 ≤ 5 ∧ LoopState 5 1 5 := by
  obtain ⟨a, b, e, n, h⟩ := exists_circleRun 5
  have hn : 0 < n := by
    by_contra hn
    have hx := h.exit
    rw [show n = 0 by omega, h.start.1, h.start.2.1] at hx
    norm_num at hx
  exact ⟨by decide, a, b, e, n, 0, h, hn, h.start.1, h.start.2.1⟩
theorem witness_AnswersChangeOnlyStatus : SameButAnswers (busy [] [.ok]) (busy [] [.fail]) ∧
    core.run 1 (busy [.read 0x0008 .word] [.ok]) = .next { busy [] [.ok] with reads := [0x404] } :=
  ⟨rfl, eq_of_goesOn (by decide +kernel)⟩
theorem witness_AnswersChangeOnlyStatus_read :
    SameButAnswers (busy [.read 0x1FFE .byte] [.ok]) (busy [.read 0x1FFE .byte] [.fail]) ∧
    step (busy [.read 0x1FFE .byte] [.ok]) = .next { busy [] [.ok] with reads := [0x21], draws := 1 } ∧
    step (busy [.read 0x1FFE .byte] [.fail]) = .next { busy [] [.fail] with reads := [0x21], draws := 1 } ∧
    ¬ FreeReadByte (busy [.read 0x1FFE .byte] [.ok]) 0x1FFE .byte 0 :=
  ⟨rfl, eq_of_goesOn (by decide +kernel), eq_of_goesOn (by decide +kernel), by
    rintro (⟨h, -⟩ | ⟨-, -, -, h⟩)
    · cases h
    · exact absurd h (by decide)⟩
theorem witness_AnswersChangeOnlyStatus_other :
    ∀ addr width rest, (busy [.write 0x0000 .word 7] [.ok]).host ≠ .read addr width :: rest := by
  intro addr width rest h
  cases h

end Sys2Proof.Tests
end

section
/-! PROOFS. What a command can do, said once (`Effect`); the invariant and the frame of every command read off it; and
the host window. -/

namespace Sys2Proof

open Machine

/-! ## What each command can do -/

/-- The commands that draw and leave RESULT alone (spec/40_framebuffer.md R123, spec/41_primitives.md R140 to R153). -/
def drawOps : List Op :=
  [.setPixel, .drawHline, .drawVline, .drawRect, .fillRect, .drawCircle, .fillCircle]

/-- The commands that may draw and that write RESULT (spec/42_text.md R177, R182, R184, R185). -/
def textDrawOps : List Op := [.drawChar, .drawStringColor, .drawString]

/-- The commands that read a string (spec/42_text.md R182, R184, R185). -/
def stringOps : List Op := [.drawStringColor, .drawString, .measureString]

/-- The commands that send bytes and leave DIRTY alone (spec/43_refresh.md R212, R213). -/
def sendOps : List Op := [.sendCmd1, .sendCmd2]

/-- Everything a command with opcode `op` can make of the state `s`: one constructor per way to end. -/
inductive Effect (s : State) : Op → State → Prop
  | nop : Effect s .nop s
  | clear : Effect s .clear { s with fb := [], dirty := Dirty.full s.cfg }
  | markDirty (x y : Int) : Effect s .markDirty { s with dirty := mark s.cfg x y s.dirty }
  | drawn {op : Op} (hop : op ∈ drawOps) (ps : List PlotCall) : Effect s op (draw ps s)
  | select {id : BitVec 12} (hid : id.toNat < numFonts s.cfg) : Effect s .selectFont { s with fontSel := some id }
  | ignored : Effect s .selectFont s
  | text {op : Op} (hop : op ∈ textDrawOps) (n : Nat) (ps : List PlotCall) : Effect s op (setResult n (draw ps s))
  | measure (n : Nat) : Effect s .measureString (setResult n s)
  | unterminated {op : Op} (hop : op ∈ stringOps) : Effect s op (raiseErr .unterminatedString s)
  | refresh {u : State} {rs : List BusRecord} (h : issueAll rs s = .next u) : Effect s .refresh (emptyDirty u)
  | send {op : Op} (hop : op ∈ sendOps) {t : State} {rs : List BusRecord} (h : issueAll rs s = .next t) :
      Effect s op t
  | clearStatus : Effect s .clearStatus (clearErrors s)

/-- A string command that draws can end in each way of a string command: width 0, unterminated, or drawn. -/
theorem effect_of_withString_draw {op : Op} (hd : op ∈ textDrawOps) (hs : op ∈ stringOps) {null : Bool}
    {a : BitVec 12} {plots : Font → List Byte → List PlotCall} {s t : State}
    (h : withString null a (fun f bytes t => draw (plots f bytes) t) s = .next t) : Effect s op t := by
  obtain ⟨-, rfl⟩ | ⟨-, -, -, -, rfl⟩ | ⟨f, bytes, -, -, -, rfl⟩ := withString_cases h
  · exact .text hd 0 []
  · exact .unterminated hs
  · exact .text hd _ _

theorem effect_of_measureString {null : Bool} {a : BitVec 12} {s t : State}
    (h : execMeasureString null a s = .next t) : Effect s .measureString t := by
  unfold execMeasureString at h
  obtain ⟨-, rfl⟩ | ⟨-, -, -, -, rfl⟩ | ⟨f, bytes, -, -, -, rfl⟩ := withString_cases h
  · exact .measure 0
  · exact .unterminated (by decide)
  · exact .measure _

theorem effect_of_drawChar {fg bg : Colour} {x y : BitVec 12} {code : Byte} {s t : State}
    (h : execDrawChar fg bg x y code s = .next t) : Effect s .drawChar t := by
  unfold execDrawChar at h
  split at h <;> cases h
  · exact .text (by decide) 0 []
  · exact .text (by decide) _ _

theorem effect_of_selectFont {id : BitVec 12} {s t : State}
    (h : execSelectFont id s = .next t) : Effect s .selectFont t := by
  cases h
  split
  next hid => exact .select hid
  · exact .ignored

theorem effect_of_sendAndEmpty {rs : List BusRecord} {s t : State}
    (h : sendAndEmpty rs s = .next t) : Effect s .refresh t := by
  obtain ⟨u, hu, rfl⟩ := sendAndEmpty_cases h
  exact .refresh hu

theorem effect_of_refresh {force : Bool} {s t : State}
    (h : execRefresh force s = .next t) : Effect s .refresh t := by
  unfold execRefresh at h
  split at h
  · exact effect_of_sendAndEmpty h
  · split at h
    · exact effect_of_sendAndEmpty h
    · split at h
      · exact effect_of_sendAndEmpty h
      · cases h

/-- A command that goes on has one of the effects of its opcode. -/
theorem exec_effect {i : Instr} {s t : State} (h : exec i s = .next t) : Effect s i.op t := by
  cases i with
  | nop => cases h; exact .nop
  | clear => cases h; exact .clear
  | markDirty x y => cases h; exact .markDirty _ _
  | setPixel | drawHline | drawVline | drawRect | fillRect | drawCircle | fillCircle =>
    cases h; exact .drawn (by simp [Instr.op, drawOps]) _
  | selectFont id => exact effect_of_selectFont h
  | drawChar fg bg x y code => exact effect_of_drawChar h
  | drawStringColor fg bg null x y a =>
    exact effect_of_withString_draw (by simp [Instr.op, textDrawOps]) (by simp [Instr.op, stringOps]) h
  | drawString null x y a =>
    exact effect_of_withString_draw (by simp [Instr.op, textDrawOps]) (by simp [Instr.op, stringOps]) h
  | measureString null a => exact effect_of_measureString h
  | refresh force => exact effect_of_refresh h
  | sendCmd1 | sendCmd2 => exact .send (by simp [Instr.op, sendOps]) h
  | clearStatus => cases h; exact .clearStatus

/-! ## The invariant, update by update -/

/-- Right after reset the invariant holds: FB and STRMEM list nothing, DIRTY is the sentinel, STATUS is 0. -/
theorem inv_resetOf {c : Config} (h : legal c = true) : StateInv (State.resetOf c) where
  cfg := h
  fb := wf_nil _ _
  strmem := wf_nil _ _
  dirty := .inl rfl
  fontSel := fun _ hn => nomatch hn
  status := statusOk_zero

theorem inv_resetBlock {s : State} (h : StateInv s) : StateInv (resetBlock s) :=
  { inv_resetOf h.cfg with }

theorem inv_draw {s : State} (h : StateInv s) (ps : List PlotCall) : StateInv (draw ps s) :=
  { h with fb := wf_plotAll h.cfg ps h.fb, dirty := dirtyOk_plotAll h.cfg ps h.dirty }

theorem inv_raiseErr {s : State} (h : StateInv s) (e : ErrCode) : StateInv (raiseErr e s) :=
  { h with status := statusOk_statusAfter e h.status }

theorem inv_emptyDirty {s : State} (h : StateInv s) : StateInv (emptyDirty s) :=
  { h with dirty := .inl rfl }

theorem inv_issueAll {rs : List BusRecord} {s t : State} (h : StateInv s) (ht : issueAll rs s = .next t) :
    StateInv t := by
  have hst := statusOk_issueAll ht h.status
  rw [issueAll_cases ht]
  exact { h with status := hst }

/-- No command breaks the invariant. -/
theorem inv_effect {op : Op} {s t : State} (h : StateInv s) (he : Effect s op t) : StateInv t := by
  cases he with
  | nop | ignored => exact h
  | clear => exact { h with fb := wf_nil _ _, dirty := dirtyOk_full h.cfg }
  | markDirty x y => exact { h with dirty := dirtyOk_mark h.cfg x y h.dirty }
  | drawn _ ps => exact inv_draw h ps
  | select hid => exact { h with fontSel := fun n hn => Option.some.inj hn ▸ hid }
  | text _ n ps => exact { inv_draw h ps with }
  | measure n => exact { h with }
  | unterminated _ => exact inv_raiseErr h _
  | refresh hu => exact inv_emptyDirty (inv_issueAll h hu)
  | send _ ht => exact inv_issueAll h ht
  | clearStatus => exact { h with status := statusOk_zero }

theorem inv_hostRead {s : State} (h : StateInv s) (addr : BitVec 16) (width : Width) :
    StateInv (hostRead addr width s) := by
  unfold hostRead
  split <;> exact { h with }

theorem wf_strWordWrite {m : Memory} {a : Nat} (v : Reg32) (h : Memory.wf strUnlisted strBytes m)
    (ha : a + 3 < strBytes) : Memory.wf strUnlisted strBytes (strWordWrite m a v) :=
  wf_strWrite _ (wf_strWrite _ (wf_strWrite _ (wf_strWrite _ h (by omega)) (by omega)) (by omega)) ha

theorem inv_hostStore {s : State} (h : StateInv s) (addr : BitVec 16) (width : Width) (v : Reg32) :
    StateInv (hostStore addr width v s) := by
  unfold hostStore
  split
  · exact { h with }
  · exact { h with }
  · exact h
  next ht => exact { h with strmem := wf_strWrite _ h.strmem (strByte_lt ht) }
  next ht => exact { h with strmem := wf_strWordWrite v h.strmem (strWord_lt ht) }
  · exact h

theorem inv_runCommand {s t : State} (h : StateInv s) (ht : runCommand s = .next t) : StateInv t := by
  cases hd : decode (s.cmdHi ++ s.cmdLo) with
  | ok i =>
    rw [runCommand_ok hd] at ht
    exact inv_effect h (exec_effect ht)
  | error e =>
    rw [runCommand_error hd] at ht
    cases ht
    exact inv_raiseErr h _

theorem inv_hostAccess {a : HostAccess} {s t : State} (h : StateInv s) (ht : hostAccess a s = .next t) :
    StateInv t := by
  cases a with
  | reset => cases ht; exact inv_resetBlock h
  | read addr width => cases ht; exact inv_hostRead h addr width
  | write addr width v =>
    have hstore := inv_hostStore h addr width v
    simp only [hostAccess] at ht
    split at ht
    · exact inv_runCommand hstore ht
    · cases ht
      exact hstore

/-- Settles O12: what a step does is one host access, and each access keeps the invariant. -/
theorem everyStepKeepsInv : Obligations.EveryStepKeepsInv := by
  unfold Obligations.EveryStepKeepsInv
  intro s t h ht
  cases hs : s.host with
  | nil =>
    simp only [step, h.cfg, hs, if_true] at ht
    cases ht
    exact h
  | cons a rest =>
    rw [step_cons h.cfg hs] at ht
    exact inv_hostAccess (s := { s with host := rest }) { h with } ht

/-- Settles O11: `inv_resetOf`, and configuration A is legal. -/
theorem invHoldsAtReset : Obligations.InvHoldsAtReset :=
  ⟨fun _ h => inv_resetOf h, inv_resetOf (by decide)⟩

/-! ## The frame of every command -/

/-- Settles O15: the frame is read off the effects of the opcode. -/
theorem onlyNamedCommandsWrite : Obligations.OnlyNamedCommandsWrite := by
  unfold Obligations.OnlyNamedCommandsWrite
  intro i s t h
  have he := exec_effect h
  generalize i.op = op at he
  cases he with
  | nop | ignored | clear | markDirty | select | measure | clearStatus => simp
  | drawn hop ps =>
    unfold drawOps at hop
    fin_cases hop <;> simp
  | text hop n ps =>
    unfold textDrawOps at hop
    fin_cases hop <;> simp
  | unterminated hop =>
    unfold stringOps at hop
    fin_cases hop <;> simp
  | refresh hu =>
    rw [issueAll_cases hu]
    simp
  | send hop ht =>
    rw [issueAll_cases ht]
    unfold sendOps at hop
    fin_cases hop <;> simp

/-! ## Reset -/

/-- Settles O10: the reset event is the next access, and `resetBlock` leaves these values. -/
theorem resetState : Obligations.ResetState := by
  unfold Obligations.ResetState
  intro s rest hl hs
  exact ⟨resetBlock { s with host := rest }, step_cons hl hs, by simp [Dirty.sentinel]⟩

/-! ## Running a command word -/

/-- The CMD_HI write runs the command that `{CMD_HI, CMD_LO}` decodes to (spec/10_state.md R29). -/
theorem step_cmdHi {s : State} {v : Reg32} {rest : List HostAccess} {i : Instr} (hl : legal s.cfg = true)
    (hs : s.host = .write 0x0004 .word v :: rest) (hd : decode (v ++ s.cmdLo) = .ok i) :
    step s = exec i { s with host := rest, cmdHi := v } := by
  rw [step_cons hl hs, hostAccess_cmdHi]
  exact runCommand_ok hd

/-- The halves of a word put together again are the word. -/
theorem append_halves (w : CmdWord) : (w.extractLsb' 32 32 ++ w.extractLsb' 0 32 : CmdWord) = w :=
  (BitVec.extractLsb'_append_extractLsb'_eq_extractLsb' rfl).trans BitVec.extractLsb'_eq_self

/-- A field of a word given by its value. -/
theorem extractLsb'_ofNat (m k n w : Nat) (h : k + n ≤ m) :
    (BitVec.ofNat m w).extractLsb' k n = BitVec.ofNat n (w / 2 ^ k) := by
  apply BitVec.eq_of_getLsbD_eq
  intro i hi
  simp only [BitVec.getLsbD_extractLsb', BitVec.getLsbD_ofNat, Nat.testBit_div_two_pow, Nat.add_comm k i, hi,
    show i + k < m by omega, decide_true, Bool.true_and]

/-- Settles O8: a placed word is a CMD_HI write with the other half already in CMD_LO. -/
theorem stepRunsTheDecodedCommand : Obligations.StepRunsTheDecodedCommand := by
  unfold Obligations.StepRunsTheDecodedCommand
  refine ⟨fun s v rest i => step_cmdHi, fun s w i hl hw hd => ?_⟩
  have hplace : s.withFetchWord 64 w = placeWord (BitVec.ofNat 64 w) s := by
    rw [State.withFetchWord, Nat.mod_eq_of_lt hw]
  rw [hplace, step_cmdHi (s := placeWord _ s) hl rfl ((congrArg decode (append_halves _)).trans hd)]
  simp [placeWord, extractLsb'_ofNat]

/-! ## Host reads of the registers -/

/-- A host read of a register returns its value and changes nothing else. -/
theorem readsAs_reg {s : State} (hl : legal s.cfg = true) {offset : BitVec 16} {r : HostReg}
    (h : target offset .word = .reg r) : ReadsAs s offset (regValue r s) := by
  intro rest
  have hread : hostRead offset .word { s with host := rest } =
      { s with host := rest, reads := s.reads ++ [regValue r { s with host := rest }] } := by
    simp only [hostRead, h]
  have hvalue : regValue r { s with host := rest } = regValue r s := by cases r <;> rfl
  rw [hvalue] at hread
  exact (step_cons (s := { s with host := _ :: rest }) hl rfl).trans (congrArg Host.Outcome.next hread)

/-- A field of a register, bit by bit. -/
theorem field_eq {v : Reg32} {start len : Nat} {f : BitVec len}
    (h : ∀ i, i < len → v.getLsbD (start + i) = f.getLsbD i) : v.extractLsb' start len = f := by
  apply BitVec.eq_of_getLsbD_eq
  intro i hi
  rw [BitVec.getLsbD_extractLsb', h i hi, decide_eq_true hi, Bool.true_and]

/-- The bytes of DIRTY as the host reads it (spec/10_state.md R31). -/
theorem dirtyValue_fields (d : Dirty) :
    (dirtyValue d).extractLsb' 0 8 = d.top ∧ (dirtyValue d).extractLsb' 8 8 = d.left ∧
      (dirtyValue d).extractLsb' 16 8 = d.right ∧ (dirtyValue d).extractLsb' 24 8 = d.bottom := by
  refine ⟨field_eq fun i hi => ?_, field_eq fun i hi => ?_, field_eq fun i hi => ?_, field_eq fun i hi => ?_⟩ <;>
    · simp only [dirtyValue, BitVec.getLsbD_append]
      grind

/-- FONT_SEL as the host reads it: valid, zeros, the id, zeros (spec/10_state.md R26, R31). -/
theorem fontSelValue_fields (n : BitVec 12) :
    (fontSelValue (some n)).getLsbD 0 = true ∧ (fontSelValue (some n)).extractLsb' 1 7 = 0 ∧
      (fontSelValue (some n)).extractLsb' 8 12 = n ∧ (fontSelValue (some n)).extractLsb' 20 12 = 0 := by
  refine ⟨?_, field_eq fun i hi => ?_, field_eq fun i hi => ?_, field_eq fun i hi => ?_⟩ <;>
    · simp only [fontSelValue, BitVec.getLsbD_append]
      grind

/-- The sizes in CONFIG (spec/10_state.md R31). -/
theorem configValue_fields {c : Config} (hc : legal c = true) :
    ((configValue c).extractLsb' 0 16).toNat = c.W ∧ ((configValue c).extractLsb' 16 16).toNat = c.H := by
  obtain ⟨-, hW, -, -, hH, -, -⟩ := legal_ranges hc
  have hlow : (configValue c).extractLsb' 0 16 = BitVec.ofNat 16 c.W := BitVec.extractLsb'_append_eq_right
  have hhigh : (configValue c).extractLsb' 16 16 = BitVec.ofNat 16 c.H := BitVec.extractLsb'_append_eq_left
  rw [hlow, hhigh]
  exact ⟨Nat.mod_eq_of_lt (by omega), Nat.mod_eq_of_lt (by omega)⟩

/-- The fields of PANEL (spec/10_state.md R31). -/
theorem panelValue_fields {c : Config} (hc : legal c = true) :
    (panelValue c).extractLsb' 0 7 = c.busAddr ∧ (panelValue c).getLsbD 7 = false ∧
      ((panelValue c).extractLsb' 8 8).toNat = c.colOffset ∧ (panelValue c).extractLsb' 16 8 = c.comPins ∧
      (panelValue c).extractLsb' 24 8 = 0 := by
  obtain ⟨hW, -, hoff, -⟩ := legal_ranges hc
  have hcol : (panelValue c).extractLsb' 8 8 = BitVec.ofNat 8 c.colOffset := by
    refine field_eq fun i hi => ?_
    simp only [panelValue, BitVec.getLsbD_append]
    grind
  rw [hcol]
  refine ⟨field_eq fun i hi => ?_, ?_, Nat.mod_eq_of_lt (by omega), field_eq fun i hi => ?_,
    field_eq fun i hi => ?_⟩ <;>
    · simp only [panelValue, BitVec.getLsbD_append]
      grind

/-- NUM_FONTS in FONTS (spec/10_state.md R31). -/
theorem fontsValue_fields {c : Config} (hc : legal c = true) :
    ((fontsValue c).extractLsb' 0 12).toNat = c.fonts.length ∧ (fontsValue c).extractLsb' 12 20 = 0 := by
  obtain ⟨-, -, -, -, -, -, hn⟩ := legal_ranges hc
  have hlow : (fontsValue c).extractLsb' 0 12 = BitVec.ofNat 12 (numFonts c) := BitVec.extractLsb'_append_eq_right
  rw [hlow]
  exact ⟨Nat.mod_eq_of_lt (by omega), BitVec.extractLsb'_append_eq_left⟩

/-- Settles O17: each register reads as its value, and the value has its fields. -/
theorem hostReadsRegisters : Obligations.HostReadsRegisters := by
  unfold Obligations.HostReadsRegisters
  intro s hl
  refine ⟨readsAs_reg (r := .cmdLo) hl rfl, readsAs_reg (r := .cmdHi) hl rfl, readsAs_reg (r := .status) hl rfl,
    readsAs_reg (r := .result) hl rfl, ⟨_, readsAs_reg (r := .dirty) hl rfl, dirtyValue_fields s.dirty⟩,
    fun hnone => ?_, fun n hn => ⟨fontSelValue (some n), ?_, fontSelValue_fields n⟩,
    ⟨_, readsAs_reg (r := .config) hl rfl, configValue_fields hl⟩,
    ⟨_, readsAs_reg (r := .panel) hl rfl, panelValue_fields hl⟩,
    ⟨_, readsAs_reg (r := .fonts) hl rfl, fontsValue_fields hl⟩⟩
  · simpa [regValue, hnone, fontSelValue] using readsAs_reg (r := .fontSel) hl rfl
  · simpa [regValue, hn] using readsAs_reg (r := .fontSel) hl rfl

/-! ## Host writes that only store -/

/-- A step in which the host writes anything but CMD_HI stores and does no more (spec/20_memory.md R56). -/
theorem step_store {s : State} (hl : legal s.cfg = true) (addr : BitVec 16) (width : Width) (v : Reg32)
    (rest : List HostAccess) (h : target addr width ≠ .reg .cmdHi) :
    step { s with host := .write addr width v :: rest } = .next (hostStore addr width v { s with host := rest }) :=
  (step_cons (s := { s with host := _ :: rest }) hl rfl).trans (hostAccess_store v _ (mt target_cmdHi.2 h))

/-- Settles O19: each of these writes only stores, and the store is read back from STRMEM. -/
theorem hostWritesStore : Obligations.HostWritesStore := by
  unfold Obligations.HostWritesStore
  intro s v rest hl
  refine ⟨step_store hl 0x0000 .word v rest (by decide), fun r hr => ?_, fun a ha => ?_, fun a ha h4 => ?_⟩
  · fin_cases hr <;> exact step_store hl _ .word v rest (by decide)
  · have ht := target_byte ha
    refine ⟨strWrite s.strmem a (v.extractLsb' 0 8), ?_, strRead_strWrite_same _ _ _,
      fun a' h => strRead_strWrite_other _ _ h⟩
    rw [step_store hl _ .byte v rest (by simp [ht]), hostStore, ht]
  · have ht := target_word ha h4
    refine ⟨strWordWrite s.strmem a v, ?_, fun k hk => strRead_strWordWrite _ _ _ hk,
      fun a' h => strRead_strWordWrite_other _ _ h⟩
    rw [step_store hl _ .word v rest (by simp [ht]), hostStore, ht]

end Sys2Proof
end

section
/-! PROOFS. Host accesses that reach nothing, and host reads: what they return and that the block stays as it was. -/

namespace Sys2Proof

open Machine

/-! ## Accesses that are not decoded -/

/-- No register stands off the aligned offsets up to FONTS (spec/10_state.md R31). -/
theorem regAt_nothing {offset : Nat} (h : ¬ (offset % 4 = 0 ∧ offset ≤ 0x0020)) : regAt offset = .nothing := by
  have hne : ∀ r, r % 4 = 0 → r ≤ 0x0020 → offset ≠ r := fun r h4 hle he => h (he ▸ ⟨h4, hle⟩)
  simp [regAt, hne]

/-- An access that is neither an aligned word of the registers nor a byte or an aligned word of STRMEM reaches nothing
(spec/20_memory.md R52, R53, R54). -/
theorem target_nothing {addr : BitVec 16} {width : Width}
    (hreg : ¬ (width = .word ∧ addr.toNat % 4 = 0 ∧ addr.toNat ≤ 0x0020))
    (hstr : ¬ (0x1000 ≤ addr.toNat ∧ addr.toNat ≤ 0x1FFF ∧ (width = .byte ∨ width = .word ∧ addr.toNat % 4 = 0))) :
    target addr width = .nothing := by
  unfold target
  split
  · cases width with
    | word => exact regAt_nothing fun h => hreg ⟨rfl, h⟩
    | byte | half | other => rfl
  · split
    next hlo hhi =>
      cases width with
      | byte => exact absurd ⟨by omega, by omega, .inl rfl⟩ hstr
      | word => exact if_neg fun h4 => hstr ⟨by omega, by omega, .inr ⟨rfl, h4⟩⟩
      | half | other => rfl
    · rfl

/-- A step in which the host reads (spec/20_memory.md R58). -/
theorem step_read {s : State} (hl : legal s.cfg = true) (addr : BitVec 16) (width : Width) (rest : List HostAccess) :
    step { s with host := .read addr width :: rest } = .next (hostRead addr width { s with host := rest }) :=
  step_cons (s := { s with host := _ :: rest }) hl rfl

/-- Settles O18: the access reaches nothing, so a read returns 0 and a write neither stores nor starts a command. -/
theorem undecodedAccessesDoNothing : Obligations.UndecodedAccessesDoNothing := by
  unfold Obligations.UndecodedAccessesDoNothing
  intro s addr width v rest hl hreg hstr
  have ht := target_nothing hreg hstr
  constructor
  · rw [step_read hl, hostRead, ht]
  · rw [step_store hl addr width v rest (by simp [ht]), hostStore, ht]

/-! ## Host reads of STRMEM -/

/-- A host read adds one value to those read and may move the counter of free values (spec/20_memory.md R56). -/
theorem hostRead_frame (addr : BitVec 16) (width : Width) (s : State) :
    ∃ v d, hostRead addr width s = { s with reads := s.reads ++ [v], draws := d } := by
  unfold hostRead
  split <;> exact ⟨_, _, rfl⟩

/-- A written byte is what a read of it returns, whatever the free value. -/
theorem strByteOr_written {m : Memory} {a : Nat} {b : Byte} (h : strRead m a = some b) (k : Nat) :
    strByteOr m a k = b := by
  rw [strByteOr, h]

/-- The bytes of a word read from STRMEM, little-endian (spec/20_memory.md R54). -/
theorem strWordValue_byte (m : Memory) (a d : Nat) {k : Nat} (hk : k < 4) :
    (strWordValue m a d).extractLsb' (8 * k) 8 = strByteOr m (a + k) (d + k) := by
  refine field_eq fun i hi => ?_
  simp only [strWordValue, BitVec.getLsbD_append]
  interval_cases k <;> grind

/-- Settles O20: `hostRead_frame`, and the values read from STRMEM are those of `strByteOr` and `strWordValue`. -/
theorem hostReadsHaveNoSideEffect : Obligations.HostReadsHaveNoSideEffect := by
  unfold Obligations.HostReadsHaveNoSideEffect
  intro s rest hl
  refine ⟨fun addr width => ?_, fun a b ha hb => ?_, fun a ha h4 => ?_⟩
  · obtain ⟨v, d, h⟩ := hostRead_frame addr width { s with host := rest }
    exact ⟨v, d, (step_read hl addr width rest).trans (congrArg Host.Outcome.next h)⟩
  · refine ⟨b.zeroExtend 32, s.draws + 1, ?_, BitVec.toNat_setWidth_of_le (by decide)⟩
    rw [step_read hl, hostRead, target_byte ha]
    simp only [strByteOr_written hb]
  · refine ⟨strWordValue s.strmem a s.draws, s.draws + 4, ?_, fun k b hk hb => ?_⟩
    · rw [step_read hl, hostRead, target_word ha h4]
    · rw [strWordValue_byte _ _ _ hk, strByteOr_written hb]

end Sys2Proof
end

section
/-! PROOFS. Encoding (spec/30_encoding.md): decoding said once as an equivalence, the two round trips, the undefined
opcodes, and the opcode table. -/

namespace Sys2Proof

open Machine

/-! ## Decoding, said once -/

/-- A word decodes to a command exactly when its opcode is defined, its fields pass the checks of that opcode, and they
read as the command (spec/30_encoding.md R87). -/
theorem decode_eq_ok_iff {w : CmdWord} {i : Instr} :
    decode w = .ok i ↔
      ∃ op, Op.ofByte (Fields.ofWord w).opc = some op ∧ fieldsOk op (Fields.ofWord w) = true ∧
        (Fields.ofWord w).toInstr op = i := by
  unfold decode
  cases Op.ofByte (Fields.ofWord w).opc with
  | none => simp
  | some op => cases h : fieldsOk op (Fields.ofWord w) <;> simp [h]

/-- A word is rejected as an illegal opcode for its opcode alone (spec/30_encoding.md R87). -/
theorem decode_eq_illegalOpcode_iff {w : CmdWord} :
    decode w = .error .illegalOpcode ↔ Op.ofByte (Fields.ofWord w).opc = none := by
  unfold decode
  cases Op.ofByte (Fields.ofWord w).opc with
  | none => simp
  | some op => cases h : fieldsOk op (Fields.ofWord w) <;> simp [h]

/-- The command read from fields has the opcode they are read by. -/
@[simp] theorem op_toInstr (op : Op) (f : Fields) : (f.toInstr op).op = op := by
  cases op <;> rfl

/-- A word decodes to a command of an opcode exactly when it carries that opcode and its fields pass the checks. -/
theorem decodes_to_op_iff {w : CmdWord} {op : Op} :
    (∃ i, decode w = .ok i ∧ i.op = op) ↔
      Op.ofByte (Fields.ofWord w).opc = some op ∧ fieldsOk op (Fields.ofWord w) = true := by
  simp only [decode_eq_ok_iff]
  constructor
  · rintro ⟨i, ⟨op', hop, hok, rfl⟩, rfl⟩
    rw [op_toInstr]
    exact ⟨hop, hok⟩
  · rintro ⟨hop, hok⟩
    exact ⟨_, ⟨op, hop, hok, rfl⟩, op_toInstr op _⟩

/-- The undefined opcodes are the bytes of these ranges (spec/30_encoding.md R86). -/
theorem opOfByte_eq_none_iff (b : Byte) :
    Op.ofByte b = none ↔
      (0x04 ≤ b.toNat ∧ b.toNat ≤ 0x0F) ∨ (0x16 ≤ b.toNat ∧ b.toNat ≤ 0x1F) ∨
      (0x25 ≤ b.toNat ∧ b.toNat ≤ 0x2F) ∨ (0x33 ≤ b.toNat ∧ b.toNat ≤ 0x3E) ∨ 0x40 ≤ b.toNat := by
  revert b
  decide

/-- The opcode of a word is its top byte (spec/30_encoding.md R80). -/
theorem toNat_opc_ofWord (w : CmdWord) : (Fields.ofWord w).opc.toNat = w.toNat / 2 ^ 56 := by
  rw [Fields.ofWord, BitVec.extractLsb'_toNat, Nat.shiftRight_eq_div_pow]
  exact Nat.mod_eq_of_lt (by omega)

/-! ## The round trips -/

/-- The family `Laws.EncodedFields`, for every command. -/
theorem encodedFields (i : Instr) : Laws.EncodedFields.Statement i := by
  cases i with
  | nop => exact Laws.EncodedFields.nop
  | clear => exact Laws.EncodedFields.clear
  | markDirty x y => exact Laws.EncodedFields.markDirty x y
  | setPixel c x y => exact Laws.EncodedFields.setPixel c x y
  | drawHline c x y w => exact Laws.EncodedFields.drawHline c x y w
  | drawVline c x y h => exact Laws.EncodedFields.drawVline c x y h
  | drawRect c x y w h => exact Laws.EncodedFields.drawRect c x y w h
  | fillRect c x y w h => exact Laws.EncodedFields.fillRect c x y w h
  | drawCircle c x0 y0 r => exact Laws.EncodedFields.drawCircle c x0 y0 r
  | fillCircle c x0 y0 r => exact Laws.EncodedFields.fillCircle c x0 y0 r
  | selectFont id => exact Laws.EncodedFields.selectFont id
  | drawChar fg bg x y code => exact Laws.EncodedFields.drawChar fg bg x y code
  | drawStringColor fg bg null x y a => exact Laws.EncodedFields.drawStringColor fg bg null x y a
  | drawString null x y a => exact Laws.EncodedFields.drawString null x y a
  | measureString null a => exact Laws.EncodedFields.measureString null a
  | refresh force => exact Laws.EncodedFields.refresh force
  | sendCmd1 b => exact Laws.EncodedFields.sendCmd1 b
  | sendCmd2 b v => exact Laws.EncodedFields.sendCmd2 b v
  | clearStatus => exact Laws.EncodedFields.clearStatus

/-- Settles O3: the fields of the word are those of the command, and `encodedFields` says how they are read. -/
theorem decodeOfEncode : Obligations.DecodeOfEncode := by
  unfold Obligations.DecodeOfEncode
  intro i hwf
  obtain ⟨hop, hok, hread⟩ := encodedFields i hwf
  rw [decode_eq_ok_iff, encode, ofWord_toWord]
  exact ⟨i.op, hop, hok, hread⟩

/-- What the second check of decoding asks of the fields (spec/30_encoding.md R81). -/
theorem fieldsOk_iff {op : Op} {f : Fields} :
    fieldsOk op f = true ↔
      f.rsv = 0 ∧ (op.used.fg = true ∨ f.fg = 0) ∧ (op.used.bg = true ∨ f.bg = 0) ∧ (op.used.f0 = true ∨ f.f0 = 0) ∧
        (op.used.x = true ∨ f.x = 0) ∧ (op.used.y = true ∨ f.y = 0) ∧
        op.used.p.ok f.p = true ∧ op.used.q.ok f.q = true ∧
        (op.isString = true → stringOperandOk (flagOf f.f0) f.p = true) := by
  simp [fieldsOk, and_assoc, or_iff_not_imp_left]

theorem unused_ok_iff {v : BitVec 12} : FieldUse.unused.ok v = true ↔ v = 0 := by
  simp [FieldUse.ok]

/-- A field used in its low eight bits is those bits widened. -/
theorem zeroExtend_of_low8_ok {v : BitVec 12} (h : FieldUse.low8.ok v = true) :
    (v.extractLsb' 0 8).zeroExtend 12 = v :=
  zeroExtend_low8 (by simpa [FieldUse.ok] using h)

/-- Fields that pass the checks are the fields of the command they read as. -/
theorem toFields_toInstr {op : Op} {f : Fields} (hop : Op.ofByte f.opc = some op) (hok : fieldsOk op f = true) :
    (f.toInstr op).toFields = f := by
  obtain ⟨hrsv, hfg, hbg, hf0, hx, hy, hp, hq, -⟩ := fieldsOk_iff.1 hok
  have hopc := toByte_of_opOfByte hop
  obtain ⟨opc, fg, bg, rsv, f0, x, y, p, q⟩ := f
  -- an unused field is 0, and one used in its low eight bits is those bits widened
  cases op <;>
    simp_all [Op.used, Instr.toFields, Fields.zero, Fields.toInstr, Instr.op, unused_ok_iff, zeroExtend_of_low8_ok]

/-- Fields that pass the checks read as a well-formed command. -/
theorem wf_toInstr {op : Op} {f : Fields} (hok : fieldsOk op f = true) : (f.toInstr op).wf = true := by
  obtain ⟨-, -, -, -, -, -, -, -, hstring⟩ := fieldsOk_iff.1 hok
  cases op with
  | drawStringColor | drawString | measureString => exact hstring rfl
  | _ => rfl

/-- Settles O4: fields that pass the checks read as a well-formed command and are its fields. -/
theorem encodeOfDecode : Obligations.EncodeOfDecode := by
  unfold Obligations.EncodeOfDecode
  intro w i h
  obtain ⟨op, hop, hok, rfl⟩ := decode_eq_ok_iff.1 h
  exact ⟨wf_toInstr hok, by rw [encode, toFields_toInstr hop hok, toWord_ofWord]⟩

/-- Settles O5: the opcode is the top byte, and the undefined ones are those of the ranges. -/
theorem undefinedOpcodesAreRejected : Obligations.UndefinedOpcodesAreRejected := by
  unfold Obligations.UndefinedOpcodesAreRejected
  intro w
  rw [decode_eq_illegalOpcode_iff, opOfByte_eq_none_iff, toNat_opc_ofWord]

/-! ## The opcode table -/

/-- Fields one by one under a mask. -/
def Fields.and (f g : Fields) : Fields :=
  ⟨f.opc &&& g.opc, f.fg &&& g.fg, f.bg &&& g.bg, f.rsv &&& g.rsv, f.f0 &&& g.f0, f.x &&& g.x, f.y &&& g.y,
    f.p &&& g.p, f.q &&& g.q⟩

theorem ofWord_and (w k : CmdWord) : Fields.ofWord (w &&& k) = (Fields.ofWord w).and (Fields.ofWord k) := by
  simp only [Fields.ofWord, Fields.and, BitVec.extractLsb'_and]

theorem ofWord_inj {w k : CmdWord} : Fields.ofWord w = Fields.ofWord k ↔ w = k :=
  ⟨fun h => by rw [← toWord_ofWord w, h, toWord_ofWord], congrArg _⟩

/-- The bits of a field that must be 0. -/
def zerosOf (n : Nat) (used : Bool) : BitVec n := if used then 0 else BitVec.allOnes n

/-- The bits of `P` or `Q` that must be 0. -/
def FieldUse.zeros : FieldUse → BitVec 12
  | .unused => BitVec.allOnes 12
  | .low8 => BitVec.allOnes 4 ++ 0#8
  | .full => 0

/-- The bits an opcode fixes: its own, the reserved ones, and those of the fields it does not use
(spec/30_encoding.md R81). -/
def Op.fixed (op : Op) : Fields where
  opc := BitVec.allOnes 8
  fg := zerosOf 2 op.used.fg
  bg := zerosOf 2 op.used.bg
  rsv := BitVec.allOnes 3
  f0 := zerosOf 1 op.used.f0
  x := zerosOf 12 op.used.x
  y := zerosOf 12 op.used.y
  p := op.used.p.zeros
  q := op.used.q.zeros

/-- A row of the table: its match is the opcode with every other field 0, its mask the bits the opcode fixes. -/
theorem opcodeRows_eq {op : Op} {m k : CmdWord} (h : (op, m, k) ∈ opcodeRows) :
    m = (Fields.zero op).toWord ∧ k = op.fixed.toWord := by
  have all : ∀ row ∈ opcodeRows, row.2.1 = (Fields.zero row.1).toWord ∧ row.2.2 = row.1.fixed.toWord := by
    decide
  exact all _ h

theorem and_zerosOf_eq_zero_iff {n : Nat} {used : Bool} {v : BitVec n} :
    v &&& zerosOf n used = 0 ↔ used = true ∨ v = 0 := by
  cases used <;> simp [zerosOf]

theorem and_zeros_eq_zero_iff {u : FieldUse} {v : BitVec 12} : v &&& u.zeros = 0 ↔ u.ok v = true := by
  cases u with
  | unused => simp only [FieldUse.zeros, BitVec.and_allOnes, unused_ok_iff]
  | full => simp [FieldUse.zeros, FieldUse.ok]
  | low8 =>
    have hv : v.extractLsb' 8 4 ++ v.extractLsb' 0 8 = v :=
      (BitVec.extractLsb'_append_extractLsb'_eq_extractLsb' rfl).trans BitVec.extractLsb'_eq_self
    have hand : v &&& (BitVec.allOnes 4 ++ 0#8) = v.extractLsb' 8 4 ++ 0#8 := by
      conv_lhs => rw [← hv]
      rw [BitVec.and_append, BitVec.and_allOnes, BitVec.and_zero]
    have hzero : (0 : BitVec 12) = 0#4 ++ 0#8 := rfl
    rw [FieldUse.zeros, hand, hzero, BitVec.append_left_inj]
    simp [FieldUse.ok]

/-- An opcode byte stands for one command. -/
theorem opOfByte_eq_some_iff {b : Byte} {op : Op} : Op.ofByte b = some op ↔ b = op.toByte :=
  ⟨fun h => (toByte_of_opOfByte h).symm, fun h => h ▸ opOfByte_toByte op⟩

/-- A word matches the row of an opcode exactly when it does so field by field. -/
theorem matches_row_iff {op : Op} {w : CmdWord} :
    w &&& op.fixed.toWord = (Fields.zero op).toWord ↔ (Fields.ofWord w).and op.fixed = Fields.zero op := by
  rw [← ofWord_inj, ofWord_and, ofWord_toWord, ofWord_toWord]

/-- The checks of decoding as a mask, with the condition on NULLSTR beside it (spec/30_encoding.md R81). -/
theorem and_fixed_eq_zero_iff {op : Op} {f : Fields} :
    f.and op.fixed = Fields.zero op ∧ (op.isString = true → stringOperandOk (flagOf f.f0) f.p = true) ↔
      Op.ofByte f.opc = some op ∧ fieldsOk op f = true := by
  simp only [Fields.and, Op.fixed, Fields.zero, Fields.mk.injEq, and_zerosOf_eq_zero_iff, and_zeros_eq_zero_iff,
    BitVec.and_allOnes, opOfByte_eq_some_iff, fieldsOk_iff, and_assoc, and_left_comm]

/-- The condition on a string operand, read off the word (spec/30_encoding.md R81). -/
theorem stringOperandOk_ofWord {w : CmdWord} :
    stringOperandOk (flagOf (Fields.ofWord w).f0) (Fields.ofWord w).p = true ↔
      (w.getLsbD 48 = true → w.extractLsb' 12 12 = 0#12) := by
  rw [BitVec.getLsbD_eq_extractLsb']
  simp [stringOperandOk, flagOf, Fields.ofWord, or_iff_not_imp_left]

/-- Settles O6: the row's mask is the check of the fields, and the command has the row's opcode. -/
theorem decodeAgreesWithOpcodeTable : Obligations.DecodeAgreesWithOpcodeTable := by
  unfold Obligations.DecodeAgreesWithOpcodeTable
  intro op m k hrow w
  obtain ⟨rfl, rfl⟩ := opcodeRows_eq hrow
  rw [decodes_to_op_iff, matches_row_iff, ← and_fixed_eq_zero_iff, stringOperandOk_ofWord]

end Sys2Proof
end

section
/-! PROOFS. The values of the command words: their layout (spec/30_encoding.md R80) and the words of the lines of
text (R90). -/

namespace Sys2Proof

open Machine

/-! ## The value of a word -/

/-- The value of bit vectors put together. -/
theorem toNat_append_eq_add {m n : Nat} (a : BitVec m) (b : BitVec n) :
    (a ++ b).toNat = a.toNat * 2 ^ n + b.toNat := by
  rw [BitVec.toNat_append, ← Nat.shiftLeft_add_eq_or_of_lt b.isLt, Nat.shiftLeft_eq]

/-- The value of a word is the sum of its shifted fields (spec/30_encoding.md R80). -/
theorem toNat_toWord (f : Fields) :
    f.toWord.toNat =
      f.opc.toNat * 2 ^ 56 + f.fg.toNat * 2 ^ 54 + f.bg.toNat * 2 ^ 52 + f.rsv.toNat * 2 ^ 49 + f.f0.toNat * 2 ^ 48 +
        f.x.toNat * 2 ^ 36 + f.y.toNat * 2 ^ 24 + f.p.toNat * 2 ^ 12 + f.q.toNat := by
  simp only [Fields.toWord, toNat_append_eq_add]
  omega

/-- The value of a command's word (spec/30_encoding.md R90). -/
theorem toNat_encode (i : Instr) :
    (encode i).toNat =
      i.toFields.opc.toNat * 2 ^ 56 + i.toFields.fg.toNat * 2 ^ 54 + i.toFields.bg.toNat * 2 ^ 52 +
        i.toFields.rsv.toNat * 2 ^ 49 + i.toFields.f0.toNat * 2 ^ 48 + i.toFields.x.toNat * 2 ^ 36 +
        i.toFields.y.toNat * 2 ^ 24 + i.toFields.p.toNat * 2 ^ 12 + i.toFields.q.toNat :=
  toNat_toWord i.toFields

/-- A word with the value of a well-formed command's word decodes to that command. -/
theorem decode_of_toNat_eq {w : CmdWord} {i : Instr} (hwf : i.wf = true) (h : w.toNat = (encode i).toNat) :
    decode w = .ok i := by
  rw [BitVec.eq_of_toNat_eq h]
  exact decodeOfEncode i hwf

/-- The table of colours is `Colour.code` (spec/30_encoding.md R84). -/
theorem eq_code_of_mem {v : BitVec 2} {c : Colour}
    (h : (v, c) ∈ [(0b00#2, Colour.black), (0b01#2, Colour.white), (0b10#2, Colour.invert),
      (0b11#2, Colour.transparent)]) : v = c.code := by
  fin_cases h <;> rfl

theorem eq_flagBit_of_mem {v : BitVec 1} {b : Bool} (h : (v, b) ∈ [(0#1, false), (1#1, true)]) : v = flagBit b := by
  fin_cases h <;> rfl

/-- The premise on `P` and NULLSTR is that the string operand is well-formed (spec/30_encoding.md R81). -/
theorem stringOperandOk_flagBit {null : Bool} {a : BitVec 12} (h : flagBit null = 0#1 ∨ a = 0#12) :
    stringOperandOk null a = true := by
  cases null <;> simp_all [stringOperandOk, flagBit]

/-- Settles O2: each word has the value of the command's word. -/
theorem commandWordLayout : Obligations.CommandWordLayout := by
  unfold Obligations.CommandWordLayout
  intro x y p q b v fg bg f0 cf cb flag hfg hbg hf0
  obtain rfl := eq_code_of_mem hfg
  obtain rfl := eq_code_of_mem hbg
  obtain rfl := eq_flagBit_of_mem hf0
  refine ⟨decode_of_toNat_eq rfl ?_, decode_of_toNat_eq rfl ?_, decode_of_toNat_eq rfl ?_, decode_of_toNat_eq rfl ?_,
    decode_of_toNat_eq rfl ?_, decode_of_toNat_eq rfl ?_, decode_of_toNat_eq rfl ?_, decode_of_toNat_eq rfl ?_,
    decode_of_toNat_eq rfl ?_, decode_of_toNat_eq rfl ?_, decode_of_toNat_eq rfl ?_, decode_of_toNat_eq rfl ?_,
    fun hp => ⟨decode_of_toNat_eq (stringOperandOk_flagBit hp) ?_, decode_of_toNat_eq (stringOperandOk_flagBit hp) ?_,
      decode_of_toNat_eq (stringOperandOk_flagBit hp) ?_⟩,
    decode_of_toNat_eq rfl ?_, decode_of_toNat_eq rfl ?_, decode_of_toNat_eq rfl ?_, decode_of_toNat_eq rfl ?_⟩
  all_goals
    simp only [toNat_encode, toNat_append_eq_add, Instr.toFields, Fields.zero, Instr.op, Op.toByte,
      BitVec.toNat_ofNat, BitVec.truncate_eq_setWidth, BitVec.toNat_setWidth, BitVec.ofNat_eq_ofNat]
    omega

/-! ## The lines of text -/

/-! An operand that fits assembles to its value modulo the field. -/

theorem asmCoord_of_fits {v : Int} (h : coordFits v) : asmCoord v = some (BitVec.ofInt 12 v) := if_pos h

theorem asmSize_of_fits {v : Int} (h : sizeFits v) : asmSize v = some (BitVec.ofInt 12 v) := if_pos h

theorem asmByte_of_fits {v : Int} (h : byteFits v) : asmByte v = some (BitVec.ofInt 8 v) := if_pos h

/-- A coordinate assembles where it fits, to the field that holds it modulo 4096 (spec/30_encoding.md R82). -/
theorem asmCoord_eq_some_iff {v : Int} {f : BitVec 12} :
    asmCoord v = some f ↔ coordFits v ∧ (f.toNat : Int) = v % 4096 := by
  by_cases h : coordFits v
  · rw [asmCoord_of_fits h, Option.some_inj, ← BitVec.toNat_inj, BitVec.toNat_ofInt]
    unfold coordFits at h ⊢
    omega
  · simp [show asmCoord v = none from if_neg h, h]

/-- A size, id or address assembles where it fits, to the field that holds it (spec/30_encoding.md R83). -/
theorem asmSize_eq_some_iff {v : Int} {f : BitVec 12} : asmSize v = some f ↔ sizeFits v ∧ (f.toNat : Int) = v := by
  by_cases h : sizeFits v
  · rw [asmSize_of_fits h, Option.some_inj, ← BitVec.toNat_inj, BitVec.toNat_ofInt]
    unfold sizeFits at h ⊢
    omega
  · simp [show asmSize v = none from if_neg h, h]

/-- A code or command byte assembles where it fits, to the byte that, widened to its field, holds it
(spec/30_encoding.md R83). -/
theorem asmByte_eq_some_iff {v : Int} {b : Byte} :
    asmByte v = some b ↔ byteFits v ∧ ((b.zeroExtend 12).toNat : Int) = v := by
  rw [BitVec.toNat_setWidth_of_le (by decide)]
  by_cases h : byteFits v
  · rw [asmByte_of_fits h, Option.some_inj, ← BitVec.toNat_inj, BitVec.toNat_ofInt]
    unfold byteFits at h ⊢
    omega
  · simp [show asmByte v = none from if_neg h, h]

/-- The sum of the shifted fields of a line (spec/30_encoding.md R90). -/
def LineSays.word (l : LineSays) : Int :=
  l.opc * 2 ^ 56 + l.fg.code.toNat * 2 ^ 54 + l.bg.code.toNat * 2 ^ 52 + l.f0 * 2 ^ 48 + l.x % 4096 * 2 ^ 36 +
    l.y % 4096 * 2 ^ 24 + l.p * 2 ^ 12 + l.q

/-- A command whose fields hold what a line says has the line's word. -/
theorem toNat_encode_eq_word {l : LineSays} {i : Instr} (hopc : (i.toFields.opc.toNat : Int) = l.opc)
    (hfg : i.toFields.fg = l.fg.code) (hbg : i.toFields.bg = l.bg.code) (hrsv : i.toFields.rsv.toNat = 0)
    (hf0 : (i.toFields.f0.toNat : Int) = l.f0) (hx : (i.toFields.x.toNat : Int) = l.x % 4096)
    (hy : (i.toFields.y.toNat : Int) = l.y % 4096) (hp : (i.toFields.p.toNat : Int) = l.p)
    (hq : (i.toFields.q.toNat : Int) = l.q) : ((encode i).toNat : Int) = l.word := by
  rw [toNat_encode, hfg, hbg, LineSays.word]
  omega

/-- A line assembles only where its operands fit, and then to the command of its word. -/
theorem word_of_assemble {line : AsmLine} {i : Instr} (h : assemble line = some i) :
    (lineSays line).fits ∧ ((encode i).toNat : Int) = (lineSays line).word := by
  cases line with
  | nop | clear | refresh | refreshForce | clearStatus =>
    cases h
    exact ⟨trivial, toNat_encode_eq_word rfl rfl rfl rfl rfl rfl rfl rfl rfl⟩
  | markDirty | setPixel =>
    simp only [assemble, Option.bind_eq_bind, Option.bind_eq_some_iff, asmCoord_eq_some_iff] at h
    obtain ⟨x, ⟨fx, hx⟩, y, ⟨fy, hy⟩, ⟨⟩⟩ := h
    exact ⟨⟨fx, fy⟩, toNat_encode_eq_word rfl rfl rfl rfl rfl hx hy rfl rfl⟩
  | drawHline | drawVline | drawCircle | fillCircle | drawChar =>
    simp only [assemble, Option.bind_eq_bind, Option.bind_eq_some_iff, asmCoord_eq_some_iff, asmSize_eq_some_iff,
      asmByte_eq_some_iff] at h
    obtain ⟨x, ⟨fx, hx⟩, y, ⟨fy, hy⟩, p, ⟨fp, hp⟩, ⟨⟩⟩ := h
    exact ⟨⟨fx, fy, fp⟩, toNat_encode_eq_word rfl rfl rfl rfl rfl hx hy hp rfl⟩
  | drawRect | fillRect =>
    simp only [assemble, Option.bind_eq_bind, Option.bind_eq_some_iff, asmCoord_eq_some_iff, asmSize_eq_some_iff] at h
    obtain ⟨x, ⟨fx, hx⟩, y, ⟨fy, hy⟩, p, ⟨fp, hp⟩, q, ⟨fq, hq⟩, ⟨⟩⟩ := h
    exact ⟨⟨fx, fy, fp, fq⟩, toNat_encode_eq_word rfl rfl rfl rfl rfl hx hy hp hq⟩
  | selectFont | sendCmd1 =>
    simp only [assemble, Option.bind_eq_bind, Option.bind_eq_some_iff, asmSize_eq_some_iff, asmByte_eq_some_iff] at h
    obtain ⟨p, ⟨fp, hp⟩, ⟨⟩⟩ := h
    exact ⟨fp, toNat_encode_eq_word rfl rfl rfl rfl rfl rfl rfl hp rfl⟩
  | sendCmd2 =>
    simp only [assemble, Option.bind_eq_bind, Option.bind_eq_some_iff, asmByte_eq_some_iff] at h
    obtain ⟨p, ⟨fp, hp⟩, q, ⟨fq, hq⟩, ⟨⟩⟩ := h
    exact ⟨⟨fp, fq⟩, toNat_encode_eq_word rfl rfl rfl rfl rfl rfl rfl hp hq⟩
  | drawStringColor x y a | drawString x y a =>
    cases a with
    | none =>
      simp only [assemble, Option.bind_eq_bind, Option.bind_eq_some_iff, asmCoord_eq_some_iff] at h
      obtain ⟨_, ⟨⟩, x, ⟨fx, hx⟩, y, ⟨fy, hy⟩, _, ⟨⟩, ⟨⟩⟩ := h
      exact ⟨⟨fx, fy⟩, toNat_encode_eq_word rfl rfl rfl rfl rfl hx hy rfl rfl⟩
    | some v =>
      simp only [assemble, Option.bind_eq_bind, Option.bind_eq_some_iff, asmCoord_eq_some_iff, asmString,
        Option.map_eq_some_iff, asmSize_eq_some_iff] at h
      obtain ⟨_, ⟨_, -, rfl⟩, x, ⟨fx, hx⟩, y, ⟨fy, hy⟩, _, ⟨p, ⟨fp, hp⟩, rfl⟩, ⟨⟩⟩ := h
      exact ⟨⟨fx, fy, fp⟩, toNat_encode_eq_word rfl rfl rfl rfl rfl hx hy hp rfl⟩
  | measureString a =>
    cases a with
    | none =>
      cases h
      exact ⟨trivial, toNat_encode_eq_word rfl rfl rfl rfl rfl rfl rfl rfl rfl⟩
    | some v =>
      simp only [assemble, Option.bind_eq_bind, Option.bind_eq_some_iff, asmString, Option.map_eq_some_iff,
        asmSize_eq_some_iff] at h
      obtain ⟨_, ⟨_, -, rfl⟩, _, ⟨p, ⟨fp, hp⟩, rfl⟩, ⟨⟩⟩ := h
      exact ⟨fp, toNat_encode_eq_word rfl rfl rfl rfl rfl rfl rfl hp rfl⟩

/-- A line assembles where its operands fit. -/
theorem assembles_of_fits {line : AsmLine} (h : (lineSays line).fits) : ∃ i, assemble line = some i := by
  cases line with
  | drawStringColor x y a | drawString x y a | measureString a =>
    cases a <;> simp_all [assemble, lineSays, asmString, asmCoord_of_fits, asmSize_of_fits]
  | _ => simp_all [assemble, lineSays, asmCoord_of_fits, asmSize_of_fits, asmByte_of_fits]

/-- The fields of a command read back as the command, even where it is not well-formed. -/
theorem toInstr_toFields (i : Instr) : i.toFields.toInstr i.op = i := by
  cases i with
  | drawStringColor | drawString | measureString => simp [Instr.op, Instr.toFields, Fields.toInstr]
  | _ => exact (encodedFields _ rfl).2.2

/-- No two commands have one word. -/
theorem encode_injective : Function.Injective encode := by
  intro i j h
  have hfields : i.toFields = j.toFields := by
    rw [← ofWord_toWord i.toFields, ← ofWord_toWord j.toFields]
    exact congrArg Fields.ofWord h
  have hop : i.op = j.op := Option.some.inj (by rw [← opc_toFields, ← opc_toFields, hfields])
  rw [← toInstr_toFields i, hop, hfields, toInstr_toFields]

/-- Settles O7: a line assembles exactly where its operands fit, and no other command has its word. -/
theorem assembledWords : Obligations.AssembledWords := by
  unfold Obligations.AssembledWords
  intro line i
  refine ⟨word_of_assemble, fun ⟨hfits, hword⟩ => ?_⟩
  obtain ⟨j, hj⟩ := assembles_of_fits hfits
  have hvalue := hword.trans (word_of_assemble hj).2.symm
  rw [hj, encode_injective (BitVec.eq_of_toNat_eq (Int.ofNat.inj hvalue))]

/-- Settles O1: each line assembles and its word decodes by evaluation. -/
theorem specWordsDecode : Obligations.SpecWordsDecode := by
  unfold Obligations.SpecWordsDecode
  refine ⟨fun line i w h => ?_, by decide⟩
  fin_cases h <;> decide

end Sys2Proof
end

section
/-! PROOFS. Framebuffer and dirty rectangle (spec/40_framebuffer.md): a framebuffer is determined by its pixels and a
smallest rectangle by what it holds, so a sequence of pixel steps is determined by its positions; and the commands NOP,
CLEAR, MARK_DIRTY and SET_PIXEL. -/

namespace Sys2Proof

open Machine

/-! ## The pixels determine the framebuffer -/

/-- Every bit of every byte of FB is a pixel of the panel (spec/40_framebuffer.md R112). -/
theorem exists_panel_point {c : Config} (hc : legal c = true) {j k : Nat} (hj : j < fbBytes c) (hk : k < 8) :
    ∃ x y : Int, inPanel c x y = true ∧ idx c x y = j ∧ y.toNat % 8 = k := by
  obtain ⟨hW, -, -, -, -, h8, -⟩ := legal_ranges hc
  have hpage : j / c.W < c.H / 8 := by
    rw [Nat.div_lt_iff_lt_mul hW, mul_comm, ← Nat.mul_div_assoc _ (Nat.dvd_of_mod_eq_zero h8)]
    exact hj
  have hcol : j % c.W < c.W := Nat.mod_lt _ hW
  refine ⟨(j % c.W : Nat), (8 * (j / c.W) + k : Nat), (inPanel_iff _ _ _).2 (by omega), ?_, by omega⟩
  rw [idx, Int.toNat_natCast, Int.toNat_natCast, Nat.mul_add_div (by decide), Nat.div_eq_of_lt hk]
  exact Nat.mod_add_div' j c.W

/-- A canonical FB reads 0 past its end. -/
theorem fbRead_of_le {n : Nat} {fb : Memory} (h : Memory.wf fbUnlisted n fb) {j : Nat} (hj : n ≤ j) :
    fbRead fb j = 0 := by
  have hnone : fb.find j = none := by
    by_contra hb
    obtain ⟨b, hb⟩ := Option.ne_none_iff_exists'.1 hb
    exact absurd (h.2 _ (mem_of_find hb)).1 (not_lt.2 hj)
  simp [fbRead, Memory.get, hnone, fbUnlisted]

/-- Two canonical framebuffers that show the same panel are the same list. -/
theorem fb_ext_pixel {c : Config} (hc : legal c = true) {fb fb' : Memory} (h : Memory.wf fbUnlisted (fbBytes c) fb)
    (h' : Memory.wf fbUnlisted (fbBytes c) fb')
    (hp : ∀ x y, inPanel c x y = true → pixel c fb x y = pixel c fb' x y) : fb = fb' := by
  refine fb_ext h h' fun j => ?_
  by_cases hj : j < fbBytes c
  · refine BitVec.eq_of_getLsbD_eq fun k hk => ?_
    obtain ⟨x, y, hin, rfl, rfl⟩ := exists_panel_point hc hj hk
    exact hp x y hin
  · rw [fbRead_of_le h (not_lt.1 hj), fbRead_of_le h' (not_lt.1 hj)]

/-! ## The smallest rectangle is unique -/

/-- A smallest rectangle lies inside any other one for the same positions. -/
theorem growsTo_within {c : Config} {S : Int → Int → Prop} {d d₁ d₂ : Dirty} (h₁ : GrowsTo c S d d₁)
    (h₂ : GrowsTo c S d d₂) :
    d₂.top.toNat ≤ d₁.top.toNat ∧ d₂.left.toNat ≤ d₁.left.toNat ∧ d₁.right.toNat ≤ d₂.right.toNat ∧
      d₁.bottom.toNat ≤ d₂.bottom.toNat := by
  obtain ⟨-, -, top, left, right, bottom⟩ := h₁
  obtain ⟨holds, ⟨htop, hleft, hright, hbottom⟩, -⟩ := h₂
  refine ⟨?_, ?_, ?_, ?_⟩
  · obtain e | ⟨x, y, hS, hp, e⟩ := top
    · rwa [e]
    · have := holds x y hS hp
      omega
  · obtain e | ⟨x, y, hS, hp, e⟩ := left
    · rwa [e]
    · have := holds x y hS hp
      omega
  · obtain e | ⟨x, y, hS, hp, e⟩ := right
    · rwa [e]
    · have := holds x y hS hp
      omega
  · obtain e | ⟨x, y, hS, hp, e⟩ := bottom
    · rwa [e]
    · have := holds x y hS hp
      omega

theorem dirty_ext {d e : Dirty} (htop : d.top = e.top) (hleft : d.left = e.left) (hright : d.right = e.right)
    (hbottom : d.bottom = e.bottom) : d = e := by
  cases d
  cases e
  simp_all

theorem growsTo_unique {c : Config} {S : Int → Int → Prop} {d d₁ d₂ : Dirty} (h₁ : GrowsTo c S d d₁)
    (h₂ : GrowsTo c S d d₂) : d₁ = d₂ := by
  obtain ⟨top₁, left₁, right₁, bottom₁⟩ := growsTo_within h₁ h₂
  obtain ⟨top₂, left₂, right₂, bottom₂⟩ := growsTo_within h₂ h₁
  refine dirty_ext ?_ ?_ ?_ ?_ <;> apply BitVec.eq_of_toNat_eq <;> omega

/-! ## Sequences of pixel steps of one colour -/

theorem canvas_ext {v w : Canvas} (hfb : v.fb = w.fb) (hdirty : v.dirty = w.dirty) : v = w := by
  cases v
  cases w
  simp_all

/-- Two sequences of one colour with the same panel positions do the same, if under Invert each position also occurs
equally often up to parity (spec/40_framebuffer.md R117). -/
theorem plotAll_inColour_congr {c : Config} (hc : legal c = true) {colour : Colour} {ps qs : List (Int × Int)}
    {v : Canvas} (hv : Memory.wf fbUnlisted (fbBytes c) v.fb)
    (hmem : ∀ x y, inPanel c x y = true → ((x, y) ∈ ps ↔ (x, y) ∈ qs))
    (hcount : colour = .invert → ∀ x y, ps.count (x, y) % 2 = qs.count (x, y) % 2) :
    plotAll c (inColour colour ps) v = plotAll c (inColour colour qs) v := by
  refine canvas_ext (fb_ext_pixel hc (wf_plotAll hc _ hv) (wf_plotAll hc _ hv) fun x y hp => ?_) ?_
  · rw [pixel_inColour c colour ps v hp, pixel_inColour c colour qs v hp]
    split
    next hinv => rw [hcount hinv x y]
    · simp only [hmem x y hp]
  · exact growsTo_unique (growsTo_congr (growsTo_inColour hc colour ps v) hmem) (growsTo_inColour hc colour qs v)

/-- Settles O22: pixels and DIRTY are known by `pixel_inColour` and `growsTo_inColour`, and they determine the canvas;
a permutation keeps the positions and how often each occurs. -/
theorem plotsOfOneColour : Obligations.PlotsOfOneColour := by
  unfold Obligations.PlotsOfOneColour
  intro c colour ps qs v hc hv
  refine ⟨fun hne hmem => ?_, fun x y hp => ?_, growsTo_inColour hc colour ps v, fun hperm => ?_⟩
  · exact plotAll_inColour_congr hc hv hmem fun hinv => absurd hinv hne
  · exact (pixel_inColour c .invert ps v hp).trans (if_pos rfl)
  · exact plotAll_inColour_congr hc hv (fun _ _ _ => hperm.mem_iff) fun _ x y => by rw [hperm.count_eq]

/-! ## A colour under a mask -/

/-- A colour changes the bits of the mask as R110 says and leaves the others (spec/40_framebuffer.md R114). -/
theorem getLsbD_applyColour (b m : Byte) (colour : Colour) {k : Nat} (hk : k < 8) :
    (applyColour b m colour).getLsbD k =
      if m.getLsbD k then colourBit colour (b.getLsbD k) else b.getLsbD k := by
  cases colour <;>
    simp only [applyColour, BitVec.getLsbD_and, BitVec.getLsbD_or, BitVec.getLsbD_xor, BitVec.getLsbD_not, hk] <;>
    cases m.getLsbD k <;> simp [colourBit]

/-- Settles O21: `getLsbD_applyColour` at each colour. -/
theorem coloursActOnMaskedBits : Obligations.ColoursActOnMaskedBits := by
  unfold Obligations.ColoursActOnMaskedBits
  intro b m k hk
  refine ⟨getLsbD_applyColour b m .black hk, getLsbD_applyColour b m .white hk, getLsbD_applyColour b m .invert hk, rfl⟩

/-! ## NOP and CLEAR -/

/-- A well-formed command has exactly one word (spec/30_encoding.md R80, R87). -/
theorem decode_eq_ok_iff_encode {w : CmdWord} {i : Instr} (hwf : i.wf = true) : decode w = .ok i ↔ w = encode i :=
  ⟨fun h => (encodeOfDecode w i h).2.symm, fun h => h ▸ decodeOfEncode i hwf⟩

/-- Settles O23: the word of NOP is 0. -/
theorem nopChangesNothing : Obligations.NopChangesNothing := by
  unfold Obligations.NopChangesNothing
  exact ⟨fun _ => decode_eq_ok_iff_encode (i := .nop) rfl, fun _ => rfl⟩

/-- With DIRTY the full panel, REFRESH takes the full path with FORCE and without it (spec/43_refresh.md R206). -/
theorem execRefresh_of_dirty_full {s : State} (h : s.dirty = Dirty.full s.cfg) (force : Bool) :
    execRefresh force s = sendAndEmpty (fullTraffic s.cfg s.fb) s :=
  if_pos (.inr h)

/-- Settles O24: CLEAR leaves the FB that lists nothing, and the full panel, which REFRESH sends in full. -/
theorem clearZeroesTheFramebuffer : Obligations.ClearZeroesTheFramebuffer := by
  unfold Obligations.ClearZeroesTheFramebuffer
  refine ⟨fun _ => decode_eq_ok_iff_encode (i := .clear) rfl, fun s hc => ?_⟩
  obtain ⟨-, hW, -, -, hH, -, -⟩ := legal_ranges hc
  refine ⟨[], Dirty.full s.cfg, rfl, fbRead_nil, rfl, rfl, Nat.mod_eq_of_lt (by omega), Nat.mod_eq_of_lt (by omega), ?_⟩
  exact (execRefresh_of_dirty_full rfl false).trans (execRefresh_of_dirty_full rfl true).symm

/-! ## MARK_DIRTY and SET_PIXEL -/

/-- Settles O25: MARK_DIRTY is `mark`, whose bounds `mark_bounds` gives, and which does nothing off the panel. -/
theorem markDirtyGrowsByOnePoint : Obligations.MarkDirtyGrowsByOnePoint := by
  unfold Obligations.MarkDirtyGrowsByOnePoint
  intro s x y hc
  refine ⟨mark s.cfg x.toInt y.toInt s.dirty, rfl, fun hin => ?_, fun hoff => mark_off ?_ _⟩
  · obtain ⟨hx, hxW, hy, hyH⟩ := hin
    obtain ⟨top, left, right, bottom⟩ := mark_bounds hc ((inPanel_iff _ _ _).2 ⟨⟨hx, hxW⟩, hy, hyH⟩) s.dirty
    simp only [top, left, right, bottom, Nat.cast_min, Nat.cast_max, Int.toNat_of_nonneg hx, Int.toNat_of_nonneg hy,
      and_self]
  · rwa [← Bool.not_eq_true, inPanel_iff, and_assoc]

/-- SET_PIXEL is the sequence of its one position (spec/40_framebuffer.md R123). -/
theorem exec_setPixel (colour : Colour) (x y : BitVec 12) (s : State) :
    exec (.setPixel colour x y) s = .next (draw (inColour colour [(x.toInt, y.toInt)]) s) := rfl

theorem draw_inColour_singleton (colour : Colour) (x y : Int) (s : State) :
    draw (inColour colour [(x, y)]) s = s.withCanvas (plot s.cfg ⟨x, y, colour⟩ s.canvas) := rfl

/-- Settles O26: one position does not repeat, so it is painted once. -/
theorem setPixelPaintsOnePixel : Obligations.SetPixelPaintsOnePixel := by
  unfold Obligations.SetPixelPaintsOnePixel
  intro s colour x y hc
  have hmem : ∀ px py, inPanel s.cfg px py = true →
      ((px, py) ∈ [(x.toInt, y.toInt)] ↔ px = x.toInt ∧ py = y.toInt) := by simp
  have hpaints := paints_inColour_nodup s.cfg colour s.canvas (List.nodup_singleton (x.toInt, y.toInt))
  rw [exec_setPixel, draw_frame]
  exact ⟨_, _, rfl, paints_congr hpaints hmem fun _ _ _ _ _ => rfl,
    growsTo_congr (growsTo_inColour hc colour _ s.canvas) hmem⟩

/-- Settles O27: SET_PIXEL is one pixel step, which does nothing off the panel. -/
theorem setPixelOffPanelChangesNothing : Obligations.SetPixelOffPanelChangesNothing := by
  unfold Obligations.SetPixelOffPanelChangesNothing
  intro s colour x y h
  have hoff : inPanel s.cfg x.toInt y.toInt = false := by
    rw [← Bool.not_eq_true, inPanel_iff]
    omega
  rw [exec_setPixel, draw_inColour_singleton, plot_off (p := ⟨x.toInt, y.toInt, colour⟩) hoff,
    withCanvas_canvas]

end Sys2Proof
end

section
/-! PROOFS. Lines and rectangles (spec/41_primitives.md R140 to R148): what a drawing command of one colour paints and
marks follows from its positions, the byte-level forms of the lines are equal to their pixel steps, and a white line
followed by a black one. -/

namespace Sys2Proof

open Machine

/-! ## A drawing command of one colour -/

theorem exec_drawHline (colour : Colour) (x y w : BitVec 12) (s : State) :
    exec (.drawHline colour x y w) s =
      .next (draw (inColour colour (hlinePoints x.toInt y.toInt w.toNat)) s) := rfl

theorem exec_drawVline (colour : Colour) (x y h : BitVec 12) (s : State) :
    exec (.drawVline colour x y h) s =
      .next (draw (inColour colour (vlinePoints x.toInt y.toInt h.toNat)) s) := rfl

theorem exec_drawRect (colour : Colour) (x y w h : BitVec 12) (s : State) :
    exec (.drawRect colour x y w h) s =
      .next (draw (inColour colour (rectPoints x.toInt y.toInt w.toNat h.toNat)) s) := rfl

theorem exec_fillRect (colour : Colour) (x y w h : BitVec 12) (s : State) :
    exec (.fillRect colour x y w h) s =
      .next (draw (inColour colour (fillRectPoints x.toInt y.toInt w.toNat h.toNat)) s) := rfl

/-- Pixel steps of one colour at the positions `S`: they paint `S` as `f` says, where `f` counts the repeats under
Invert, they mark `S`, and they change nothing else. -/
theorem draw_paints_and_marks {s : State} (hc : legal s.cfg = true) {colour : Colour} {ps : List (Int × Int)}
    {S : Int → Int → Prop} {f : Int → Int → Bool → Bool} (hmem : ∀ px py, (px, py) ∈ ps ↔ S px py)
    (hf : ∀ px py b, S px py →
      (if colour = .invert then b ^^ decide (ps.count (px, py) % 2 = 1) else colourBit colour b) = f px py b) :
    ∃ fb dirty, (.next (draw (inColour colour ps) s) : Result) = .next { s with fb := fb, dirty := dirty } ∧
      Paints s.cfg S f s.fb fb ∧ GrowsTo s.cfg S s.dirty dirty := by
  have hpaints := paints_inColour s.cfg colour ps s.canvas
  rw [draw_frame]
  exact ⟨_, _, rfl,
    paints_congr hpaints (fun px py _ => hmem px py) fun px py b _ hin => hf px py b ((hmem px py).1 hin),
    growsTo_congr (growsTo_inColour hc colour ps s.canvas) fun px py _ => hmem px py⟩

/-- The same where Invert meets no position twice: each one takes the colour. -/
theorem draw_paints_and_marks_of_nodup {s : State} (hc : legal s.cfg = true) {colour : Colour} {ps : List (Int × Int)}
    {S : Int → Int → Prop} (hmem : ∀ px py, (px, py) ∈ ps ↔ S px py) (hnodup : colour = .invert → ps.Nodup) :
    ∃ fb dirty, (.next (draw (inColour colour ps) s) : Result) = .next { s with fb := fb, dirty := dirty } ∧
      Paints s.cfg S (fun _ _ b => colourBit colour b) s.fb fb ∧ GrowsTo s.cfg S s.dirty dirty := by
  refine draw_paints_and_marks hc hmem fun px py b hS => ?_
  by_cases hinv : colour = .invert
  · have hone := List.count_eq_one_of_mem (hnodup hinv) ((hmem px py).2 hS)
    simp [hinv, hone, colourBit]
  · exact if_neg hinv

/-- Settles O28: the row holds no position twice. -/
theorem drawHlinePaintsItsRow : Obligations.DrawHlinePaintsItsRow := by
  unfold Obligations.DrawHlinePaintsItsRow
  intro s colour x y w hc
  rw [exec_drawHline]
  exact draw_paints_and_marks_of_nodup hc (fun _ _ => mem_hlinePoints) fun _ => nodup_hlinePoints _ _ _

/-- Settles O30: the column holds no position twice. -/
theorem drawVlinePaintsItsColumn : Obligations.DrawVlinePaintsItsColumn := by
  unfold Obligations.DrawVlinePaintsItsColumn
  intro s colour x y h hc
  rw [exec_drawVline]
  exact draw_paints_and_marks_of_nodup hc (fun _ _ => mem_vlinePoints) fun _ => nodup_vlinePoints _ _ _

/-- Settles O35: the columns of the rectangle hold no position twice. -/
theorem fillRectPaintsEachPixelOnce : Obligations.FillRectPaintsEachPixelOnce := by
  unfold Obligations.FillRectPaintsEachPixelOnce
  intro s colour x y w h hc
  rw [exec_fillRect]
  exact draw_paints_and_marks_of_nodup hc (fun _ _ => mem_fillRectPoints) fun _ => nodup_fillRectPoints _ _ _ _

/-! ## The border of a rectangle -/

/-- DRAW_RECT plots a position once for each edge that holds it (spec/41_primitives.md R146). -/
theorem count_rectPoints (x y w h px py : Int) :
    (rectPoints x y w h).count (px, py) = edgeCount x y w h px py := by
  simp only [rectPoints, List.count_append, count_hlinePoints, count_vlinePoints, edgeCount]

theorem mem_rectPoints {x y w h px py : Int} : (px, py) ∈ rectPoints x y w h ↔ 0 < edgeCount x y w h px py := by
  rw [← count_rectPoints, List.count_pos_iff]

/-- Settles O33: the number of plots of a position is the number of its edges. -/
theorem drawRectPaintsItsBorder : Obligations.DrawRectPaintsItsBorder := by
  unfold Obligations.DrawRectPaintsItsBorder
  intro s colour x y w h hc
  rw [exec_drawRect]
  exact draw_paints_and_marks hc (fun _ _ => mem_rectPoints) fun px py b _ => by rw [count_rectPoints]

/-- A byte of FB is determined by the pixels it holds. -/
theorem fbRead_eq_of_pixel {c : Config} (hc : legal c = true) {fb fb' : Memory} {j : Nat} (hj : j < fbBytes c)
    (h : ∀ x y, inPanel c x y = true → idx c x y = j → pixel c fb x y = pixel c fb' x y) :
    fbRead fb j = fbRead fb' j := by
  refine BitVec.eq_of_getLsbD_eq fun k hk => ?_
  obtain ⟨x, y, hin, rfl, rfl⟩ := exists_panel_point hc hj hk
  exact h x y hin rfl

/-- Painting leaves the bytes past the end of FB as they were. -/
theorem fbRead_of_paints {c : Config} (hc : legal c = true) {S : Int → Int → Prop} {f : Int → Int → Bool → Bool}
    {fb fb' : Memory} (h : Paints c S f fb fb') {j : Nat} (hj : fbBytes c ≤ j) : fbRead fb' j = fbRead fb j :=
  h.2 j fun _ _ _ hin => ((idx_lt_fbBytes hc hin).trans_le hj).ne

/-- Pixels that are painted with the bit they hold need not be counted among the painted ones. -/
theorem paints_shrink {c : Config} (hc : legal c = true) {S T : Int → Int → Prop} {f g : Int → Int → Bool → Bool}
    {fb fb' : Memory} (h : Paints c S f fb fb') (hTS : ∀ x y, T x y → S x y)
    (hg : ∀ x y b, T x y → f x y b = g x y b) (hkept : ∀ x y b, S x y → ¬ T x y → f x y b = b) :
    Paints c T g fb fb' := by
  have hout : ∀ x y, inPanel c x y = true → ¬ T x y → pixel c fb' x y = pixel c fb x y := by
    intro x y hin hT
    by_cases hS : S x y
    · rw [(h.1 x y hin).1 hS, hkept x y _ hS hT]
    · exact (h.1 x y hin).2 hS
  refine ⟨fun x y hin => ⟨fun hT => ?_, hout x y hin⟩, fun j hj => ?_⟩
  · rw [(h.1 x y hin).1 (hTS x y hT), hg x y _ hT]
  · by_cases hlt : j < fbBytes c
    · exact fbRead_eq_of_pixel hc hlt fun x y hin hidx => hout x y hin fun hT => hj x y hT hin hidx
    · exact fbRead_of_paints hc h (not_lt.1 hlt)

/-- A corner of the rectangle (spec/41_primitives.md R147). -/
def IsCorner (x y w h px py : Int) : Prop := (px = x ∨ px = x + w - 1) ∧ (py = y ∨ py = y + h - 1)

/-- A position of the border of the rectangle (spec/41_primitives.md R147). -/
def IsBorder (x y w h px py : Int) : Prop :=
  x ≤ px ∧ px < x + w ∧ y ≤ py ∧ py < y + h ∧ (px = x ∨ px = x + w - 1 ∨ py = y ∨ py = y + h - 1)

/-- Two edges meet in a corner. -/
theorem edgeCount_of_corner {x y w h px py : Int} (hw : 2 ≤ w) (hh : 2 ≤ h) (hp : IsCorner x y w h px py) :
    edgeCount x y w h px py = 2 := by
  unfold IsCorner at hp
  unfold edgeCount
  split_ifs <;> omega

/-- One edge holds any other position of the border. -/
theorem edgeCount_of_side {x y w h px py : Int} (hw : 2 ≤ w) (hh : 2 ≤ h) (hp : IsBorder x y w h px py)
    (hcorner : ¬ IsCorner x y w h px py) : edgeCount x y w h px py = 1 := by
  unfold IsBorder at hp
  unfold IsCorner at hcorner
  unfold edgeCount
  split_ifs <;> omega

/-- No edge leaves the border. -/
theorem edgeCount_of_off_border {x y w h px py : Int} (hw : 1 ≤ w) (hh : 1 ≤ h) (hp : ¬ IsBorder x y w h px py) :
    edgeCount x y w h px py = 0 := by
  unfold IsBorder at hp
  unfold edgeCount
  split_ifs <;> omega

/-- Under Invert the border without its corners flips (spec/41_primitives.md R147). -/
theorem drawRect_invert_paints {s : State} (hc : legal s.cfg = true) {x y w h : Int} (hw : 2 ≤ w) (hh : 2 ≤ h) :
    ∃ fb dirty, (.next (draw (inColour .invert (rectPoints x y w h)) s) : Result) =
        .next { s with fb := fb, dirty := dirty } ∧
      Paints s.cfg (fun px py => IsBorder x y w h px py ∧ ¬ IsCorner x y w h px py) (fun _ _ b => !b) s.fb fb := by
  obtain ⟨fb, dirty, hnext, hpaints, -⟩ := draw_paints_and_marks (colour := .invert) hc
    (fun px py => mem_rectPoints (x := x) (y := y) (w := w) (h := h)) (fun px py b _ => rfl)
  refine ⟨fb, dirty, hnext, paints_shrink hc hpaints (fun px py hT => ?_) (fun px py b hT => ?_)
    fun px py b hS hT => ?_⟩
  · rw [edgeCount_of_side hw hh hT.1 hT.2]
    exact one_pos
  · simp [count_rectPoints, edgeCount_of_side hw hh hT.1 hT.2]
  · have hborder : IsBorder x y w h px py := by
      by_contra hb
      exact hS.ne' (edgeCount_of_off_border (by omega) (by omega) hb)
    have hcorner : IsCorner x y w h px py := not_not.1 fun hnc => hT ⟨hborder, hnc⟩
    simp [count_rectPoints, edgeCount_of_corner hw hh hcorner]

/-- Settles O34: of the four edges two meet in each corner and nowhere else, and a pixel that flips twice keeps its
bit. -/
theorem rectInvertKeepsCorners : Obligations.RectInvertKeepsCorners := by
  unfold Obligations.RectInvertKeepsCorners
  rintro x y w h hw hh _ _ rfl rfl
  have hw' : (2 : Int) ≤ w.toNat := by exact_mod_cast hw
  have hh' : (2 : Int) ≤ h.toNat := by exact_mod_cast hh
  refine ⟨fun px py => ?_, fun s hc => drawRect_invert_paints hc hw' hh'⟩
  rw [count_rectPoints]
  exact ⟨edgeCount_of_corner hw' hh', edgeCount_of_side hw' hh', edgeCount_of_off_border (by omega) (by omega)⟩

/-! ## A white line, then a black one -/

/-- Painting the same positions twice composes what becomes of each pixel. -/
theorem paints_trans {c : Config} {S : Int → Int → Prop} {f g : Int → Int → Bool → Bool} {fb fb' fb'' : Memory}
    (h : Paints c S f fb fb') (h' : Paints c S g fb' fb'') : Paints c S (fun x y b => g x y (f x y b)) fb fb'' := by
  obtain ⟨hpix, hbyte⟩ := h
  obtain ⟨hpix', hbyte'⟩ := h'
  refine ⟨fun x y hin => ⟨fun hS => ?_, fun hS => ?_⟩, fun j hj => (hbyte' j hj).trans (hbyte j hj)⟩
  · rw [(hpix' x y hin).1 hS, (hpix x y hin).1 hS]
  · rw [(hpix' x y hin).2 hS, (hpix x y hin).2 hS]

/-- Clearing the pixels of `S` keeps every byte exactly when they were clear (spec/41_primitives.md R145). -/
theorem fbRead_eq_iff_of_clears {c : Config} (hc : legal c = true) {S : Int → Int → Prop} {fb fb' : Memory}
    (h : Paints c S (fun _ _ _ => false) fb fb') :
    (∀ j, fbRead fb' j = fbRead fb j) ↔ ∀ x y, inPanel c x y = true → S x y → pixel c fb x y = false := by
  constructor
  · intro hsame x y hin hS
    have hclear := (h.1 x y hin).1 hS
    rwa [pixel, hsame] at hclear
  · intro hclear j
    by_cases hj : j < fbBytes c
    · refine fbRead_eq_of_pixel hc hj fun x y hin _ => ?_
      by_cases hS : S x y
      · rw [(h.1 x y hin).1 hS, hclear x y hin hS]
      · exact (h.1 x y hin).2 hS
    · exact fbRead_of_paints hc h (not_lt.1 hj)

/-- Growing by the same positions again changes nothing. -/
theorem growsTo_again {c : Config} {S : Int → Int → Prop} {d d' d'' : Dirty} (h : GrowsTo c S d d')
    (h' : GrowsTo c S d' d'') : d'' = d' :=
  growsTo_unique (growsTo_congr (growsTo_trans h h') fun _ _ _ => or_self_iff) h

/-- White and then black pixel steps at the positions `S` (spec/41_primitives.md R145). -/
theorem draw_white_then_black {s : State} (hc : legal s.cfg = true) {ps : List (Int × Int)} {S : Int → Int → Prop}
    (hmem : ∀ px py, (px, py) ∈ ps ↔ S px py) :
    ∃ t fb dirty, (.next (draw (inColour .white ps) s) : Result) = .next t ∧
      (.next (draw (inColour .black ps) t) : Result) = .next { s with fb := fb, dirty := dirty } ∧
      Paints s.cfg S (fun _ _ _ => false) s.fb fb ∧
      ((∀ j, fbRead fb j = fbRead s.fb j) ↔
        ∀ px py, inPanel s.cfg px py = true → S px py → pixel s.cfg s.fb px py = false) ∧
      dirty = t.dirty ∧ GrowsTo s.cfg S s.dirty dirty := by
  obtain ⟨fb₁, dirty₁, hwhite, paints₁, grows₁⟩ :=
    draw_paints_and_marks_of_nodup (colour := .white) hc hmem (fun h => nomatch h)
  obtain ⟨fb₂, dirty₂, hblack, paints₂, grows₂⟩ :=
    draw_paints_and_marks_of_nodup (s := { s with fb := fb₁, dirty := dirty₁ }) (colour := .black) hc hmem
      (fun h => nomatch h)
  have hpaints : Paints s.cfg S (fun _ _ _ => false) s.fb fb₂ := paints_trans paints₁ paints₂
  obtain rfl : dirty₂ = dirty₁ := growsTo_again grows₁ grows₂
  exact ⟨_, fb₂, dirty₂, hwhite, hblack, hpaints, fbRead_eq_iff_of_clears hc hpaints, rfl, grows₁⟩

/-- Settles O32: both kinds of line are pixel steps at the positions of their span. -/
theorem whiteThenBlackLine : Obligations.WhiteThenBlackLine := by
  unfold Obligations.WhiteThenBlackLine
  rintro s x y n hc _ _ (⟨rfl, rfl⟩ | ⟨rfl, rfl⟩)
  · simp only [exec_drawHline]
    exact draw_white_then_black hc fun _ _ => mem_hlinePoints
  · simp only [exec_drawVline]
    exact draw_white_then_black hc fun _ _ => mem_vlinePoints

/-! ## The byte-level forms of the lines -/

/-- Pixel steps off the panel do nothing. -/
theorem plotAll_inColour_off {c : Config} {colour : Colour} {ps : List (Int × Int)}
    (h : ∀ px py, (px, py) ∈ ps → inPanel c px py = false) (v : Canvas) : plotAll c (inColour colour ps) v = v := by
  induction ps generalizing v with
  | nil => rfl
  | cons p ps ih =>
    have hstep : plot c ⟨p.1, p.2, colour⟩ v = v := plot_off (h p.1 p.2 (List.mem_cons_self ..)) v
    rw [inColour, List.map_cons, plotAll, hstep]
    exact ih (fun px py hm => h px py (List.mem_cons_of_mem _ hm)) v

/-- The marks of two opposite corners of a rectangle are those of any positions in it that touch its four sides. -/
theorem growsTo_mark_corners {c : Config} (hc : legal c = true) {S : Int → Int → Prop} {left top right bottom : Int}
    (d : Dirty) (hlt : inPanel c left top = true) (hrb : inPanel c right bottom = true)
    (hbox : ∀ x y, S x y → inPanel c x y = true → left ≤ x ∧ x ≤ right ∧ top ≤ y ∧ y ≤ bottom)
    (hleft : ∃ y, S left y ∧ inPanel c left y = true) (hright : ∃ y, S right y ∧ inPanel c right y = true)
    (htop : ∃ x, S x top ∧ inPanel c x top = true) (hbottom : ∃ x, S x bottom ∧ inPanel c x bottom = true) :
    GrowsTo c S d (mark c right bottom (mark c left top d)) := by
  obtain ⟨holds, hd, gtop, gleft, gright, gbottom⟩ :=
    growsTo_trans (growsTo_mark hc left top d) (growsTo_mark hc right bottom (mark c left top d))
  have row {n : Nat} (h : ∃ x y, (x = left ∧ y = top ∨ x = right ∧ y = bottom) ∧ inPanel c x y = true ∧ y = n) :
      ∃ x y, S x y ∧ inPanel c x y = true ∧ y = n := by
    obtain ⟨_, _, ⟨-, rfl⟩ | ⟨-, rfl⟩, -, hn⟩ := h
    · exact htop.imp fun x hx => ⟨_, hx.1, hx.2, hn⟩
    · exact hbottom.imp fun x hx => ⟨_, hx.1, hx.2, hn⟩
  have column {n : Nat} (h : ∃ x y, (x = left ∧ y = top ∨ x = right ∧ y = bottom) ∧ inPanel c x y = true ∧ x = n) :
      ∃ x y, S x y ∧ inPanel c x y = true ∧ x = n := by
    obtain ⟨_, _, ⟨rfl, -⟩ | ⟨rfl, -⟩, -, hn⟩ := h
    · exact ⟨_, hleft.imp fun y hy => ⟨hy.1, hy.2, hn⟩⟩
    · exact ⟨_, hright.imp fun y hy => ⟨hy.1, hy.2, hn⟩⟩
  refine ⟨fun x y hS hin => ?_, hd, gtop.imp_right row, gleft.imp_right column, gright.imp_right column,
    gbottom.imp_right row⟩
  have hb := hbox x y hS hin
  have hlt' := holds left top (.inl ⟨rfl, rfl⟩) hlt
  have hrb' := holds right bottom (.inr ⟨rfl, rfl⟩) hrb
  omega

/-- The marks of the two ends of a line are those of the line (spec/41_primitives.md R141, R143). -/
theorem growsTo_mark_ends {c : Config} (hc : legal c = true) {S : Int → Int → Prop} {x₁ y₁ x₂ y₂ : Int} (d : Dirty)
    (hS₁ : S x₁ y₁) (hin₁ : inPanel c x₁ y₁ = true) (hS₂ : S x₂ y₂) (hin₂ : inPanel c x₂ y₂ = true)
    (hbox : ∀ x y, S x y → inPanel c x y = true → x₁ ≤ x ∧ x ≤ x₂ ∧ y₁ ≤ y ∧ y ≤ y₂) :
    GrowsTo c S d (mark c x₂ y₂ (mark c x₁ y₁ d)) :=
  growsTo_mark_corners hc d hin₁ hin₂ hbox ⟨_, hS₁, hin₁⟩ ⟨_, hS₂, hin₂⟩ ⟨_, hS₁, hin₁⟩ ⟨_, hS₂, hin₂⟩

theorem hlinePoints_cons (x y : Int) (n : Nat) :
    hlinePoints x y (n + 1 : Nat) = (x, y) :: hlinePoints (x + 1) y n := by
  simp only [hlinePoints, Int.toNat_natCast, List.range_succ_eq_map, List.map_cons, List.map_map, Nat.cast_zero,
    add_zero]
  congr 1
  refine List.map_congr_left fun i _ => ?_
  simp only [Function.comp, Prod.mk.injEq, and_true]
  omega

/-- A row in two parts. -/
theorem hlinePoints_append (x y : Int) (m n : Nat) :
    hlinePoints x y (m + n : Nat) = hlinePoints x y m ++ hlinePoints (x + m) y n := by
  induction m generalizing x with
  | zero => simp [hlinePoints]
  | succ m ih =>
    rw [Nat.succ_add, hlinePoints_cons, hlinePoints_cons, ih, List.cons_append, Nat.cast_succ, add_assoc, add_comm 1]

/-- Next points of a row lie in next bytes (spec/41_primitives.md R141). -/
theorem idx_succ (c : Config) {x : Int} (hx : 0 ≤ x) (y : Int) : idx c (x + 1) y = idx c x y + 1 := by
  unfold idx
  omega

theorem plot_fb_on {c : Config} {p : PlotCall} (h : inPanel c p.x p.y = true) (v : Canvas) :
    (plot c p v).fb = fbApply p.colour (bitMask p.y) (idx c p.x p.y) v.fb := by
  rw [plot, if_pos h]
  rfl

/-- A row in the panel: one bit of consecutive bytes (spec/41_primitives.md R141). -/
theorem plotAll_hline_fb {c : Config} (colour : Colour) {x y : Int} {n : Nat}
    (hin : ∀ px, x ≤ px → px < x + n → inPanel c px y = true) (v : Canvas) :
    (plotAll c (inColour colour (hlinePoints x y n)) v).fb =
      (List.range' (idx c x y) n).foldl (fun fb j => fbApply colour (bitMask y) j fb) v.fb := by
  induction n generalizing x v with
  | zero => rfl
  | succ n ih =>
    have hfirst : inPanel c x y = true := hin x le_rfl (by omega)
    have hx : 0 ≤ x := ((inPanel_iff c x y).1 hfirst).1.1
    have hrest := ih (x := x + 1) (fun px h₁ h₂ => hin px (by omega) (by omega)) (plot c ⟨x, y, colour⟩ v)
    rw [plot_fb_on hfirst, idx_succ c hx] at hrest
    rw [hlinePoints_cons, List.range'_succ, List.foldl_cons]
    exact hrest

theorem plotAll_inColour_append (c : Config) (colour : Colour) (ps qs : List (Int × Int)) (v : Canvas) :
    plotAll c (inColour colour (ps ++ qs)) v =
      plotAll c (inColour colour qs) (plotAll c (inColour colour ps) v) := by
  simp only [inColour, List.map_append, plotAll_append]

/-- A row does what its panel part does: `l` positions left of the panel and `r` right of it are dropped
(spec/41_primitives.md R140). -/
theorem plotAll_hline_clip {c : Config} (colour : Colour) {x y : Int} {l m r : Nat} (hl : l = 0 ∨ x + l ≤ 0)
    (hr : r = 0 ∨ (c.W : Int) ≤ x + l + m) (v : Canvas) :
    plotAll c (inColour colour (hlinePoints x y (l + m + r : Nat))) v =
      plotAll c (inColour colour (hlinePoints (x + l) y m)) v := by
  have hoff : ∀ px py, px < 0 ∨ (c.W : Int) ≤ px → inPanel c px py = false := by
    intro px py hpx
    rw [← Bool.not_eq_true, inPanel_iff]
    omega
  rw [hlinePoints_append, hlinePoints_append, plotAll_inColour_append, plotAll_inColour_append]
  rw [plotAll_inColour_off (ps := hlinePoints x y l), plotAll_inColour_off (ps := hlinePoints _ y r)]
  · intro px py hm
    rw [mem_hlinePoints] at hm
    exact hoff px py (by omega)
  · intro px py hm
    rw [mem_hlinePoints] at hm
    exact hoff px py (by omega)

/-- The byte-level row where it meets the panel, from column `xa` to column `xb` (spec/41_primitives.md R141). -/
theorem hline_on_panel {c : Config} (hc : legal c = true) (colour : Colour) {x y w xa xb : Int} (v : Canvas)
    (hy : 0 ≤ y ∧ y < (c.H : Int)) (hxa : xa = max x 0) (hxb : xb = min (x + w - 1) ((c.W : Int) - 1)) (hab : xa ≤ xb) :
    plotAll c (inColour colour (hlinePoints x y w)) v =
      { fb := (List.range' (idx c xa y) (idx c xb y + 1 - idx c xa y)).foldl
          (fun fb j => fbApply colour (bitMask y) j fb) v.fb,
        dirty := mark c xb y (mark c xa y v.dirty) } := by
  have hin : ∀ px, xa ≤ px → px ≤ xb → inPanel c px y = true := fun px h₁ h₂ => (inPanel_iff _ _ _).2 (by omega)
  refine canvas_ext ?_ (growsTo_unique (growsTo_inColour hc colour _ v) (growsTo_mark_ends hc _
    (mem_hlinePoints.2 (by omega)) (hin xa le_rfl hab) (mem_hlinePoints.2 (by omega)) (hin xb hab le_rfl) ?_))
  · obtain ⟨l, hl⟩ := Int.eq_ofNat_of_zero_le (show 0 ≤ xa - x by omega)
    obtain ⟨m, hm⟩ := Int.eq_ofNat_of_zero_le (show 0 ≤ xb + 1 - xa by omega)
    obtain ⟨r, hr⟩ := Int.eq_ofNat_of_zero_le (show 0 ≤ x + w - 1 - xb by omega)
    have hlen : idx c xb y + 1 - idx c xa y = m := by
      unfold idx
      omega
    rw [show w = (l + m + r : Nat) by omega, plotAll_hline_clip colour (by omega) (by omega),
      show x + (l : Int) = xa by omega, hlen, plotAll_hline_fb colour fun px h₁ h₂ => hin px h₁ (by omega)]
  · intro px py hm hpanel
    rw [mem_hlinePoints] at hm
    rw [inPanel_iff] at hpanel
    omega

/-- Settles O29: in the panel the row is `hline_on_panel`, off it both forms do nothing. -/
theorem hlineBytewiseEqualsPlots : Obligations.HlineBytewiseEqualsPlots := by
  unfold Obligations.HlineBytewiseEqualsPlots
  intro c colour x y w v hc
  by_cases hon : (0 ≤ y ∧ y < (c.H : Int)) ∧ max x 0 ≤ min (x + w - 1) ((c.W : Int) - 1)
  · obtain ⟨hy, hx⟩ := hon
    rw [hlineBytes, if_pos hy]
    exact (if_pos hx).trans (hline_on_panel hc colour v hy rfl rfl hx).symm
  · have hv : hlineBytes c colour x y w v = v := by
      unfold hlineBytes
      simp only [ite_eq_right_iff]
      exact fun hy hx => absurd ⟨hy, hx⟩ hon
    rw [hv, plotAll_inColour_off]
    intro px py hm
    rw [mem_hlinePoints] at hm
    rw [← Bool.not_eq_true, inPanel_iff]
    omega

/-! ### The pages of a column -/

/-- Bit `k` of the mask of the bits `lo..hi` (spec/41_primitives.md R143). -/
theorem getLsbD_spanMask {lo hi k : Nat} (hlo : lo < 8) (hhi : hi < 8) (hk : k < 8) :
    (spanMask lo hi).getLsbD k = decide (lo ≤ k ∧ k ≤ hi) := by
  have table : ∀ lo hi k : Fin 8, (spanMask lo hi).getLsbD k = decide (lo ≤ k ∧ k ≤ hi) := by decide
  exact table ⟨lo, hlo⟩ ⟨hi, hhi⟩ ⟨k, hk⟩

theorem fbRead_fbApply (colour : Colour) (m : Byte) (i j : Nat) (fb : Memory) :
    fbRead (fbApply colour m i fb) j = if j = i then applyColour (fbRead fb j) m colour else fbRead fb j := by
  rw [fbApply, fbRead_fbWrite]
  split_ifs with h
  · rw [h]
  · rfl

section Pages

variable (colour : Colour) {mask : Nat → Byte} {byte : Nat → Nat} {ps : List Nat} (fb : Memory)

/-- A pass over some pages leaves every other byte as it was. -/
theorem fbRead_pass_other {j : Nat} (h : ∀ p ∈ ps, byte p ≠ j) :
    fbRead (ps.foldl (fun fb p => fbApply colour (mask p) (byte p) fb) fb) j = fbRead fb j := by
  induction ps generalizing fb with
  | nil => rfl
  | cons p ps ih =>
    rw [List.foldl_cons, ih _ fun q hq => h q (List.mem_cons_of_mem _ hq), fbRead_fbApply,
      if_neg (h p (List.mem_cons_self ..)).symm]

/-- A pass over distinct pages applies the colour under its mask to the byte of each. -/
theorem fbRead_pass_same (hbyte : Function.Injective byte) (hps : ps.Nodup) {p : Nat} (hp : p ∈ ps) :
    fbRead (ps.foldl (fun fb p => fbApply colour (mask p) (byte p) fb) fb) (byte p) =
      applyColour (fbRead fb (byte p)) (mask p) colour := by
  induction ps generalizing fb with
  | nil => cases hp
  | cons q ps ih =>
    obtain ⟨hq, hps⟩ := List.nodup_cons.1 hps
    rw [List.foldl_cons]
    obtain rfl | hp := List.mem_cons.1 hp
    · rw [fbRead_pass_other _ _ fun p' hp' => hbyte.ne (ne_of_mem_of_not_mem hp' hq), fbRead_fbApply, if_pos rfl]
    · rw [ih _ hps hp, fbRead_fbApply, if_neg (hbyte.ne (ne_of_mem_of_not_mem hp hq))]

/-- A pass over pages inside FB keeps its canonical form. -/
theorem wf_pass {n : Nat} (hfb : Memory.wf fbUnlisted n fb) (h : ∀ p ∈ ps, byte p < n) :
    Memory.wf fbUnlisted n (ps.foldl (fun fb p => fbApply colour (mask p) (byte p) fb) fb) := by
  induction ps generalizing fb with
  | nil => exact hfb
  | cons p ps ih =>
    exact ih _ (wf_fbWrite _ hfb (h p (List.mem_cons_self ..))) fun q hq => h q (List.mem_cons_of_mem _ hq)

end Pages

/-- The byte of column `x` in page `p` holds the points `8 * p .. 8 * p + 7` of the column. -/
theorem idx_page (c : Config) (x : Int) {y : Int} {p : Nat} (h : y.toNat / 8 = p) : idx c x y = x.toNat + p * c.W := by
  rw [idx, h]

/-- The column and the page of a byte of FB are determined by its index (spec/40_framebuffer.md R112). -/
theorem column_page_inj {W a b p q : Nat} (ha : a < W) (hb : b < W) (h : a + p * W = b + q * W) : a = b ∧ p = q := by
  obtain rfl : a = b := by
    simpa [Nat.add_mul_mod_self_right, Nat.mod_eq_of_lt ha, Nat.mod_eq_of_lt hb] using congrArg (· % W) h
  exact ⟨rfl, Nat.eq_of_mul_eq_mul_right (by omega) (Nat.add_left_cancel h)⟩

/-- The rows of page `p` between `ya` and `yb`, as a mask (spec/41_primitives.md R143). -/
def pageMask (ya yb : Int) (p : Nat) : Byte :=
  spanMask (max ya.toNat (8 * p) - 8 * p) (min yb.toNat (8 * p + 7) - 8 * p)

/-- FB after the byte-batched column `x` from row `ya` to row `yb` (spec/41_primitives.md R143). -/
def columnBytes (c : Config) (colour : Colour) (x ya yb : Int) (fb : Memory) : Memory :=
  (List.range' (ya.toNat / 8) (yb.toNat / 8 + 1 - ya.toNat / 8)).foldl
    (fun fb p => fbApply colour (pageMask ya yb p) (x.toNat + p * c.W) fb) fb

/-- Bit `y mod 8` of the mask of the page of row `y` says whether the column holds that row. -/
theorem getLsbD_pageMask {ya yb y : Int} (ha : 0 ≤ ya) (hb : 0 ≤ yb) (hy : 0 ≤ y) (hya : ya.toNat / 8 ≤ y.toNat / 8)
    (hyb : y.toNat / 8 ≤ yb.toNat / 8) :
    (pageMask ya yb (y.toNat / 8)).getLsbD (y.toNat % 8) = decide (ya ≤ y ∧ y ≤ yb) := by
  rw [pageMask, getLsbD_spanMask (by omega) (by omega) (by omega), decide_eq_decide]
  omega

/-- The byte-batched column changes the pixels of its rows as the colour says and no others. -/
theorem pixel_columnBytes {c : Config} (colour : Colour) {x ya yb : Int} (fb : Memory) (hx : 0 ≤ x ∧ x < (c.W : Int))
    (ha : 0 ≤ ya) (hab : ya ≤ yb) {px py : Int} (hin : inPanel c px py = true) :
    pixel c (columnBytes c colour x ya yb fb) px py =
      if px = x ∧ ya ≤ py ∧ py ≤ yb then colourBit colour (pixel c fb px py) else pixel c fb px py := by
  have hpanel := (inPanel_iff c px py).1 hin
  have hbyte : Function.Injective fun p => x.toNat + p * c.W := fun p q h =>
    (column_page_inj (by omega) (by omega) h).2
  by_cases hp : px = x ∧ ya.toNat / 8 ≤ py.toNat / 8 ∧ py.toNat / 8 ≤ yb.toNat / 8
  · obtain ⟨rfl, hpa, hpb⟩ := hp
    have hmem : py.toNat / 8 ∈ List.range' (ya.toNat / 8) (yb.toNat / 8 + 1 - ya.toNat / 8) :=
      List.mem_range'_1.2 (by omega)
    have hread := fbRead_pass_same colour fb hbyte (mask := pageMask ya yb) List.nodup_range' hmem
    rw [pixel, idx_page c px rfl, columnBytes, hread, getLsbD_applyColour _ _ _ (Nat.mod_lt _ (by decide)),
      getLsbD_pageMask ha (by omega) hpanel.2.1 hpa hpb, pixel, idx_page c px rfl]
    simp
  · rw [if_neg (by omega), pixel, pixel, columnBytes, fbRead_pass_other]
    intro p hpm hidx
    rw [List.mem_range'_1] at hpm
    obtain ⟨hcol, rfl⟩ := column_page_inj (by omega) (by omega) hidx
    omega

/-- The byte-batched column keeps the canonical form of FB. -/
theorem wf_columnBytes {c : Config} (hc : legal c = true) (colour : Colour) {x ya yb : Int} {fb : Memory}
    (hx : 0 ≤ x ∧ x < (c.W : Int)) (ha : 0 ≤ ya) (hab : ya ≤ yb) (hb : yb < (c.H : Int))
    (hfb : Memory.wf fbUnlisted (fbBytes c) fb) :
    Memory.wf fbUnlisted (fbBytes c) (columnBytes c colour x ya yb fb) := by
  obtain ⟨-, -, -, -, -, h8, -⟩ := legal_ranges hc
  refine wf_pass colour fb hfb fun p hp => ?_
  rw [List.mem_range'_1] at hp
  have hin : inPanel c x (8 * p : Nat) = true := (inPanel_iff _ _ _).2 (by omega)
  have hlt := idx_lt_fbBytes hc hin
  rwa [idx_page c x (p := p) (by omega)] at hlt

/-- The byte-batched column where it meets the panel, from row `ya` to row `yb` (spec/41_primitives.md R143). -/
theorem vline_on_panel {c : Config} (hc : legal c = true) (colour : Colour) {x y h ya yb : Int} {v : Canvas}
    (hv : Memory.wf fbUnlisted (fbBytes c) v.fb) (hx : 0 ≤ x ∧ x < (c.W : Int)) (hya : ya = max y 0)
    (hyb : yb = min (y + h - 1) ((c.H : Int) - 1)) (hab : ya ≤ yb) :
    plotAll c (inColour colour (vlinePoints x y h)) v =
      { fb := columnBytes c colour x ya yb v.fb, dirty := mark c x yb (mark c x ya v.dirty) } := by
  have hin : ∀ py, ya ≤ py → py ≤ yb → inPanel c x py = true := fun py h₁ h₂ => (inPanel_iff _ _ _).2 (by omega)
  refine canvas_ext ?_ (growsTo_unique (growsTo_inColour hc colour _ v) (growsTo_mark_ends hc _
    (mem_vlinePoints.2 (by omega)) (hin ya le_rfl hab) (mem_vlinePoints.2 (by omega)) (hin yb hab le_rfl) ?_))
  · refine fb_ext_pixel hc (wf_plotAll hc _ hv) (wf_columnBytes hc colour hx (by omega) hab (by omega) hv)
      fun px py hpanel => ?_
    obtain ⟨hon, hoff⟩ := (paints_inColour_nodup c colour v (nodup_vlinePoints x y h)).1 px py hpanel
    rw [pixel_columnBytes colour v.fb hx (by omega) hab hpanel]
    rw [inPanel_iff] at hpanel
    split_ifs with hspan
    · exact hon (mem_vlinePoints.2 (by omega))
    · exact hoff (mt mem_vlinePoints.1 (by omega))
  · intro px py hm hpanel
    rw [mem_vlinePoints] at hm
    rw [inPanel_iff] at hpanel
    omega

/-- Settles O31: in the panel the column is `vline_on_panel`, off it both forms do nothing. -/
theorem vlineBatchedEqualsPlots : Obligations.VlineBatchedEqualsPlots := by
  unfold Obligations.VlineBatchedEqualsPlots
  intro c colour x y h v hc hv
  by_cases hon : (0 ≤ x ∧ x < (c.W : Int) ∧ 0 < h) ∧ max y 0 ≤ min (y + h - 1) ((c.H : Int) - 1)
  · obtain ⟨hx, hy⟩ := hon
    rw [vlineBatched, if_pos hx]
    exact (if_pos hy).trans (vline_on_panel hc colour hv ⟨hx.1, hx.2.1⟩ rfl rfl hy).symm
  · have hkept : vlineBatched c colour x y h v = v := by
      unfold vlineBatched
      simp only [ite_eq_right_iff]
      exact fun hx hy => absurd ⟨hx, hy⟩ hon
    rw [hkept, plotAll_inColour_off]
    intro px py hm
    rw [mem_vlinePoints] at hm
    rw [← Bool.not_eq_true, inPanel_iff]
    omega

end Sys2Proof
end

section
/-! PROOFS. Circles (spec/41_primitives.md R149 to R154): the loop states as a relation between `a` and `b`, the
positions of the outline and of the disc, that no position of an outline or of an Invert fill repeats, and that the two
passes of an Invert fill hold the disc. -/

namespace Sys2Proof

open Machine

/-! ## The loop states -/

theorem circleRun_a {r : Nat} {a b e : Nat → Int} {n : Nat} (h : CircleRun r a b e n) (i : Nat) : a i = 1 + i := by
  induction i with
  | zero => exact h.start.1
  | succ i ih => rw [h.next, ih, Nat.cast_succ, add_assoc]

theorem loopState_iff {r : Nat} {a b : Int} : LoopState r a b ↔ (a, b) ∈ circleStates r := by
  constructor
  · rintro ⟨as, bs, es, n, i, hrun, hi, rfl, rfl⟩
    rw [circleStates_of_run hrun]
    exact List.mem_map.2 ⟨i, List.mem_range.2 hi, rfl⟩
  · intro hm
    obtain ⟨as, bs, es, n, hrun⟩ := exists_circleRun r
    rw [circleStates_of_run hrun] at hm
    obtain ⟨i, hi, heq⟩ := List.mem_map.1 hm
    exact ⟨as, bs, es, n, i, hrun, List.mem_range.1 hi, congrArg Prod.fst heq, congrArg Prod.snd heq⟩

/-- Settles O36: any run of the recurrence gives the loop states, and its `a` counts them. -/
theorem circleLoopFollowsTheRecurrence : Obligations.CircleLoopFollowsTheRecurrence := by
  unfold Obligations.CircleLoopFollowsTheRecurrence
  intro r
  obtain ⟨a, b, e, n, hrun⟩ := exists_circleRun r
  have hstates := circleStates_of_run hrun
  refine ⟨⟨a, b, e, n, hrun, hstates, ?_⟩, fun _ _ => loopState_iff⟩
  rw [fillCheckpoint, hstates, List.length_map, List.length_range, circleRun_a hrun]

/-- A loop state has a number, which `a` counts from 1. -/
theorem loopState_index {r : Nat} {a b : Int} (h : LoopState r a b) :
    ∃ i, ∃ hi : i < (circleStates r).length, a = 1 + i ∧ b = ((circleStates r)[i]).2 := by
  obtain ⟨i, hi, heq⟩ := List.mem_iff_getElem.1 (loopState_iff.1 h)
  refine ⟨i, hi, ?_, by rw [heq]⟩
  rw [← (circleStates_getElem hi).1, heq]

theorem loopState_getElem {r i : Nat} (hi : i < (circleStates r).length) :
    LoopState r (1 + i) ((circleStates r)[i]).2 := by
  rw [loopState_iff, ← (circleStates_getElem hi).1]
  exact List.getElem_mem hi

/-- The ranges of a loop state: `1 ≤ a ≤ b ≤ r`, and `a` stays below the checkpoint. -/
theorem loopState_bounds {r : Nat} {a b : Int} (h : LoopState r a b) :
    1 ≤ a ∧ a ≤ b ∧ b ≤ r ∧ a < fillCheckpoint r := by
  obtain ⟨i, hi, rfl, rfl⟩ := loopState_index h
  have hab := circleStates_getElem hi
  unfold fillCheckpoint
  omega

/-- A loop state with a larger `a` has no larger `b`. -/
theorem loopState_antitone {r : Nat} {a b a' b' : Int} (h : LoopState r a b) (h' : LoopState r a' b') (hle : a ≤ a') :
    b' ≤ b := by
  obtain ⟨i, hi, rfl, rfl⟩ := loopState_index h
  obtain ⟨j, hj, rfl, rfl⟩ := loopState_index h'
  exact circleStates_antitone (by omega) hj

theorem loopState_start {r : Nat} (hr : 1 ≤ r) : LoopState r 1 r := by
  obtain ⟨l, hl⟩ := circleStates_cons hr
  rw [loopState_iff, hl]
  exact List.mem_cons_self ..

/-- Every `a` from 1 up to the checkpoint has a loop state. -/
theorem exists_loopState {r : Nat} {a : Int} (h1 : 1 ≤ a) (ha : a < fillCheckpoint r) : ∃ b, LoopState r a b := by
  obtain ⟨i, hi⟩ := Int.eq_ofNat_of_zero_le (show 0 ≤ a - 1 by omega)
  obtain rfl : a = 1 + i := by omega
  unfold fillCheckpoint at ha
  exact ⟨_, loopState_getElem (show i < (circleStates r).length by omega)⟩

/-- No `b` lies below the last `a`. -/
theorem fillCheckpoint_le {r : Nat} {a b : Int} (h : LoopState r a b) : fillCheckpoint r ≤ b + 1 := by
  obtain ⟨h1, -, -, hlt⟩ := loopState_bounds h
  obtain ⟨b', hlast⟩ := exists_loopState (r := r) (a := fillCheckpoint r - 1) (by omega) (by omega)
  have hb := loopState_antitone h hlast (by omega)
  have := loopState_bounds hlast
  omega

/-- From a loop state on `b` takes every value down to the checkpoint: it falls by at most one. -/
theorem exists_loopState_of_b {r d i : Nat} {x : Int} (hi : i < (circleStates r).length)
    (hd : i + d + 1 = (circleStates r).length) (hcheck : fillCheckpoint r ≤ x) (hx : x ≤ ((circleStates r)[i]).2) :
    ∃ a, 1 + (i : Int) ≤ a ∧ LoopState r a x := by
  induction d generalizing i with
  | zero =>
    have hlast := circleStates_last hi (by omega)
    have heq : ((circleStates r)[i]).2 = x := by
      unfold fillCheckpoint at hcheck
      omega
    exact ⟨1 + i, le_rfl, heq ▸ loopState_getElem hi⟩
  | succ d ih =>
    have hi' : i + 1 < (circleStates r).length := by omega
    by_cases heq : ((circleStates r)[i]).2 = x
    · exact ⟨1 + i, le_rfl, heq ▸ loopState_getElem hi⟩
    · have hnext : ((circleStates r)[i + 1]).2 = ((circleStates r)[i]).2 ∨
          ((circleStates r)[i + 1]).2 = ((circleStates r)[i]).2 - 1 := circleWalk_next hi'
      obtain ⟨a, ha, hstate⟩ := ih hi' (by omega) (by omega)
      exact ⟨a, by omega, hstate⟩

theorem loopState_of_between {r : Nat} {a b x : Int} (h : LoopState r a b) (hcheck : fillCheckpoint r ≤ x)
    (hx : x ≤ b) : ∃ a', a ≤ a' ∧ LoopState r a' x := by
  obtain ⟨i, hi, rfl, rfl⟩ := loopState_index h
  exact exists_loopState_of_b (d := (circleStates r).length - i - 1) hi (by omega) hcheck hx

/-- Over the loop states no position repeats, if none does in one state and no two states share one. -/
theorem nodup_flatMap_circleStates {r : Nat} {f : Int × Int → List (Int × Int)}
    (hone : ∀ a b, LoopState r a b → (f (a, b)).Nodup)
    (htwo : ∀ a b a' b', LoopState r a b → LoopState r a' b' → a < a' → b' ≤ b →
      ∀ px py, (px, py) ∈ f (a, b) → (px, py) ∉ f (a', b')) : ((circleStates r).flatMap f).Nodup := by
  rw [List.nodup_flatMap]
  refine ⟨fun s hs => hone s.1 s.2 (loopState_iff.2 hs), List.pairwise_iff_getElem.2 fun i j hi hj hij p hp hp' => ?_⟩
  have ha := (circleStates_getElem hi).1
  have ha' := (circleStates_getElem hj).1
  exact htwo (circleStates r)[i].1 (circleStates r)[i].2 (circleStates r)[j].1 (circleStates r)[j].2
    (loopState_iff.2 (List.getElem_mem hi)) (loopState_iff.2 (List.getElem_mem hj)) (by omega)
    (circleStates_antitone hij.le hj) p.1 p.2 hp hp'

/-! ## The outline -/

theorem mem_cardinalPoints {x0 y0 r px py : Int} :
    (px, py) ∈ cardinalPoints x0 y0 r ↔
      (px = x0 - r ∨ px = x0 + r) ∧ py = y0 ∨ px = x0 ∧ (py = y0 - r ∨ py = y0 + r) := by
  simp only [cardinalPoints, List.mem_cons, List.not_mem_nil, Prod.mk.injEq]
  tauto

theorem mem_octantPoints {x0 y0 y x px py : Int} :
    (px, py) ∈ octantPoints x0 y0 y x ↔
      (px = x0 + x ∨ px = x0 - x) ∧ (py = y0 + y ∨ py = y0 - y) ∨
        x ≠ y ∧ (px = x0 + y ∨ px = x0 - y) ∧ (py = y0 + x ∨ py = y0 - x) := by
  unfold octantPoints
  split_ifs with h <;> simp only [List.mem_append, List.mem_cons, List.not_mem_nil, Prod.mk.injEq] <;> tauto

/-- DRAW_CIRCLE plots the positions of R150 (spec/41_primitives.md R150). -/
theorem mem_circlePoints {x0 y0 : Int} {r : Nat} {px py : Int} :
    (px, py) ∈ circlePoints x0 y0 r ↔ OnOutline x0 y0 r px py := by
  unfold circlePoints OnOutline
  split_ifs with hr
  · simp [hr]
  · simp only [List.mem_append, mem_cardinalPoints, List.mem_flatMap, Prod.exists, mem_octantPoints, loopState_iff,
      show 1 ≤ r by omega, true_and, or_assoc]

theorem nodup_cardinalPoints {x0 y0 r : Int} (hr : 1 ≤ r) : (cardinalPoints x0 y0 r).Nodup := by
  simp only [cardinalPoints, List.nodup_cons, List.mem_cons, List.not_mem_nil, Prod.mk.injEq, List.nodup_nil,
    or_false, not_false_eq_true, and_true]
  omega

/-- The plots of one state are eight positions, or four on the diagonal (spec/41_primitives.md R150). -/
theorem nodup_octantPoints {x0 y0 y x : Int} (hy : 1 ≤ y) (hx : y ≤ x) : (octantPoints x0 y0 y x).Nodup := by
  unfold octantPoints
  split_ifs with h <;>
    simp only [List.cons_append, List.nil_append, List.nodup_cons, List.mem_cons, List.not_mem_nil, Prod.mk.injEq,
      List.nodup_nil, or_false, not_false_eq_true, and_true] <;> omega

/-- Two states share no position: a mirrored plot of one and a direct plot of the other would swap the octant
(spec/41_primitives.md R151). -/
theorem octantPoints_disjoint {x0 y0 y x y' x' px py : Int} (hy : 1 ≤ y) (hx : y ≤ x) (hx' : y' ≤ x') (hlt : y < y')
    (hle : x' ≤ x) (hp : (px, py) ∈ octantPoints x0 y0 y x) : (px, py) ∉ octantPoints x0 y0 y' x' := by
  rw [mem_octantPoints] at hp ⊢
  omega

/-- DRAW_CIRCLE plots no position twice (spec/41_primitives.md R151). -/
theorem nodup_circlePoints (x0 y0 : Int) (r : Nat) : (circlePoints x0 y0 r).Nodup := by
  unfold circlePoints
  split_ifs with hr
  · exact List.nodup_nil
  · refine List.nodup_append'.2 ⟨nodup_cardinalPoints (by omega), nodup_flatMap_circleStates (fun y x hs => ?_)
      (fun y x y' x' hs hs' hlt hle px py hp => ?_), fun p hp hp' => ?_⟩
    · have := loopState_bounds hs
      exact nodup_octantPoints (by omega) (by omega)
    · have := loopState_bounds hs
      have := loopState_bounds hs'
      exact octantPoints_disjoint (by omega) (by omega) (by omega) hlt hle hp
    · obtain ⟨s, hs, hp'⟩ := List.mem_flatMap.1 hp'
      have := loopState_bounds (loopState_iff.2 hs)
      rw [mem_cardinalPoints] at hp
      rw [mem_octantPoints] at hp'
      omega

theorem exec_drawCircle (colour : Colour) (x0 y0 r : BitVec 12) (s : State) :
    exec (.drawCircle colour x0 y0 r) s =
      .next (draw (inColour colour (circlePoints x0.toInt y0.toInt r.toNat)) s) := rfl

/-- Settles O37: the outline holds R150's positions, none twice. -/
theorem drawCirclePaintsItsPoints : Obligations.DrawCirclePaintsItsPoints := by
  unfold Obligations.DrawCirclePaintsItsPoints
  intro s colour x0 y0 r hc
  rw [exec_drawCircle]
  exact draw_paints_and_marks_of_nodup hc (fun _ _ => mem_circlePoints) fun _ => nodup_circlePoints _ _ _

theorem outline_in_square {x0 y0 : Int} {r : Nat} {px py : Int} (h : OnOutline x0 y0 r px py) :
    x0 - r ≤ px ∧ px ≤ x0 + r ∧ y0 - r ≤ py ∧ py ≤ y0 + r := by
  obtain ⟨-, h | h | ⟨y, x, hs, h⟩⟩ := h
  · omega
  · omega
  · have := loopState_bounds hs
    omega

/-- From the sentinel, positions that touch all four sides of a rectangle of the panel and lie inside it leave DIRTY at
that rectangle (spec/41_primitives.md R151, R154). -/
theorem bounds_of_growsTo_sentinel {c : Config} (hc : legal c = true) {S : Int → Int → Prop} {d d' : Dirty}
    {left right top bottom : Int} (hd : d = Dirty.sentinel) (h : GrowsTo c S d d')
    (hlt : inPanel c left top = true) (hrb : inPanel c right bottom = true)
    (hbox : ∀ x y, S x y → left ≤ x ∧ x ≤ right ∧ top ≤ y ∧ y ≤ bottom)
    (hleft : ∃ y, S left y) (hright : ∃ y, S right y) (htop : ∃ x, S x top) (hbottom : ∃ x, S x bottom) :
    (d'.top.toNat : Int) = top ∧ (d'.left.toNat : Int) = left ∧ (d'.right.toNat : Int) = right ∧
      (d'.bottom.toNat : Int) = bottom := by
  have hlt' := (inPanel_iff _ _ _).1 hlt
  have hrb' := (inPanel_iff _ _ _).1 hrb
  have hin : ∀ x y, S x y → S x y ∧ inPanel c x y = true := by
    intro x y hS
    have := hbox x y hS
    exact ⟨hS, (inPanel_iff _ _ _).2 (by omega)⟩
  obtain rfl := growsTo_unique h (growsTo_mark_corners hc d hlt hrb (fun x y hS _ => hbox x y hS)
    (hleft.imp fun y => hin left y) (hright.imp fun y => hin right y) (htop.imp fun x => hin x top)
    (hbottom.imp fun x => hin x bottom))
  obtain ⟨y, hy⟩ := hleft
  obtain ⟨x, hx⟩ := htop
  have hwide := hbox left y hy
  have htall := hbox x top hx
  have hmark := mark_bounds hc hlt d
  have hmark' := mark_bounds hc hrb (mark c left top d)
  obtain ⟨stop, sleft, sright, sbottom⟩ : d.top.toNat = 255 ∧ d.left.toNat = 255 ∧ d.right.toNat = 0 ∧
      d.bottom.toNat = 0 := by
    rw [hd]
    decide
  obtain ⟨-, hW, -, -, hH, -, -⟩ := legal_ranges hc
  omega

/-- Settles O38: the cardinal points lie on the four sides of the square that holds the outline. -/
theorem circlePlotsNoPositionTwice : Obligations.CirclePlotsNoPositionTwice := by
  unfold Obligations.CirclePlotsNoPositionTwice
  intro x0 y0 r
  refine ⟨fun px py => mem_circlePoints, fun hr => ?_⟩
  have hbox : ∀ px py, (px, py) ∈ circlePoints x0 y0 r → x0 - r ≤ px ∧ px ≤ x0 + r ∧ y0 - r ≤ py ∧ py ≤ y0 + r :=
    fun px py h => outline_in_square (mem_circlePoints.1 h)
  have hleft : ∃ py, (x0 - r, py) ∈ circlePoints x0 y0 r := ⟨y0, mem_circlePoints.2 ⟨hr, by simp⟩⟩
  have hright : ∃ py, (x0 + r, py) ∈ circlePoints x0 y0 r := ⟨y0, mem_circlePoints.2 ⟨hr, by simp⟩⟩
  have htop : ∃ px, (px, y0 - r) ∈ circlePoints x0 y0 r := ⟨x0, mem_circlePoints.2 ⟨hr, by simp⟩⟩
  have hbottom : ∃ px, (px, y0 + r) ∈ circlePoints x0 y0 r := ⟨x0, mem_circlePoints.2 ⟨hr, by simp⟩⟩
  refine ⟨nodup_circlePoints x0 y0 r, hbox, hleft, hright, htop, hbottom, ?_⟩
  rintro c colour v hc hlt hrb hd d rfl
  exact bounds_of_growsTo_sentinel hc hd (growsTo_inColour hc colour _ v) hlt hrb hbox hleft hright htop hbottom

/-! ## The disc -/

theorem mem_fillSpans {x0 y0 : Int} {colour : Colour} {x y px py : Int} :
    (px, py) ∈ fillSpans x0 y0 colour x y ↔
      (px = x0 - x ∨ px = x0 + x) ∧ y0 - y ≤ py ∧ py ≤ y0 + y ∨
        colour ≠ .invert ∧ (px = x0 - y ∨ px = x0 + y) ∧ y0 - x ≤ py ∧ py ≤ y0 + x := by
  by_cases h : colour = .invert
  · simp only [fillSpans, h, ne_eq, not_true_eq_false, if_false, List.append_nil, List.mem_append, mem_vlinePoints,
      false_and, or_false]
    omega
  · simp only [fillSpans, h, ne_eq, not_false_eq_true, if_true, List.mem_append, mem_vlinePoints, true_and]
    omega

theorem mem_fillPass1 {x0 y0 : Int} {r : Nat} {colour : Colour} {px py : Int} :
    (px, py) ∈ fillPass1 x0 y0 r colour ↔
      px = x0 ∧ y0 - r ≤ py ∧ py ≤ y0 + r ∨
        ∃ x y, LoopState r x y ∧ ((px = x0 - x ∨ px = x0 + x) ∧ y0 - y ≤ py ∧ py ≤ y0 + y ∨
          colour ≠ .invert ∧ (px = x0 - y ∨ px = x0 + y) ∧ y0 - x ≤ py ∧ py ≤ y0 + x) := by
  simp only [fillPass1, List.mem_append, mem_vlinePoints, List.mem_flatMap, Prod.exists, mem_fillSpans, loopState_iff]
  refine or_congr_left (and_congr_right fun _ => and_congr_right fun _ => ?_)
  omega

/-- A column of pass 2: at least the checkpoint and at most `x` away from the centre (spec/41_primitives.md R153). -/
def OuterColumn (x0 x1 x px : Int) : Prop := x1 ≤ px - x0 ∧ px - x0 ≤ x ∨ x1 ≤ x0 - px ∧ x0 - px ≤ x

theorem mem_seamSpans {x0 y0 x1 y x px py : Int} :
    (px, py) ∈ seamSpans x0 y0 x1 y x ↔ OuterColumn x0 x1 x px ∧ (py = y0 - y ∨ py = y0 + y) := by
  simp only [seamSpans, List.mem_append, mem_hlinePoints, OuterColumn]
  omega

theorem mem_fillPass2 {x0 y0 : Int} {r : Nat} {px py : Int} :
    (px, py) ∈ fillPass2 x0 y0 r ↔
      OuterColumn x0 (fillCheckpoint r) r px ∧ py = y0 ∨
        ∃ y x, LoopState r y x ∧ OuterColumn x0 (fillCheckpoint r) x px ∧ (py = y0 - y ∨ py = y0 + y) := by
  simp only [fillPass2, List.mem_append, mem_hlinePoints, List.mem_flatMap, Prod.exists, mem_seamSpans, loopState_iff]
  refine or_congr_left ?_
  unfold OuterColumn
  omega

/-- For the colours other than Invert FILL_CIRCLE plots the positions of R153 (spec/41_primitives.md R153). -/
theorem mem_fillCirclePoints_of_ne {x0 y0 : Int} {r : Nat} {colour : Colour} (h : colour ≠ .invert) {px py : Int} :
    (px, py) ∈ fillCirclePoints x0 y0 r colour ↔ InDisc x0 y0 r px py := by
  unfold fillCirclePoints InDisc
  split_ifs with hr
  · simp [hr]
  · simp only [List.append_nil, mem_fillPass1, ne_eq, h, not_false_eq_true, true_and, show 1 ≤ r by omega]

/-- The outer columns of the disc are those of pass 2: from its state on `b` takes every value down to the checkpoint,
so the column is the `b` of a later state (spec/41_primitives.md R153). -/
theorem inDisc_of_outer {x0 y0 : Int} {r : Nat} {a x px py : Int} (hs : LoopState r a x)
    (hcol : OuterColumn x0 (fillCheckpoint r) x px) (hlo : y0 - a ≤ py) (hhi : py ≤ y0 + a) :
    ∃ x y, LoopState r x y ∧ (px = x0 - y ∨ px = x0 + y) ∧ y0 - x ≤ py ∧ py ≤ y0 + x := by
  obtain hcol | hcol := hcol
  · obtain ⟨a', hle, hs'⟩ := loopState_of_between hs hcol.1 hcol.2
    exact ⟨a', _, hs', by omega, by omega, by omega⟩
  · obtain ⟨a', hle, hs'⟩ := loopState_of_between hs hcol.1 hcol.2
    exact ⟨a', _, hs', by omega, by omega, by omega⟩

/-- A transposed span of the disc lies in the columns of pass 1, where the column is below the checkpoint, and in the
rows of pass 2 elsewhere (spec/41_primitives.md R153). -/
theorem mem_passes_of_transposed {x0 y0 : Int} {r : Nat} {x y px py : Int} (hs : LoopState r x y)
    (hcol : px = x0 - y ∨ px = x0 + y) (hlo : y0 - x ≤ py) (hhi : py ≤ y0 + x) :
    (px, py) ∈ fillPass1 x0 y0 r .invert ∨ (px, py) ∈ fillPass2 x0 y0 r := by
  have hbounds := loopState_bounds hs
  by_cases hinner : y < fillCheckpoint r
  · obtain ⟨b, hs'⟩ := exists_loopState (show 1 ≤ y by omega) hinner
    have := fillCheckpoint_le hs'
    exact .inl (mem_fillPass1.2 (.inr ⟨y, b, hs', .inl (by omega)⟩))
  · refine .inr (mem_fillPass2.2 ?_)
    have houter : ∀ b, y ≤ b → OuterColumn x0 (fillCheckpoint r) b px := fun b hb => by
      unfold OuterColumn
      omega
    by_cases hrow : py = y0
    · exact .inl ⟨houter r (by omega), hrow⟩
    · obtain ⟨k, hk⟩ : ∃ k, k = max (py - y0) (y0 - py) := ⟨_, rfl⟩
      obtain ⟨b, hs'⟩ := exists_loopState (r := r) (show 1 ≤ k by omega) (by omega)
      exact .inr ⟨k, b, hs', houter b (loopState_antitone hs' hs (by omega)), by omega⟩

/-- The two passes of Invert plot the positions of R153 (spec/41_primitives.md R154). -/
theorem mem_fillCirclePoints_invert {x0 y0 : Int} {r : Nat} {px py : Int} :
    (px, py) ∈ fillCirclePoints x0 y0 r .invert ↔ InDisc x0 y0 r px py := by
  unfold fillCirclePoints InDisc
  by_cases hr : r = 0
  · simp [hr]
  · have hr' : 1 ≤ r := by omega
    simp only [hr, if_false, if_true, List.mem_append, hr', true_and]
    constructor
    · rintro (h | h)
      · obtain h | ⟨x, y, hs, h | h⟩ := mem_fillPass1.1 h
        · exact .inl h
        · exact .inr ⟨x, y, hs, .inl h⟩
        · exact absurd rfl h.1
      · obtain ⟨hcol, hrow⟩ | ⟨y, x, hs, hcol, hrow⟩ := mem_fillPass2.1 h
        · obtain ⟨x, y, hs, h⟩ := inDisc_of_outer (y0 := y0) (py := py) (loopState_start hr') hcol (by omega) (by omega)
          exact .inr ⟨x, y, hs, .inr h⟩
        · have := loopState_bounds hs
          obtain ⟨x, y, hs, h⟩ := inDisc_of_outer (y0 := y0) (py := py) hs hcol (by omega) (by omega)
          exact .inr ⟨x, y, hs, .inr h⟩
    · rintro (h | ⟨x, y, hs, h | ⟨hcol, hlo, hhi⟩⟩)
      · exact .inl (mem_fillPass1.2 (.inl h))
      · exact .inl (mem_fillPass1.2 (.inr ⟨x, y, hs, .inl h⟩))
      · exact mem_passes_of_transposed hs hcol hlo hhi

/-- FILL_CIRCLE plots the positions of R153 under every colour. -/
theorem mem_fillCirclePoints {x0 y0 : Int} {r : Nat} (colour : Colour) {px py : Int} :
    (px, py) ∈ fillCirclePoints x0 y0 r colour ↔ InDisc x0 y0 r px py := by
  by_cases h : colour = .invert
  · rw [h]
    exact mem_fillCirclePoints_invert
  · exact mem_fillCirclePoints_of_ne h

theorem nodup_fillSpans_invert {x0 y0 x y : Int} (hx : 1 ≤ x) : (fillSpans x0 y0 .invert x y).Nodup := by
  simp only [fillSpans, ne_eq, not_true_eq_false, if_false, List.append_nil]
  refine List.nodup_append'.2 ⟨nodup_vlinePoints _ _ _, nodup_vlinePoints _ _ _, fun p hp hp' => ?_⟩
  rw [mem_vlinePoints] at hp hp'
  omega

/-- Pass 1 of Invert plots each column once (spec/41_primitives.md R154). -/
theorem nodup_fillPass1_invert (x0 y0 : Int) (r : Nat) : (fillPass1 x0 y0 r .invert).Nodup := by
  refine List.nodup_append'.2 ⟨nodup_vlinePoints _ _ _, nodup_flatMap_circleStates (fun x y hs => ?_)
    (fun x y x' y' hs hs' hlt _ px py hp hp' => ?_), fun p hp hp' => ?_⟩
  · exact nodup_fillSpans_invert (loopState_bounds hs).1
  · have := loopState_bounds hs
    rw [mem_fillSpans] at hp hp'
    simp only [ne_eq, not_true_eq_false, false_and, or_false] at hp hp'
    omega
  · obtain ⟨s, hs, hp'⟩ := List.mem_flatMap.1 hp'
    have := loopState_bounds (loopState_iff.2 hs)
    rw [mem_vlinePoints] at hp
    rw [mem_fillSpans] at hp'
    simp only [ne_eq, not_true_eq_false, false_and, or_false] at hp'
    omega

theorem nodup_seamSpans {x0 y0 x1 y x : Int} (hx1 : 1 ≤ x1) (hy : 1 ≤ y) : (seamSpans x0 y0 x1 y x).Nodup := by
  rw [List.nodup_iff_count_le_one]
  rintro ⟨px, py⟩
  simp only [seamSpans, List.count_append, count_hlinePoints]
  split_ifs <;> omega

/-- Pass 2 plots each outer row once on either side (spec/41_primitives.md R154). -/
theorem nodup_fillPass2 (x0 y0 : Int) (r : Nat) : (fillPass2 x0 y0 r).Nodup := by
  have hx1 : 1 ≤ fillCheckpoint r := by
    unfold fillCheckpoint
    omega
  have hcentre : (hlinePoints (x0 + fillCheckpoint r) y0 (r - fillCheckpoint r + 1) ++
      hlinePoints (x0 - r) y0 (r - fillCheckpoint r + 1)).Nodup := by
    refine List.nodup_append'.2 ⟨nodup_hlinePoints _ _ _, nodup_hlinePoints _ _ _, fun p hp hp' => ?_⟩
    rw [mem_hlinePoints] at hp hp'
    omega
  refine List.nodup_append'.2 ⟨hcentre, nodup_flatMap_circleStates (fun y x hs => ?_)
    (fun y x y' x' hs hs' hlt _ px py hp hp' => ?_), fun p hp hp' => ?_⟩
  · exact nodup_seamSpans hx1 (loopState_bounds hs).1
  · have := loopState_bounds hs
    rw [mem_seamSpans] at hp hp'
    omega
  · obtain ⟨s, hs, hp'⟩ := List.mem_flatMap.1 hp'
    have := loopState_bounds (loopState_iff.2 hs)
    rw [List.mem_append, mem_hlinePoints, mem_hlinePoints] at hp
    rw [mem_seamSpans] at hp'
    omega

/-- The columns of pass 1 lie below the checkpoint and those of pass 2 from it on (spec/41_primitives.md R154). -/
theorem fillPasses_disjoint {x0 y0 : Int} {r : Nat} {px py : Int} (hr : 1 ≤ r)
    (h : (px, py) ∈ fillPass1 x0 y0 r .invert) : (px, py) ∉ fillPass2 x0 y0 r := by
  have hcheck := loopState_bounds (loopState_start hr)
  have hinner : x0 - fillCheckpoint r < px ∧ px < x0 + fillCheckpoint r := by
    obtain h | ⟨x, y, hs, h | h⟩ := mem_fillPass1.1 h
    · omega
    · have := loopState_bounds hs
      omega
    · exact absurd rfl h.1
  have houter : ∀ b, ¬ OuterColumn x0 (fillCheckpoint r) b px := fun b hb => by
    unfold OuterColumn at hb
    omega
  rw [mem_fillPass2]
  rintro (⟨hcol, -⟩ | ⟨y, x, -, hcol, -⟩)
  · exact houter _ hcol
  · exact houter _ hcol

/-- Under Invert FILL_CIRCLE plots no position twice (spec/41_primitives.md R154). -/
theorem nodup_fillCirclePoints_invert (x0 y0 : Int) (r : Nat) : (fillCirclePoints x0 y0 r .invert).Nodup := by
  unfold fillCirclePoints
  by_cases hr : r = 0
  · rw [if_pos hr]
    exact List.nodup_nil
  · rw [if_neg hr, if_pos rfl]
    exact List.nodup_append'.2 ⟨nodup_fillPass1_invert x0 y0 r, nodup_fillPass2 x0 y0 r,
      fun p hp hp' => fillPasses_disjoint (by omega) hp hp'⟩

theorem exec_fillCircle (colour : Colour) (x0 y0 r : BitVec 12) (s : State) :
    exec (.fillCircle colour x0 y0 r) s =
      .next (draw (inColour colour (fillCirclePoints x0.toInt y0.toInt r.toNat colour)) s) := rfl

/-- Settles O39: the positions are those of R153 under every colour, and Invert repeats none. -/
theorem fillCirclePaintsItsPoints : Obligations.FillCirclePaintsItsPoints := by
  unfold Obligations.FillCirclePaintsItsPoints
  intro s colour x0 y0 r hc
  rw [exec_fillCircle]
  refine draw_paints_and_marks_of_nodup hc (fun _ _ => mem_fillCirclePoints colour) fun hinv => ?_
  rw [hinv]
  exact nodup_fillCirclePoints_invert _ _ _

theorem disc_in_square {x0 y0 : Int} {r : Nat} {px py : Int} (h : InDisc x0 y0 r px py) :
    x0 - r ≤ px ∧ px ≤ x0 + r ∧ y0 - r ≤ py ∧ py ≤ y0 + r := by
  obtain ⟨hr, h | ⟨x, y, hs, h⟩⟩ := h
  · omega
  · have := loopState_bounds hs
    omega

/-- The first loop state reaches the left and the right side of the square, the centre column the other two. -/
theorem disc_touches_sides {r : Nat} (hr : 1 ≤ r) (x0 y0 : Int) :
    InDisc x0 y0 r (x0 - r) y0 ∧ InDisc x0 y0 r (x0 + r) y0 ∧ InDisc x0 y0 r x0 (y0 - r) ∧
      InDisc x0 y0 r x0 (y0 + r) := by
  have hstart := loopState_start hr
  exact ⟨⟨hr, .inr ⟨1, r, hstart, by omega⟩⟩, ⟨hr, .inr ⟨1, r, hstart, by omega⟩⟩, ⟨hr, .inl (by omega)⟩,
    ⟨hr, .inl (by omega)⟩⟩

/-- FILL_CIRCLE marks the disc under every colour. -/
theorem growsTo_fillCircle {c : Config} (hc : legal c = true) (colour : Colour) (x0 y0 : Int) (r : Nat) (v : Canvas) :
    GrowsTo c (InDisc x0 y0 r) v.dirty (plotAll c (inColour colour (fillCirclePoints x0 y0 r colour)) v).dirty :=
  growsTo_congr (growsTo_inColour hc colour _ v) fun _ _ _ => mem_fillCirclePoints colour

/-- Settles O40: both colours plot the disc of R153, whose loop states bound its widths and its square. -/
theorem fillCircleInvertFillsTheSameSet : Obligations.FillCircleInvertFillsTheSameSet := by
  unfold Obligations.FillCircleInvertFillsTheSameSet
  intro x0 y0 r
  refine ⟨nodup_fillCirclePoints_invert x0 y0 r,
    fun px py => (mem_fillCirclePoints .invert).trans (mem_fillCirclePoints .white).symm,
    fun px py => mem_fillCirclePoints .white, fun hr => ⟨?_, fun y x hs => ?_⟩, fun c v hc => ?_, ?_⟩
  · have := fillCheckpoint_le (loopState_start hr)
    omega
  · have := fillCheckpoint_le hs
    omega
  · exact growsTo_unique (growsTo_fillCircle hc .invert x0 y0 r v) (growsTo_fillCircle hc .white x0 y0 r v)
  · rintro c v hc hr hlt hrb hd d rfl
    obtain ⟨hleft, hright, htop, hbottom⟩ := disc_touches_sides hr x0 y0
    exact bounds_of_growsTo_sentinel hc hd (growsTo_fillCircle hc .invert x0 y0 r v) hlt hrb
      (fun _ _ => disc_in_square) ⟨_, hleft⟩ ⟨_, hright⟩ ⟨_, htop⟩ ⟨_, hbottom⟩

/-! ## The smallest circles -/

/-- Radius 1 has the one loop state `(1, 1)`. -/
theorem loopState_one {a b : Int} : LoopState 1 a b ↔ a = 1 ∧ b = 1 := by
  rw [loopState_iff, show circleStates 1 = [(1, 1)] by decide, List.mem_singleton, Prod.mk.injEq]

theorem onOutline_one {x0 y0 px py : Int} :
    OnOutline x0 y0 1 px py ↔
      x0 - 1 ≤ px ∧ px ≤ x0 + 1 ∧ y0 - 1 ≤ py ∧ py ≤ y0 + 1 ∧ ¬ (px = x0 ∧ py = y0) := by
  simp only [OnOutline, loopState_one, and_assoc, exists_and_left, exists_eq_left]
  omega

theorem inDisc_one {x0 y0 px py : Int} :
    InDisc x0 y0 1 px py ↔ x0 - 1 ≤ px ∧ px ≤ x0 + 1 ∧ y0 - 1 ≤ py ∧ py ≤ y0 + 1 := by
  simp only [InDisc, loopState_one, and_assoc, exists_and_left, exists_eq_left]
  omega

/-- Settles O41: the loop of radius 0 does not run, that of radius 1 runs once. -/
theorem smallestCircles : Obligations.SmallestCircles := by
  unfold Obligations.SmallestCircles
  intro s colour x0 y0 hc
  refine ⟨rfl, rfl, ?_, ?_⟩
  · obtain ⟨fb, dirty, hnext, hpaints, -⟩ := drawCirclePaintsItsPoints s colour x0 y0 1 hc
    exact ⟨fb, dirty, hnext, paints_congr hpaints (fun _ _ _ => onOutline_one) fun _ _ _ _ _ => rfl⟩
  · obtain ⟨fb, dirty, hnext, hpaints, -⟩ := fillCirclePaintsItsPoints s colour x0 y0 1 hc
    exact ⟨fb, dirty, hnext, paints_congr hpaints (fun _ _ _ => inDisc_one) fun _ _ _ _ _ => rfl⟩

end Sys2Proof
end

section
/-! PROOFS. Text (spec/42_text.md): the glyphs of a well-formed font and the layout of a string, the `Plot` calls of a
text as a sequence that meets no position twice, and the text commands. -/

namespace Sys2Proof

open Machine

/-! ## The active font -/

theorem activeFont_eq_some_iff {s : State} {f : Font} : activeFont s = some f ↔ Active s f := by
  unfold activeFont Active
  cases s.fontSel <;> simp

theorem activeFont_eq_none {s : State} (h : s.fontSel = none) : activeFont s = none := by
  rw [activeFont, h]

theorem wellFormedFont_of_fontOk {f : Font} (h : fontOk f = true) : WellFormedFont f := by
  simp only [fontOk, glyphOk, Bool.and_eq_true, decide_eq_true_eq, List.all_eq_true] at h
  obtain ⟨⟨⟨⟨⟨⟨⟨⟨hheight, hspacing⟩, hend⟩, hrange⟩, hstart⟩, hspace⟩, hlen⟩, hglyphs⟩, hbitmap⟩ := h
  refine ⟨hheight, hspacing, hend, hrange, hstart, hspace, hlen, hbitmap, fun k d hd => ?_⟩
  obtain ⟨⟨hwidth, hoffset⟩, hinside⟩ := hglyphs d (List.mem_of_getElem? hd)
  exact ⟨hwidth, Nat.le_of_lt_succ hoffset, hinside⟩

/-- The fonts of a legal configuration are well-formed (spec/42_text.md R172). -/
theorem wellFormedFont_of_active {s : State} {f : Font} (hc : legal s.cfg = true) (hf : Active s f) :
    WellFormedFont f := by
  obtain ⟨n, -, hn⟩ := hf
  simp only [legal, Bool.and_eq_true, List.all_eq_true] at hc
  exact wellFormedFont_of_fontOk (hc.2 f (List.mem_of_getElem? hn))

/-! ## Glyphs -/

/-- A code outside the font's range has the index of the space (spec/42_text.md R173). -/
theorem charIndex_of_out_of_range {f : Font} {code : Nat} (h : code < f.charStart ∨ f.charEnd < code) :
    charIndex f code = charIndex f 0x20 := by
  have hout : ¬ (f.charStart ≤ code ∧ code ≤ f.charEnd) := by omega
  simp [charIndex, hout]

theorem charIndex_lt {f : Font} (hf : WellFormedFont f) (code : Nat) : charIndex f code < f.desc.length := by
  obtain ⟨-, -, -, hrange, hstart, hspace, hlen, -, -⟩ := hf
  unfold charIndex
  split <;> omega

/-- In a well-formed font every code has the descriptor that `glyphOf` reads (spec/42_text.md R174). -/
theorem describes_iff {f : Font} (hf : WellFormedFont f) {code : Nat} {d : Glyph} :
    Describes f code d ↔ d = glyphOf f code := by
  have hlt := charIndex_lt hf code
  have hdesc : Describes f code d ↔ f.desc[charIndex f code]? = some d := Iff.rfl
  rw [hdesc, List.getElem?_eq_getElem hlt, glyphOf, List.getD_eq_getElem _ _ hlt, Option.some_inj, eq_comm]

/-- The descriptor of a code fits its widths, and its glyph lies inside the bitmap (spec/42_text.md R172). -/
theorem glyphOf_bounds {f : Font} (hf : WellFormedFont f) (code : Nat) :
    glyphWidth f code ≤ 255 ∧
      (glyphOf f code).offset + bytesPerRow (glyphOf f code) * f.height ≤ f.bitmap.length := by
  have hdesc : Describes f code (glyphOf f code) := (describes_iff hf).2 rfl
  obtain ⟨-, -, -, -, -, -, -, -, hglyphs⟩ := hf
  obtain ⟨hwidth, -, hinside⟩ := hglyphs _ _ hdesc
  exact ⟨hwidth, hinside⟩

/-- The byte of a glyph bit lies inside the bitmap (spec/42_text.md R172, R174). -/
theorem glyphByte_lt {f : Font} (hf : WellFormedFont f) {code i j : Nat} (hi : i < glyphWidth f code)
    (hj : j < f.height) :
    (glyphOf f code).offset + bytesPerRow (glyphOf f code) * j + i / 8 < f.bitmap.length := by
  have hinside := (glyphOf_bounds hf code).2
  have hrow : i / 8 < bytesPerRow (glyphOf f code) := by
    unfold bytesPerRow
    unfold glyphWidth at hi
    omega
  have hrows := Nat.mul_le_mul_left (bytesPerRow (glyphOf f code)) (Nat.succ_le_of_lt hj)
  rw [Nat.mul_succ] at hrows
  omega

/-- In a well-formed font a cell shows the bit that `glyphBit` reads (spec/42_text.md R174). -/
theorem glyphShows_iff {f : Font} (hf : WellFormedFont f) {code i j : Nat} {b : Bool} :
    GlyphShows f code i j b ↔ i < glyphWidth f code ∧ j < f.height ∧ glyphBit f code i j = b := by
  simp only [GlyphShows, describes_iff hf, exists_and_left, exists_eq_left]
  refine and_congr_right fun hi => and_congr_right fun hj => ?_
  have hlt := glyphByte_lt hf hi hj
  have hbyte := List.getElem?_eq_getElem hlt
  unfold bytesPerRow at hlt hbyte
  simp [glyphBit, bytesPerRow, hbyte]

/-! ## Layout -/

@[simp] theorem cursor_zero (f : Font) (bytes : List Byte) : cursor f bytes 0 = 0 := rfl

theorem cursor_succ {f : Font} {bytes : List Byte} {k : Nat} {b : Byte} (h : bytes[k]? = some b) :
    cursor f bytes (k + 1) = cursor f bytes k + glyphWidth f b.toNat + f.spacing := by
  simp [cursor, List.take_add_one, h, charCode, Nat.add_assoc]

theorem cursor_mono (f : Font) (bytes : List Byte) : Monotone (cursor f bytes) :=
  monotone_nat_of_le_succ fun k => by simp [cursor, List.take_add_one]

/-- A character ends before the next one begins (spec/42_text.md R183). -/
theorem cursor_add_glyphWidth_le {f : Font} {bytes : List Byte} {k k' : Nat} {b : Byte} (h : bytes[k]? = some b)
    (hk : k < k') : cursor f bytes k + glyphWidth f b.toNat ≤ cursor f bytes k' :=
  calc cursor f bytes k + glyphWidth f b.toNat
    _ ≤ cursor f bytes (k + 1) := by rw [cursor_succ h]; omega
    _ ≤ cursor f bytes k' := cursor_mono f bytes hk

/-- A column of a laid out string belongs to one character (spec/42_text.md R183). -/
theorem character_unique {f : Font} {bytes : List Byte} {k k' i i' : Nat} {b b' : Byte} (hk : bytes[k]? = some b)
    (hk' : bytes[k']? = some b') (hi : i < glyphWidth f b.toNat) (hi' : i' < glyphWidth f b'.toNat)
    (h : cursor f bytes k + i = cursor f bytes k' + i') : k = k' := by
  rcases Nat.lt_trichotomy k k' with hlt | heq | hgt
  · have := cursor_add_glyphWidth_le (f := f) hk hlt
    omega
  · exact heq
  · have := cursor_add_glyphWidth_le (f := f) hk' hgt
    omega

theorem advance_of_ne_nil (f : Font) {bytes : List Byte} (h : bytes ≠ []) :
    advance f bytes = (bytes.map fun b => glyphWidth f b.toNat).sum + f.spacing * (bytes.length - 1) := by
  cases bytes with
  | nil => exact absurd rfl h
  | cons b bytes => rfl

/-- The offset of a character: the widths before it, and as many spacings (spec/42_text.md R181). -/
theorem cursor_concat_length (f : Font) (bytes : List Byte) (last : Byte) :
    cursor f (bytes ++ [last]) bytes.length =
      (bytes.map fun b => glyphWidth f b.toNat).sum + bytes.length * f.spacing := by
  simp [cursor, charCode, List.sum_map_add]

/-- The advance is the end of the last character (spec/42_text.md R183). -/
theorem advance_concat (f : Font) (bytes : List Byte) (last : Byte) :
    advance f (bytes ++ [last]) = cursor f (bytes ++ [last]) bytes.length + glyphWidth f last.toNat := by
  rw [advance_of_ne_nil f (by simp), cursor_concat_length]
  simp only [List.map_append, List.map_singleton, List.sum_append, List.sum_singleton, List.length_append,
    List.length_singleton, Nat.add_sub_cancel]
  ring

/-- The advance of a string that STRMEM can hold is below `2 ^ 21` (spec/42_text.md R181). -/
theorem advance_lt {f : Font} (hf : WellFormedFont f) {bytes : List Byte} (h : bytes.length ≤ 4095) :
    advance f bytes < 2 ^ 21 := by
  have hspacing : f.spacing ≤ 255 := hf.2.1
  have hwidths : (bytes.map fun b => glyphWidth f (charCode b)).sum ≤ bytes.length * 255 := by
    simpa using List.sum_le_card_nsmul (bytes.map fun b => glyphWidth f (charCode b)) 255
      (by simpa using fun b _ => (glyphOf_bounds hf (charCode b)).1)
  have hgaps : f.spacing * (bytes.length - 1) ≤ 255 * (bytes.length - 1) := Nat.mul_le_mul_right _ hspacing
  unfold advance
  split
  · decide
  · omega

/-- Settles O51: the advance is the last character's end, and each width and the spacing are at most 255. -/
theorem advanceEndsAtTheLastCharacter : Obligations.AdvanceEndsAtTheLastCharacter := by
  unfold Obligations.AdvanceEndsAtTheLastCharacter
  intro f bytes hf
  exact ⟨rfl, advance_concat f bytes, cursor_zero f bytes, fun k b => cursor_succ, advance_lt hf,
    fun code => (describes_iff hf).2 rfl⟩

/-! ## Pixel steps that meet no position twice -/

/-- Two pixel steps at different positions. -/
def Apart (p q : PlotCall) : Prop := ¬ (p.x = q.x ∧ p.y = q.y)

theorem pixel_plotAll_other (c : Config) {ps : List PlotCall} (v : Canvas) {x y : Int} (hin : inPanel c x y = true)
    (h : ∀ p ∈ ps, ¬ (p.x = x ∧ p.y = y)) : pixel c (plotAll c ps v).fb x y = pixel c v.fb x y := by
  rw [pixel_plotAll c ps v hin, List.filter_eq_nil_iff.2 (by simpa using h)]
  rfl

/-- Where no position repeats, each pixel takes the colour of its step once. -/
theorem pixel_plotAll_of_apart (c : Config) {ps : List PlotCall} (hps : ps.Pairwise Apart) (v : Canvas) {p : PlotCall}
    (hp : p ∈ ps) (hin : inPanel c p.x p.y = true) :
    pixel c (plotAll c ps v).fb p.x p.y = colourBit p.colour (pixel c v.fb p.x p.y) := by
  induction ps generalizing v with
  | nil => simp at hp
  | cons q ps ih =>
    obtain ⟨hq, hps⟩ := List.pairwise_cons.1 hps
    rw [plotAll]
    rcases List.mem_cons.1 hp with rfl | hp
    · rw [pixel_plotAll_other c _ hin fun r hr h => hq r hr ⟨h.1.symm, h.2.symm⟩, pixel_plot c p v hin]
      simp
    · rw [ih hps _ hp, pixel_plot c q v hin, if_neg (hq p hp)]

/-! ## The `Plot` calls of a text -/

/-- The colour a cell is plotted in, where it is plotted at all (spec/42_text.md R176). -/
def cellColour (fg bg : Colour) (glyph : Bool) : Option Colour :=
  if glyph then some fg else if bg = .black ∨ bg = .white then some bg else none

theorem cellPlot_eq (f : Font) (x y : Int) (code : Nat) (fg bg : Colour) (j i : Nat) :
    cellPlot f x y code fg bg j i = (cellColour fg bg (glyphBit f code i j)).map (⟨x + i, y + j, ·⟩) := by
  unfold cellPlot cellColour
  split
  · rfl
  · split <;> rfl

/-- A cell makes of a pixel what its `Plot` call makes of it, and nothing where there is none. -/
theorem cellBit_eq (fg bg : Colour) (glyph old : Bool) :
    cellBit fg bg glyph old = (cellColour fg bg glyph).elim old (colourBit · old) := by
  cases glyph <;> cases bg <;> rfl

theorem exists_cellColour_iff (fg bg : Colour) (glyph : Bool) :
    (∃ colour, cellColour fg bg glyph = some colour) ↔ glyph = true ∨ bg = .black ∨ bg = .white := by
  cases glyph <;> cases bg <;> simp [cellColour]

theorem cellPlot_eq_some_iff {f : Font} {x y : Int} {code : Nat} {fg bg : Colour} {j i : Nat} {p : PlotCall} :
    cellPlot f x y code fg bg j i = some p ↔
      p.x = x + i ∧ p.y = y + j ∧ cellColour fg bg (glyphBit f code i j) = some p.colour := by
  rw [cellPlot_eq, Option.map_eq_some_iff]
  constructor
  · rintro ⟨colour, hcolour, rfl⟩
    exact ⟨rfl, rfl, hcolour⟩
  · obtain ⟨px, py, colour⟩ := p
    rintro ⟨rfl, rfl, hcolour⟩
    exact ⟨colour, hcolour, rfl⟩

theorem mem_charPlots {f : Font} {x y : Int} {code : Nat} {fg bg : Colour} {p : PlotCall} :
    p ∈ charPlots f x y code fg bg ↔
      ∃ i j, i < glyphWidth f code ∧ j < f.height ∧ p.x = x + i ∧ p.y = y + j ∧
        cellColour fg bg (glyphBit f code i j) = some p.colour := by
  simp only [charPlots, List.mem_flatMap, List.mem_filterMap, List.mem_range, cellPlot_eq_some_iff]
  constructor
  · rintro ⟨j, hj, i, hi, hp⟩
    exact ⟨i, j, hi, hj, hp⟩
  · rintro ⟨i, j, hi, hj, hp⟩
    exact ⟨j, hj, i, hi, hp⟩

/-- A text plots the positions it shows, each in the colour of its cell (spec/42_text.md R182). -/
theorem mem_stringPlots {f : Font} (hf : WellFormedFont f) {x y : Int} {bytes : List Byte} {fg bg : Colour}
    {p : PlotCall} :
    p ∈ stringPlots f x y bytes fg bg ↔
      ∃ b, TextShows f bytes x y p.x p.y b ∧ cellColour fg bg b = some p.colour := by
  simp only [stringPlots, List.mem_flatMap, List.mem_zipIdx_iff_getElem?, mem_charPlots, TextShows, glyphShows_iff hf]
  constructor
  · rintro ⟨⟨code, k⟩, hk, i, j, hi, hj, hx, hy, hcolour⟩
    exact ⟨_, ⟨k, code, i, j, hk, ⟨hi, hj, rfl⟩, hx, hy⟩, hcolour⟩
  · rintro ⟨_, ⟨k, code, i, j, hk, ⟨hi, hj, rfl⟩, hx, hy⟩, hcolour⟩
    exact ⟨(code, k), hk, i, j, hi, hj, hx, hy, hcolour⟩

/-- The cells of a character lie at different positions. -/
theorem charPlots_apart (f : Font) (x y : Int) (code : Nat) (fg bg : Colour) :
    (charPlots f x y code fg bg).Pairwise Apart := by
  rw [charPlots, List.pairwise_flatMap]
  refine ⟨fun j _ => ?_, List.pairwise_lt_range.imp fun {j j'} hlt p hp q hq => ?_⟩
  · refine List.pairwise_filterMap.2 (List.pairwise_lt_range.imp fun {i i'} hlt p hp q hq h => ?_)
    obtain ⟨hpx, -, -⟩ := cellPlot_eq_some_iff.1 hp
    obtain ⟨hqx, -, -⟩ := cellPlot_eq_some_iff.1 hq
    omega
  · simp only [List.mem_filterMap, cellPlot_eq_some_iff] at hp hq
    obtain ⟨i, -, -, hpy, -⟩ := hp
    obtain ⟨i', -, -, hqy, -⟩ := hq
    unfold Apart
    omega

/-- A text plots no position twice: its characters do not overlap (spec/42_text.md R183). -/
theorem stringPlots_apart (f : Font) (x y : Int) (bytes : List Byte) (fg bg : Colour) :
    (stringPlots f x y bytes fg bg).Pairwise Apart := by
  rw [stringPlots, List.pairwise_flatMap]
  refine ⟨fun c _ => charPlots_apart _ _ _ _ _ _, ?_⟩
  have hindex : bytes.zipIdx.Pairwise fun c c' => c.2 < c'.2 := by
    rw [← List.pairwise_map (f := Prod.snd) (R := (· < ·)), List.zipIdx_map_snd]
    exact List.pairwise_lt_range'
  refine hindex.imp_of_mem fun {c c'} hc hc' hlt p hp q hq h => ?_
  obtain ⟨i, j, hi, -, hpx, -, -⟩ := mem_charPlots.1 hp
  obtain ⟨i', j', hi', -, hqx, -, -⟩ := mem_charPlots.1 hq
  have := character_unique (List.mem_zipIdx_iff_getElem?.1 hc) (List.mem_zipIdx_iff_getElem?.1 hc') hi hi' (by omega)
  omega

/-- A position of a text shows one bit. -/
theorem textShows_unique {f : Font} (hf : WellFormedFont f) {bytes : List Byte} {x y px py : Int} {b b' : Bool}
    (h : TextShows f bytes x y px py b) (h' : TextShows f bytes x y px py b') : b = b' := by
  simp only [TextShows, glyphShows_iff hf] at h h'
  obtain ⟨k, code, i, j, hk, ⟨hi, -, rfl⟩, hx, hy⟩ := h
  obtain ⟨k', code', i', j', hk', ⟨hi', -, rfl⟩, hx', hy'⟩ := h'
  obtain rfl := character_unique hk hk' hi hi' (by omega)
  obtain rfl : code = code' := Option.some_inj.1 (hk.symm.trans hk')
  obtain rfl : i = i' := by omega
  obtain rfl : j = j' := by omega
  rfl

/-- What the `Plot` calls of a text paint (spec/42_text.md R176, R182). -/
theorem paintsText_stringPlots {f : Font} (hf : WellFormedFont f) (c : Config) (bytes : List Byte) (x y : Int)
    (fg bg : Colour) (v : Canvas) :
    PaintsText c f bytes x y fg bg v.fb (plotAll c (stringPlots f x y bytes fg bg) v).fb := by
  refine ⟨fun px py hin => ⟨fun b hb => ?_, fun hnone => ?_⟩, fun j hj => ?_⟩
  · rw [cellBit_eq]
    cases hcolour : cellColour fg bg b with
    | some colour =>
      exact pixel_plotAll_of_apart c (stringPlots_apart f x y bytes fg bg) v (p := ⟨px, py, colour⟩)
        ((mem_stringPlots hf).2 ⟨b, hb, hcolour⟩) hin
    | none =>
      refine pixel_plotAll_other c v hin ?_
      rintro p hp ⟨rfl, rfl⟩
      obtain ⟨b', hb', hcolour'⟩ := (mem_stringPlots hf).1 hp
      rw [textShows_unique hf hb' hb, hcolour] at hcolour'
      cases hcolour'
  · refine pixel_plotAll_other c v hin ?_
    rintro p hp ⟨rfl, rfl⟩
    obtain ⟨b, hb, -⟩ := (mem_stringPlots hf).1 hp
    exact hnone b hb
  · refine fbRead_plotAll_other c _ v fun p hp hin => ?_
    obtain ⟨b, hb, -⟩ := (mem_stringPlots hf).1 hp
    exact hj p.x p.y b hb hin

/-- What the `Plot` calls of a text mark (spec/42_text.md R176, R182). -/
theorem growsTo_stringPlots {f : Font} (hf : WellFormedFont f) {c : Config} (hc : legal c = true) (bytes : List Byte)
    (x y : Int) (fg bg : Colour) (v : Canvas) :
    GrowsTo c (TextPlots f bytes x y bg) v.dirty (plotAll c (stringPlots f x y bytes fg bg) v).dirty := by
  refine growsTo_congr (growsTo_plotAll hc (stringPlots f x y bytes fg bg) v) fun px py _ => ?_
  simp only [TextPlots, ← exists_cellColour_iff fg, mem_stringPlots hf]
  constructor
  · rintro ⟨p, ⟨b, hb, hcolour⟩, rfl, rfl⟩
    exact ⟨b, hb, p.colour, hcolour⟩
  · rintro ⟨b, hb, colour, hcolour⟩
    exact ⟨⟨px, py, colour⟩, ⟨b, hb, hcolour⟩, rfl, rfl⟩

/-! ## The string commands -/

theorem withString_of_none {s : State} {null : Bool} (h : activeFont s = none ∨ null = true) (a : BitVec 12)
    (run : Font → List Byte → State → State) : withString null a run s = .next (setResult 0 s) := by
  unfold withString
  rcases h with h | rfl
  · rw [h]
  · cases activeFont s <;> rfl

theorem withString_of_unterminated {s : State} {f : Font} {a : BitVec 12} (hf : activeFont s = some f)
    (h : readString s.strmem (size a) = .unterminated) (run : Font → List Byte → State → State) :
    withString false a run s = .next (raiseErr .unterminatedString s) := by
  simp [withString, hf, h]

theorem withString_of_found {s : State} {f : Font} {a : BitVec 12} {bytes : List Byte} (hf : activeFont s = some f)
    (h : readString s.strmem (size a) = .found bytes) (run : Font → List Byte → State → State) :
    withString false a run s = .next (setResult (advance f bytes) (run f bytes s)) := by
  simp [withString, hf, h]

theorem readString_of_stringAt {m : Memory} {a : Nat} {bytes : List Byte} (h : StringAt m a bytes) :
    readString m a = .found bytes := by
  obtain ⟨hlen, hbytes, hzero⟩ := h
  exact scanString_found (by omega) (fun k hk => hbytes k _ (List.getElem?_eq_getElem hk)) hzero

/-- A string command on a terminated string has its effect and leaves the exact advance in RESULT. -/
theorem withString_of_stringAt {s : State} {f : Font} {a : BitVec 12} {bytes : List Byte} (hc : legal s.cfg = true)
    (hf : Active s f) (h : StringAt s.strmem a.toNat bytes) (run : Font → List Byte → State → State) :
    ∃ result : Reg32, result.toNat = advance f bytes ∧
      withString false a run s = .next { run f bytes s with result := result } := by
  have hlen : bytes.length ≤ 4095 := by
    have hroom := h.1
    unfold strBytes at hroom
    omega
  have hadvance := advance_lt (wellFormedFont_of_active hc hf) hlen
  exact ⟨BitVec.ofNat 32 (advance f bytes), Nat.mod_eq_of_lt (by omega),
    withString_of_found (activeFont_eq_some_iff.2 hf) (readString_of_stringAt h) run⟩

/-- How a string command ends, and with which RESULT, does not depend on what it draws (spec/42_text.md R186). -/
theorem withString_agree {s t : State} {null : Bool} {a : BitVec 12} {run run' : Font → List Byte → State → State}
    (hrun : ∀ f bytes, (run' f bytes s).status = (run f bytes s).status) (h : withString null a run s = .next t) :
    ∃ u, withString null a run' s = .next u ∧ u.result = t.result ∧ u.status = t.status := by
  obtain ⟨hzero, rfl⟩ | ⟨f, hf, rfl, hread, rfl⟩ | ⟨f, bytes, hf, rfl, hread, rfl⟩ := withString_cases h
  · exact ⟨_, withString_of_none hzero a run', rfl, rfl⟩
  · exact ⟨_, withString_of_unterminated hf hread run', rfl, rfl⟩
  · exact ⟨_, withString_of_found hf hread run', rfl, hrun f bytes⟩

theorem exec_drawStringColor (fg bg : Colour) (null : Bool) (x y a : BitVec 12) (s : State) :
    exec (.drawStringColor fg bg null x y a) s =
      withString null a (fun f bytes => draw (stringPlots f x.toInt y.toInt bytes fg bg)) s := rfl

theorem exec_drawString (null : Bool) (x y a : BitVec 12) (s : State) :
    exec (.drawString null x y a) s = exec (.drawStringColor .white .transparent null x y a) s := rfl

theorem exec_measureString (null : Bool) (a : BitVec 12) (s : State) :
    exec (.measureString null a) s = withString null a (fun _ _ t => t) s := rfl

/-- Settles O47: the string's `Plot` calls meet no position twice. -/
theorem drawStringColorPaintsItsText : Obligations.DrawStringColorPaintsItsText := by
  unfold Obligations.DrawStringColorPaintsItsText
  intro s f fg bg x y a bytes hc hf hstring
  have hwf := wellFormedFont_of_active hc hf
  rw [exec_drawStringColor]
  obtain ⟨result, hresult, hnext⟩ := withString_of_stringAt hc hf hstring
    fun f bytes => draw (stringPlots f x.toInt y.toInt bytes fg bg)
  exact ⟨_, _, result, hnext, hresult, paintsText_stringPlots hwf s.cfg bytes _ _ fg bg s.canvas,
    growsTo_stringPlots hwf hc bytes _ _ fg bg s.canvas⟩

/-- On a background that plots nothing, a text marks its set glyph bits alone. -/
theorem textPlots_iff_set {f : Font} {bytes : List Byte} {x y : Int} {bg : Colour} (hblack : bg ≠ .black)
    (hwhite : bg ≠ .white) (px py : Int) :
    TextPlots f bytes x y bg px py ↔ TextShows f bytes x y px py true := by
  simp [TextPlots, hblack, hwhite]

/-- White on Transparent lights the set glyph bits and changes no other pixel (spec/42_text.md R184). -/
theorem paints_of_white_on_transparent {c : Config} (hc : legal c = true) {f : Font} {bytes : List Byte} {x y : Int}
    {fb fb' : Memory} (h : PaintsText c f bytes x y .white .transparent fb fb') :
    Paints c (fun px py => TextShows f bytes x y px py true) (fun _ _ _ => true) fb fb' := by
  obtain ⟨hpixels, hbytes⟩ := h
  have hset : ∀ px py, inPanel c px py = true → TextShows f bytes x y px py true → pixel c fb' px py = true :=
    fun px py hin hb => (hpixels px py hin).1 true hb
  have hrest : ∀ px py, inPanel c px py = true → ¬ TextShows f bytes x y px py true →
      pixel c fb' px py = pixel c fb px py := by
    intro px py hin hset
    by_cases hclear : TextShows f bytes x y px py false
    · exact (hpixels px py hin).1 false hclear
    · exact (hpixels px py hin).2 (Bool.forall_bool.2 ⟨hclear, hset⟩)
  refine ⟨fun px py hin => ⟨hset px py hin, hrest px py hin⟩, fun j hj => ?_⟩
  by_cases hlt : j < fbBytes c
  · exact fbRead_eq_of_pixel hc hlt fun px py hin hidx => hrest px py hin fun hb => hj px py hb hin hidx
  · exact hbytes j fun px py _ _ hin => ((idx_lt_fbBytes hc hin).trans_le (not_lt.1 hlt)).ne

/-- Settles O48: it is DRAW_STRING_COLOR in these colours, whose clear cells plot nothing. -/
theorem drawStringIsWhiteOnTransparent : Obligations.DrawStringIsWhiteOnTransparent := by
  unfold Obligations.DrawStringIsWhiteOnTransparent
  refine ⟨fun s null x y a => exec_drawString null x y a s, fun s f x y a bytes hc hf hstring => ?_⟩
  obtain ⟨fb, dirty, result, hnext, hresult, hpaints, hmarks⟩ :=
    drawStringColorPaintsItsText s f .white .transparent x y a bytes hc hf hstring
  exact ⟨fb, dirty, result, hnext, hresult, paints_of_white_on_transparent hc hpaints,
    growsTo_congr hmarks fun px py _ => textPlots_iff_set (by decide) (by decide) px py⟩

/-- Settles O49: MEASURE_STRING is a string command that draws nothing. -/
theorem measureStringWritesOnlyResult : Obligations.MeasureStringWritesOnlyResult := by
  unfold Obligations.MeasureStringWritesOnlyResult
  intro s f a bytes hc hf hstring
  obtain ⟨result, hresult, hnext⟩ := withString_of_stringAt hc hf hstring fun _ _ t => t
  exact ⟨result, hnext, hresult⟩

/-- Each string draw is a string command whose effect is a sequence of pixel steps. -/
theorem exists_plots_of_string_draw {i : Instr} {fg bg : Colour} {null : Bool} {x y a : BitVec 12}
    (h : i = .drawStringColor fg bg null x y a ∨ i = .drawString null x y a) :
    ∃ plots : Font → List Byte → List PlotCall,
      ∀ s, exec i s = withString null a (fun f bytes => draw (plots f bytes)) s := by
  rcases h with rfl | rfl
  · exact ⟨fun f bytes => stringPlots f x.toInt y.toInt bytes fg bg, fun _ => rfl⟩
  · exact ⟨fun f bytes => stringPlots f x.toInt y.toInt bytes .white .transparent, fun _ => rfl⟩

/-- Settles O50: the three commands share the course of a string command, and drawing leaves STATUS alone. -/
theorem measureEqualsDraw : Obligations.MeasureEqualsDraw := by
  unfold Obligations.MeasureEqualsDraw
  intro s fg bg null x y a i hi
  obtain ⟨plots, hplots⟩ := exists_plots_of_string_draw hi
  rw [hplots, exec_measureString]
  have hstatus := fun f bytes => draw_status s (plots f bytes)
  refine ⟨fun t ht => withString_agree hstatus ht,
    fun u hu => withString_agree (fun f bytes => (hstatus f bytes).symm) hu, fun hzero => ?_,
    fun f bytes hc hf hnull hstring => ?_⟩
  · exact ⟨_, withString_of_none (hzero.imp_left activeFont_eq_none) a _, rfl⟩
  · subst hnull
    obtain ⟨result, hresult, hnext⟩ := withString_of_stringAt hc hf hstring fun f bytes => draw (plots f bytes)
    exact ⟨_, hnext, hresult⟩

/-! ## Characters -/

theorem exec_drawChar_of_active {s : State} {f : Font} (hf : Active s f) (fg bg : Colour) (x y : BitVec 12)
    (code : Byte) :
    exec (.drawChar fg bg x y code) s =
      .next (setResult (glyphWidth f code.toNat) (draw (charPlots f x.toInt y.toInt code.toNat fg bg) s)) := by
  simp [exec, execDrawChar, activeFont_eq_some_iff.2 hf, charCode, coord]

theorem exec_drawChar_of_none {s : State} (h : activeFont s = none) (fg bg : Colour) (x y : BitVec 12) (code : Byte) :
    exec (.drawChar fg bg x y code) s = .next (setResult 0 s) := by
  simp [exec, execDrawChar, h]

/-- A character is laid out as the string of its one code (spec/42_text.md R182). -/
theorem stringPlots_singleton (f : Font) (x y : Int) (code : Byte) (fg bg : Colour) :
    stringPlots f x y [code] fg bg = charPlots f x y code.toNat fg bg := by
  simp [stringPlots, charCode]

/-- Settles O43: a character is a string of one code, and its width fits RESULT. -/
theorem drawCharPaintsItsGlyph : Obligations.DrawCharPaintsItsGlyph := by
  unfold Obligations.DrawCharPaintsItsGlyph
  intro s f fg bg x y code hc hf
  have hwf := wellFormedFont_of_active hc hf
  have hwidth := (glyphOf_bounds hwf code.toNat).1
  rw [exec_drawChar_of_active hf, ← stringPlots_singleton]
  exact ⟨_, _, BitVec.ofNat 32 (glyphWidth f code.toNat), rfl,
    ⟨glyphOf f code.toNat, (describes_iff hwf).2 rfl, Nat.mod_eq_of_lt (by omega)⟩,
    paintsText_stringPlots hwf s.cfg [code] _ _ fg bg s.canvas, growsTo_stringPlots hwf hc [code] _ _ fg bg s.canvas⟩

/-- A character's `Plot` calls depend on the code through its descriptor alone. -/
theorem charPlots_congr {f : Font} {code code' : Nat} (h : glyphOf f code = glyphOf f code') (x y : Int)
    (fg bg : Colour) : charPlots f x y code fg bg = charPlots f x y code' fg bg := by
  simp [charPlots, cellPlot, glyphWidth, glyphBit, h]

/-- Settles O44: a code outside the range has the descriptor of the space. -/
theorem drawCharSubstitutesSpace : Obligations.DrawCharSubstitutesSpace := by
  unfold Obligations.DrawCharSubstitutesSpace
  intro s f fg bg x y code hf hout
  have hglyph : glyphOf f code.toNat = glyphOf f (0x20#8).toNat := by
    unfold glyphOf
    rw [charIndex_of_out_of_range hout]
    rfl
  rw [exec_drawChar_of_active hf, exec_drawChar_of_active hf, charPlots_congr hglyph, glyphWidth, hglyph]
  rfl

/-! ## Backgrounds -/

/-- Clear cells plot nothing under Invert, as under Transparent (spec/42_text.md R179). -/
theorem charPlots_invert_background (f : Font) (x y : Int) (code : Nat) (fg : Colour) :
    charPlots f x y code fg .invert = charPlots f x y code fg .transparent := by
  simp [charPlots, cellPlot]

theorem stringPlots_invert_background (f : Font) (x y : Int) (bytes : List Byte) (fg : Colour) :
    stringPlots f x y bytes fg .invert = stringPlots f x y bytes fg .transparent := by
  simp only [stringPlots, charPlots_invert_background]

/-- Settles O45: the two backgrounds have the same `Plot` calls, and a clear cell has none. -/
theorem invertBackgroundIsTransparent : Obligations.InvertBackgroundIsTransparent := by
  unfold Obligations.InvertBackgroundIsTransparent
  refine ⟨fun s fg x y code => ?_, fun s fg null x y a => ?_, fun s f fg x y code hc hf => ?_⟩
  · cases hfont : activeFont s with
    | none => rw [exec_drawChar_of_none hfont, exec_drawChar_of_none hfont]
    | some f =>
      have hf := activeFont_eq_some_iff.1 hfont
      rw [exec_drawChar_of_active hf, exec_drawChar_of_active hf, charPlots_invert_background]
  · simp only [exec_drawStringColor, stringPlots_invert_background]
  · obtain ⟨fb, dirty, result, hnext, -, ⟨hpixels, -⟩, hmarks⟩ := drawCharPaintsItsGlyph s f fg .invert x y code hc hf
    exact ⟨fb, dirty, result, hnext, fun px py hin hclear => (hpixels px py hin).1 false hclear,
      growsTo_congr hmarks fun px py _ => textPlots_iff_set (by decide) (by decide) px py⟩

/-! ## No font, the null string, and the choice of the font -/

/-- Settles O46: every text command begins with these two cases. -/
theorem noFontOrNullStringGivesZero : Obligations.NoFontOrNullStringGivesZero := by
  unfold Obligations.NoFontOrNullStringGivesZero
  intro s fg bg null x y a code
  refine ⟨fun hfont => exec_drawChar_of_none (activeFont_eq_none hfont) fg bg x y code, fun h => ?_⟩
  have hzero := withString_of_none (h.imp_left activeFont_eq_none) a
  exact ⟨hzero _, hzero _, hzero fun _ _ t => t⟩

theorem exec_selectFont (id : BitVec 12) (s : State) :
    exec (.selectFont id) s =
      .next (if id.toNat < s.cfg.fonts.length then { s with fontSel := some id } else s) := rfl

/-- Settles O42: the word is the command's own, and the id is compared with the length of the table. -/
theorem selectFontTakesValidIds : Obligations.SelectFontTakesValidIds := by
  unfold Obligations.SelectFontTakesValidIds
  intro s id
  rw [exec_selectFont]
  refine ⟨decode_of_toNat_eq rfl ?_, fun hlt => by rw [if_pos hlt], fun hle => by rw [if_neg hle.not_gt]⟩
  simp only [toNat_encode, toNat_append_eq_add, Instr.toFields, Fields.zero, Instr.op, Op.toByte,
    BitVec.toNat_ofNat, BitVec.ofNat_eq_ofNat]
  omega

end Sys2Proof
end

section
/-! PROOFS. The transport's answers (spec/43_refresh.md R202): two states that differ in nothing but the answers and
what depends on them go on to two such states, in every command and every host access; and which bytes of a host read
they may change. -/

namespace Sys2Proof

open Machine

/-! ## What a step can do, said once -/

/-- Everything one step can make of the state `s`: one constructor per way to end (spec/20_memory.md R57, R58). -/
inductive StepEffect (s : State) : State → Prop
  | waits (hs : s.host = []) : StepEffect s s
  | resets {rest : List HostAccess} (hs : s.host = .reset :: rest) :
      StepEffect s (resetBlock { s with host := rest })
  | reads {addr : BitVec 16} {width : Width} {rest : List HostAccess} (hs : s.host = .read addr width :: rest) :
      StepEffect s (hostRead addr width { s with host := rest })
  | stores {addr : BitVec 16} {width : Width} {v : Reg32} {rest : List HostAccess}
      (hs : s.host = .write addr width v :: rest) (hcmd : ¬ (addr = 0x0004#16 ∧ width = .word)) :
      StepEffect s (hostStore addr width v { s with host := rest })
  | rejects {v : Reg32} {rest : List HostAccess} (hs : s.host = .write 0x0004 .word v :: rest) (e : ErrCode) :
      StepEffect s (raiseErr e { s with host := rest, cmdHi := v })
  | runs {v : Reg32} {rest : List HostAccess} {i : Instr} {t : State} (hs : s.host = .write 0x0004 .word v :: rest)
      (hd : decode (v ++ s.cmdLo) = .ok i) (ht : exec i { s with host := rest, cmdHi := v } = .next t) :
      StepEffect s t

/-- Only a legal configuration has steps (spec/60_exceptions.md R249). -/
theorem legal_of_step {s t : State} (h : step s = .next t) : legal s.cfg = true := by
  unfold step at h
  split at h
  next hl => exact hl
  · cases h

theorem step_nil {s : State} (hl : legal s.cfg = true) (hs : s.host = []) : step s = .next s := by
  simp [step, hl, hs]

/-- The command word is run or rejected (spec/30_encoding.md R87). -/
theorem runCommand_cases {s t : State} (h : runCommand s = .next t) :
    (∃ i, decode (s.cmdHi ++ s.cmdLo) = .ok i ∧ exec i s = .next t) ∨ ∃ e, t = raiseErr e s := by
  cases hd : decode (s.cmdHi ++ s.cmdLo) with
  | ok i => exact .inl ⟨i, rfl, runCommand_ok hd ▸ h⟩
  | error e =>
    rw [runCommand_error hd] at h
    cases h
    exact .inr ⟨_, rfl⟩

/-- A step that goes on has one of these effects. -/
theorem step_effect {s t : State} (h : step s = .next t) : StepEffect s t := by
  have hl := legal_of_step h
  cases hs : s.host with
  | nil =>
    rw [step_nil hl hs] at h
    cases h
    exact .waits hs
  | cons a rest =>
    rw [step_cons hl hs] at h
    cases a with
    | reset => cases h; exact .resets hs
    | read addr width => cases h; exact .reads hs
    | write addr width v =>
      by_cases hcmd : addr = 0x0004#16 ∧ width = .word
      · obtain ⟨rfl, rfl⟩ := hcmd
        obtain ⟨i, hd, ht⟩ | ⟨e, rfl⟩ := runCommand_cases h
        · exact .runs hs hd ht
        · exact .rejects hs e
      · rw [hostAccess_store v _ hcmd] at h
        cases h
        exact .stores hs hcmd

/-! ## States that differ in the answers and what depends on them -/

theorem sameButAnswers_iff {s s' : State} : SameButAnswers s s' ↔
    ∃ answers draws status reads, s' = { s with answers := answers, draws := draws, status := status, reads := reads } :=
  ⟨fun h => ⟨_, _, _, _, h⟩, by rintro ⟨_, _, _, _, rfl⟩; rfl⟩

theorem sameButAnswers_setResult {s s' : State} (h : SameButAnswers s s') (n : Nat) :
    SameButAnswers (setResult n s) (setResult n s') := by
  obtain ⟨_, _, _, _, rfl⟩ := sameButAnswers_iff.1 h
  rfl

theorem sameButAnswers_draw {s s' : State} (h : SameButAnswers s s') (ps : List PlotCall) :
    SameButAnswers (draw ps s) (draw ps s') := by
  obtain ⟨_, _, _, _, rfl⟩ := sameButAnswers_iff.1 h
  rfl

theorem sameButAnswers_raiseErr {s s' : State} (h : SameButAnswers s s') (e : ErrCode) :
    SameButAnswers (raiseErr e s) (raiseErr e s') := by
  obtain ⟨_, _, _, _, rfl⟩ := sameButAnswers_iff.1 h
  rfl

theorem sameButAnswers_emptyDirty {s s' : State} (h : SameButAnswers s s') :
    SameButAnswers (emptyDirty s) (emptyDirty s') := by
  obtain ⟨_, _, _, _, rfl⟩ := sameButAnswers_iff.1 h
  rfl

theorem sameButAnswers_hostStore {s s' : State} (h : SameButAnswers s s') (addr : BitVec 16) (width : Width)
    (v : Reg32) : SameButAnswers (hostStore addr width v s) (hostStore addr width v s') := by
  obtain ⟨_, _, _, _, rfl⟩ := sameButAnswers_iff.1 h
  unfold hostStore
  split <;> rfl

theorem sameButAnswers_hostRead {s s' : State} (h : SameButAnswers s s') (addr : BitVec 16) (width : Width) :
    SameButAnswers (hostRead addr width s) (hostRead addr width s') := by
  obtain ⟨_, _, _, _, rfl⟩ := sameButAnswers_iff.1 h
  unfold hostRead
  split <;> rfl

theorem sameButAnswers_withHost {s s' : State} (h : SameButAnswers s s') (host : List HostAccess) :
    SameButAnswers { s with host := host } { s' with host := host } := by
  obtain ⟨_, _, _, _, rfl⟩ := sameButAnswers_iff.1 h
  rfl

/-! ## Commands -/

/-- Where both results go on, their states differ in the answers and what depends on them alone. -/
def Alike (r r' : Result) : Prop := ∀ t t', r = .next t → r' = .next t' → SameButAnswers t t'

theorem alike_next {t t' : State} (h : SameButAnswers t t') : Alike (.next t) (.next t') := by
  rintro _ _ ⟨⟩ ⟨⟩
  exact h

theorem alike_of_fault (f : Fault) (r : Result) : Alike (.fault f) r := fun _ _ h => nomatch h

/-- Whatever the answers, the same records are sent (spec/43_refresh.md R202). -/
theorem alike_issueAll {s s' : State} (h : SameButAnswers s s') (rs : List BusRecord) :
    Alike (issueAll rs s) (issueAll rs s') := by
  intro t t' ht ht'
  obtain ⟨_, _, _, _, rfl⟩ := sameButAnswers_iff.1 h
  rw [issueAll_cases ht, issueAll_cases ht']
  rfl

theorem alike_sendAndEmpty {s s' : State} (h : SameButAnswers s s') (rs : List BusRecord) :
    Alike (sendAndEmpty rs s) (sendAndEmpty rs s') := by
  intro t t' ht ht'
  obtain ⟨u, hu, rfl⟩ := sendAndEmpty_cases ht
  obtain ⟨u', hu', rfl⟩ := sendAndEmpty_cases ht'
  exact sameButAnswers_emptyDirty (alike_issueAll h rs u u' hu hu')

/-- Which path REFRESH takes, and what it sends, are read from FB, DIRTY and the configuration
(spec/43_refresh.md R206 to R208). -/
theorem alike_refresh {s s' : State} (h : SameButAnswers s s') (force : Bool) :
    Alike (execRefresh force s) (execRefresh force s') := by
  have hsend := alike_sendAndEmpty h
  obtain ⟨_, _, _, _, rfl⟩ := sameButAnswers_iff.1 h
  unfold execRefresh
  split
  · exact hsend _
  · split
    · exact hsend _
    · split
      · exact hsend _
      · exact alike_of_fault _ _

/-- A string command reads FONT_SEL, the font table and STRMEM (spec/42_text.md R182, R185). -/
theorem alike_withString {s s' : State} (h : SameButAnswers s s') (null : Bool) (a : BitVec 12)
    {run : Font → List Byte → State → State} (hrun : ∀ f bytes, SameButAnswers (run f bytes s) (run f bytes s')) :
    Alike (withString null a run s) (withString null a run s') := by
  have hresult := fun n => alike_next (sameButAnswers_setResult h n)
  have hraise := alike_next (sameButAnswers_raiseErr h .unterminatedString)
  have hdone := fun f bytes => alike_next (sameButAnswers_setResult (hrun f bytes) (advance f bytes))
  have hfont : activeFont s' = activeFont s := by rw [h]; rfl
  have hstr : s'.strmem = s.strmem := by rw [h]
  unfold withString
  rw [hfont, hstr]
  cases activeFont s with
  | none => exact hresult 0
  | some f =>
    cases null with
    | true => exact hresult 0
    | false =>
      cases readString s.strmem (size a) with
      | unwritten k => exact alike_of_fault _ _
      | unterminated => exact hraise
      | found bytes => exact hdone f bytes

theorem alike_drawChar {s s' : State} (h : SameButAnswers s s') (fg bg : Colour) (x y : BitVec 12) (code : Byte) :
    Alike (execDrawChar fg bg x y code s) (execDrawChar fg bg x y code s') := by
  have hfont : activeFont s' = activeFont s := by rw [h]; rfl
  unfold execDrawChar
  rw [hfont]
  cases activeFont s with
  | none => exact alike_next (sameButAnswers_setResult h 0)
  | some f => exact alike_next (sameButAnswers_setResult (sameButAnswers_draw h _) _)

theorem alike_selectFont {s s' : State} (h : SameButAnswers s s') (id : BitVec 12) :
    Alike (execSelectFont id s) (execSelectFont id s') := by
  obtain ⟨_, _, _, _, rfl⟩ := sameButAnswers_iff.1 h
  refine alike_next ?_
  split <;> rfl

/-- No command depends on the answers: the two bus operations and the string scan said above, and every other command
reads none of the four fields. -/
theorem alike_exec {s s' : State} (h : SameButAnswers s s') (i : Instr) : Alike (exec i s) (exec i s') := by
  cases i with
  | nop => exact alike_next h
  | clear | markDirty | clearStatus =>
    obtain ⟨_, _, _, _, rfl⟩ := sameButAnswers_iff.1 h
    exact alike_next rfl
  | setPixel | drawHline | drawVline | drawRect | fillRect | drawCircle | fillCircle =>
    exact alike_next (sameButAnswers_draw h _)
  | selectFont id => exact alike_selectFont h id
  | drawChar fg bg x y code => exact alike_drawChar h fg bg x y code
  | drawStringColor | drawString => exact alike_withString h _ _ fun _ _ => sameButAnswers_draw h _
  | measureString => exact alike_withString (run := fun _ _ t => t) h _ _ fun _ _ => h
  | refresh force => exact alike_refresh h force
  | sendCmd1 | sendCmd2 =>
    have hissue := alike_issueAll h
    obtain ⟨_, _, _, _, rfl⟩ := sameButAnswers_iff.1 h
    exact hissue _

/-! ## Steps and runs -/

theorem alike_runCommand {s s' : State} (h : SameButAnswers s s') : Alike (runCommand s) (runCommand s') := by
  have hword : decode (s'.cmdHi ++ s'.cmdLo) = decode (s.cmdHi ++ s.cmdLo) := by rw [h]
  cases hd : decode (s.cmdHi ++ s.cmdLo) with
  | ok i =>
    rw [runCommand_ok hd, runCommand_ok (hword.trans hd)]
    exact alike_exec h i
  | error e =>
    rw [runCommand_error hd, runCommand_error (hword.trans hd)]
    exact alike_next (sameButAnswers_raiseErr h _)

theorem alike_hostAccess {s s' : State} (h : SameButAnswers s s') (a : HostAccess) :
    Alike (hostAccess a s) (hostAccess a s') := by
  cases a with
  | reset =>
    obtain ⟨_, _, _, _, rfl⟩ := sameButAnswers_iff.1 h
    exact alike_next rfl
  | read addr width => exact alike_next (sameButAnswers_hostRead h addr width)
  | write addr width v =>
    have hstore := sameButAnswers_hostStore h addr width v
    simp only [hostAccess]
    split
    · exact alike_runCommand hstore
    · exact alike_next hstore

theorem alike_step {s s' : State} (h : SameButAnswers s s') : Alike (step s) (step s') := by
  intro t t' ht ht'
  have hl := legal_of_step ht
  have hl' := legal_of_step ht'
  have hhost : s'.host = s.host := by rw [h]
  cases hs : s.host with
  | nil =>
    rw [step_nil hl hs] at ht
    rw [step_nil hl' (hhost.trans hs)] at ht'
    exact alike_next h t t' ht ht'
  | cons a rest =>
    rw [step_cons hl hs] at ht
    rw [step_cons hl' (hhost.trans hs)] at ht'
    exact alike_hostAccess (sameButAnswers_withHost h rest) a t t' ht ht'

theorem run_succ_next {n : Nat} {s t : State} (h : core.run (n + 1) s = .next t) :
    ∃ u, step s = .next u ∧ core.run n u = .next t := by
  simp only [Host.Core.run] at h
  split at h
  next u hu => exact ⟨u, hu, h⟩
  · cases h
  · cases h

theorem alike_run {s s' : State} (h : SameButAnswers s s') (n : Nat) : Alike (core.run n s) (core.run n s') := by
  intro t t' ht ht'
  induction n generalizing s s' with
  | zero => exact alike_next h t t' ht ht'
  | succ n ih =>
    obtain ⟨u, hu, hrun⟩ := run_succ_next ht
    obtain ⟨u', hu', hrun'⟩ := run_succ_next ht'
    exact ih (alike_step h u u' hu hu') hrun hrun'

/-! ## The values the host reads -/

/-- The value a host read returns (spec/20_memory.md R52 to R54). -/
def readValue (addr : BitVec 16) (width : Width) (s : State) : Reg32 :=
  match target addr width with
  | .reg r => regValue r s
  | .strByte a => (strByteOr s.strmem a s.draws).zeroExtend 32
  | .strWord a => strWordValue s.strmem a s.draws
  | .nothing => 0

theorem hostRead_reads (addr : BitVec 16) (width : Width) (s : State) :
    (hostRead addr width s).reads = s.reads ++ [readValue addr width s] := by
  unfold hostRead readValue
  cases target addr width <;> rfl

/-- Only an aligned 32-bit access at offset 8 reaches STATUS (spec/20_memory.md R53). -/
theorem eq_of_target_status {addr : BitVec 16} {width : Width} (h : target addr width = .reg .status) :
    width = .word ∧ addr = 0x0008 := by
  obtain ⟨rfl, hr⟩ := target_of_reg h
  refine ⟨rfl, BitVec.eq_of_toNat_eq ?_⟩
  unfold regAt at hr
  split_ifs at hr <;> simp_all

/-- Everything an access can reach (spec/20_memory.md R52 to R54). -/
theorem target_cases (addr : BitVec 16) (width : Width) :
    (∃ r, target addr width = .reg r) ∨ target addr width = .nothing ∨
      (0x1000 ≤ addr.toNat ∧ addr.toNat < 0x2000 ∧
        (width = .byte ∧ target addr width = .strByte (addr.toNat - 0x1000) ∨
          width = .word ∧ addr.toNat % 4 = 0 ∧ target addr width = .strWord (addr.toNat - 0x1000))) := by
  unfold target
  split
  · cases width with
    | word =>
      unfold regAt
      split_ifs <;> simp
    | byte | half | other => exact .inr (.inl rfl)
  · split
    next hlo hhi =>
      cases width with
      | byte => exact .inr (.inr ⟨by omega, hhi, .inl ⟨rfl, rfl⟩⟩)
      | word =>
        by_cases h4 : addr.toNat % 4 = 0
        · exact .inr (.inr ⟨by omega, hhi, .inr ⟨rfl, h4, if_pos h4⟩⟩)
        · exact .inr (.inl (if_neg h4))
      | half | other => exact .inr (.inl rfl)
    · exact .inr (.inl rfl)

/-- Apart from STATUS no register depends on the answers. -/
theorem regValue_same {s s' : State} (h : SameButAnswers s s') {r : HostReg} (hr : r ≠ .status) :
    regValue r s' = regValue r s := by
  obtain ⟨_, _, _, _, rfl⟩ := sameButAnswers_iff.1 h
  cases r with
  | status => exact absurd rfl hr
  | cmdLo | cmdHi | result | dirty | fontSel | config | panel | fonts => rfl

/-- A byte that is not free is the same whatever free value a read would take. -/
theorem strByteOr_same {m : Memory} {a : Nat} (h : strRead m a ≠ none) (d d' : Nat) :
    strByteOr m a d = strByteOr m a d' := by
  obtain ⟨b, hb⟩ := Option.ne_none_iff_exists'.1 h
  rw [strByteOr_written hb, strByteOr_written hb]

/-- A byte read is extended with zeros (spec/20_memory.md R54; log 17). -/
theorem zeroExtend_byte (b : Byte) (k : Nat) : (b.zeroExtend 32).extractLsb' (8 * k) 8 = if k = 0 then b else 0 := by
  split
  next hk =>
    subst hk
    exact field_eq fun i hi => by simp [hi]; omega
  next hk => exact field_eq fun i _ => by simp [BitVec.getLsbD_of_ge b (8 * k + i) (by omega)]

/-- A byte of a host read differs between two such states only where it is free (spec/60_exceptions.md R249). -/
theorem readValue_same {s s' : State} (h : SameButAnswers s s') {addr : BitVec 16} {width : Width} {k : Nat}
    (hk : k < 4) (hfree : ¬ FreeReadByte s addr width k) :
    (readValue addr width s).extractLsb' (8 * k) 8 = (readValue addr width s').extractLsb' (8 * k) 8 := by
  have hstr : s'.strmem = s.strmem := by rw [h]
  unfold readValue
  rcases target_cases addr width with ⟨r, ht⟩ | ht | ⟨hlo, hhi, ⟨rfl, ht⟩ | ⟨rfl, h4, ht⟩⟩ <;> simp only [ht]
  · have hr : r ≠ .status := by
      rintro rfl
      exact hfree (.inl (eq_of_target_status ht))
    rw [regValue_same h hr]
  · rw [hstr, zeroExtend_byte, zeroExtend_byte]
    split
    next hk0 =>
      subst hk0
      exact strByteOr_same (fun hn => hfree (.inr ⟨.inr ⟨rfl, rfl⟩, hlo, by omega, by simpa using hn⟩)) _ _
    · rfl
  · rw [hstr, strWordValue_byte _ _ _ hk, strWordValue_byte _ _ _ hk]
    exact strByteOr_same (fun hn => hfree (.inr ⟨.inl rfl, hlo, by omega, hn⟩)) _ _

/-- A host write stores in CMD_LO, CMD_HI or STRMEM (spec/10_state.md R29, R30). -/
theorem hostStore_frame (addr : BitVec 16) (width : Width) (v : Reg32) (s : State) :
    ∃ lo hi m, hostStore addr width v s = { s with cmdLo := lo, cmdHi := hi, strmem := m } := by
  unfold hostStore
  split <;> exact ⟨_, _, _, rfl⟩

/-- Only a read adds to the values the host has read (spec/20_memory.md R56). -/
theorem reads_of_step {s t : State} (h : step s = .next t) (hno : ∀ addr width rest, s.host ≠ .read addr width :: rest) :
    t.reads = s.reads := by
  cases step_effect h with
  | waits | resets | rejects => rfl
  | reads hs => exact absurd hs (hno _ _ _)
  | stores =>
    obtain ⟨lo, hi, m, hstore⟩ := hostStore_frame _ _ _ _
    rw [hstore]
  | runs hs hd ht =>
    obtain ⟨-, -, -, -, -, hreads, -⟩ := onlyNamedCommandsWrite _ _ _ ht
    exact hreads

theorem reads_of_step_read {s t : State} {addr : BitVec 16} {width : Width} {rest : List HostAccess}
    (h : step s = .next t) (hs : s.host = .read addr width :: rest) :
    t.reads = s.reads ++ [readValue addr width { s with host := rest }] := by
  rw [step_cons (legal_of_step h) hs] at h
  cases h
  exact hostRead_reads _ _ _

/-- Settles O60: the two runs stay alike step by step (`alike_step`), and `readValue_same` compares what they read. -/
theorem answersChangeOnlyStatus : Obligations.AnswersChangeOnlyStatus := by
  unfold Obligations.AnswersChangeOnlyStatus
  refine ⟨fun n s s' t t' h => alike_run h n t t', fun s s' t t' h ht ht' => ?_⟩
  have hhost : s'.host = s.host := by rw [h]
  refine ⟨fun addr width rest hs => ?_, fun hno => ⟨reads_of_step ht hno, reads_of_step ht' (hhost ▸ hno)⟩⟩
  exact ⟨_, _, reads_of_step_read ht hs, reads_of_step_read ht' (hhost.trans hs),
    fun k hk hfree => readValue_same (sameButAnswers_withHost h rest) hk hfree⟩

end Sys2Proof
end

section
/-! PROOFS. STATUS through errors and answers, and the commands of spec/43_refresh.md: what they send, what they make of
DIRTY, and what a failed transaction records. -/

namespace Sys2Proof

open Machine

/-! ## Sticky bits -/

theorem eq_clearStatus_of_op {i : Instr} (h : i.op = .clearStatus) : i = .clearStatus := by
  cases i with
  | clearStatus => rfl
  | _ => cases h

/-- No command but CLEAR_STATUS clears a sticky bit (spec/60_exceptions.md R235). -/
theorem sticky_effect {op : Op} {s t : State} (he : Effect s op t) (hop : op ≠ .clearStatus) {k : Nat} (hk : k < 8)
    (hs : s.status.getLsbD k = true) : t.status.getLsbD k = true := by
  cases he with
  | nop | clear | markDirty | drawn | select | ignored | text | measure => exact hs
  | unterminated => exact sticky_stays _ _ hk hs
  | refresh h => exact sticky_issueAll h hk hs
  | send _ h => exact sticky_issueAll h hk hs
  | clearStatus => exact absurd rfl hop

/-- Settles O16: each way a step can end keeps the bit, but for the reset event and CLEAR_STATUS. -/
theorem stickyBitsStayUntilCleared : Obligations.StickyBitsStayUntilCleared := by
  unfold Obligations.StickyBitsStayUntilCleared
  refine ⟨fun _ => rfl, fun s t k hk ht hbit => ?_⟩
  cases step_effect ht with
  | waits => exact .inl hbit
  | resets hs => exact .inr (.inl ⟨_, hs⟩)
  | reads =>
    obtain ⟨v, d, hread⟩ := hostRead_frame _ _ _
    exact .inl (hread ▸ hbit)
  | stores =>
    obtain ⟨lo, hi, m, hstore⟩ := hostStore_frame _ _ _ _
    exact .inl (hstore ▸ hbit)
  | rejects hs e => exact .inl (sticky_stays e _ (by omega) hbit)
  | @runs v rest i _ hs hd hexec =>
    by_cases hop : i.op = .clearStatus
    · rw [eq_clearStatus_of_op hop] at hd
      exact .inr (.inr ⟨_, _, hs, hd⟩)
    · exact .inl (sticky_effect (exec_effect hexec) hop (by omega) hbit)

/-! ## A failed transaction in STATUS -/

/-- A failed transaction sets ERR_BUS and records code 4 (spec/60_exceptions.md R230, R235). -/
theorem records_busWriteFail (st : Reg32) : Records 2 4 st (statusAfter .busWriteFail st) :=
  ⟨sticky_statusAfter .busWriteFail st, by rw [lastErr_statusAfter]; rfl,
    fun _ hk hlo => other_bit_statusAfter .busWriteFail st hk hlo⟩

theorem records_trans {bit code : Nat} {a b c : Reg32} (h : Records bit code a b) (h' : Records bit code b c) :
    Records bit code a c := by
  obtain ⟨-, -, hsame⟩ := h
  obtain ⟨hbit, hcode, hsame'⟩ := h'
  exact ⟨hbit, hcode, fun k hk hlo => (hsame' k hk hlo).trans (hsame k hk hlo)⟩

/-- What STATUS records of the first transactions stays recorded through further ones. -/
theorem records_kept {bit code : Nat} {a b c : Reg32} (h : Records bit code a b) (h' : c = b ∨ Records bit code b c) :
    Records bit code a c :=
  h'.elim (fun hsame => hsame ▸ h) (records_trans h)

/-- One answer leaves STATUS as it was or records a failed transaction (spec/43_refresh.md R202). -/
theorem statusAfterAnswer_cases (ok : Bool) (st : Reg32) :
    statusAfterAnswer ok st = st ∨ Records 2 4 st (statusAfterAnswer ok st) := by
  cases ok with
  | true => exact .inl rfl
  | false => exact .inr (records_busWriteFail st)

theorem issueAll_cons_next {r : BusRecord} {rs : List BusRecord} {s t : State} (h : issueAll (r :: rs) s = .next t) :
    ∃ u, issue r s = .next u ∧ issueAll rs u = .next t := by
  simp only [issueAll] at h
  split at h
  next u hu => exact ⟨u, hu, h⟩
  · cases h
  · cases h

/-- A sequence of transactions leaves STATUS as it was or records a failed one (spec/43_refresh.md R202). -/
theorem issueAll_status {rs : List BusRecord} {s t : State} (h : issueAll rs s = .next t) :
    t.status = s.status ∨ Records 2 4 s.status t.status := by
  induction rs generalizing s with
  | nil => cases h; exact .inl rfl
  | cons r rs ih =>
    obtain ⟨u, hu, hrest⟩ := issueAll_cons_next h
    obtain ⟨ok, d, rfl⟩ := issue_cases hu
    rcases statusAfterAnswer_cases ok s.status with hsame | hrec
    · exact hsame ▸ ih hrest
    · exact .inr (records_kept hrec (ih hrest))

/-- Everything a sequence of transactions does when all are answered: their records in order, STATUS as before or with
a failed transaction recorded, and nothing else (spec/43_refresh.md R202, spec/70_reset_and_hazards.md R269). -/
theorem issueAll_answered {rs : List BusRecord} {s : State} (h : answered rs.length s) :
    ∃ status draws, issueAll rs s = .next { s with
        status := status, draws := draws, answers := s.answers.drop rs.length, trace := s.trace ++ rs } ∧
      (status = s.status ∨ Records 2 4 s.status status) := by
  obtain ⟨t, ht⟩ := issueAll_next h
  exact ⟨t.status, t.draws, ht.trans (congrArg Host.Outcome.next (issueAll_cases ht)), issueAll_status ht⟩

/-- Settles O57: `issueAll_answered` for one and for two command transactions. -/
theorem sendCommandsSendTheirBytes : Obligations.SendCommandsSendTheirBytes := by
  unfold Obligations.SendCommandsSendTheirBytes
  intro s b v
  exact ⟨issueAll_answered (rs := [busCmd s.cfg b]), issueAll_answered (rs := [busCmd s.cfg b, busCmd s.cfg v])⟩

/-- A given answer is taken from the list, and a fail is recorded (spec/43_refresh.md R202). -/
theorem issue_given {r : BusRecord} {s t : State} {a : BusAnswer} {as : List BusAnswer} (h : issue r s = .next t)
    (ha : s.answers = a :: as) :
    t.answers = as ∧ (a = .ok ∧ t.status = s.status ∨ a = .fail ∧ t.status = statusAfter .busWriteFail s.status) := by
  unfold issue at h
  simp only [ha] at h
  cases a with
  | ok => cases h; exact ⟨rfl, .inl ⟨rfl, rfl⟩⟩
  | fail => cases h; exact ⟨rfl, .inr ⟨rfl, rfl⟩⟩
  | never => cases h

/-- With the answers given, STATUS is as before if all are ok, and a fail among them is recorded. -/
theorem issueAll_given {rs : List BusRecord} {s t : State} (h : issueAll rs s = .next t)
    (hlen : rs.length ≤ s.answers.length) :
    ((∀ a ∈ s.answers.take rs.length, a = .ok) → t.status = s.status) ∧
      (BusAnswer.fail ∈ s.answers.take rs.length → Records 2 4 s.status t.status) := by
  induction rs generalizing s with
  | nil =>
    cases h
    simp
  | cons r rs ih =>
    obtain ⟨u, hu, hrest⟩ := issueAll_cons_next h
    obtain ⟨a, as, ha⟩ := List.exists_cons_of_length_pos (Nat.lt_of_lt_of_le (Nat.succ_pos _) hlen)
    obtain ⟨hanswers, ⟨rfl, hstatus⟩ | ⟨rfl, hstatus⟩⟩ := issue_given hu ha
    · simpa [ha, hanswers, hstatus] using ih hrest (by simpa [ha, hanswers] using hlen)
    · have hrec : Records 2 4 s.status u.status := hstatus ▸ records_busWriteFail s.status
      exact ⟨fun hok => absurd (hok .fail (by simp [ha])) (by decide),
        fun _ => records_kept hrec (issueAll_status hrest)⟩

/-! ## The last act of REFRESH -/

/-- A REFRESH that goes on has issued some transactions and then emptied DIRTY (spec/43_refresh.md R209). -/
theorem refresh_cases {force : Bool} {s t : State} (h : exec (.refresh force) s = .next t) :
    ∃ rs u, issueAll rs s = .next u ∧ t = emptyDirty u := by
  cases effect_of_refresh h with
  | refresh hu => exact ⟨_, _, hu, rfl⟩
  | drawn hop | text hop | unterminated hop | send hop => exact absurd hop (by decide)

/-- The commands that use the bus issue some transactions and make nothing else of STATUS and the trace. -/
theorem bus_cases {i : Instr} {s t : State} (hop : i.op ∈ [Op.refresh, Op.sendCmd1, Op.sendCmd2])
    (h : exec i s = .next t) :
    ∃ rs u, issueAll rs s = .next u ∧ t.status = u.status ∧ t.trace = u.trace := by
  cases i with
  | refresh force =>
    obtain ⟨rs, u, hu, rfl⟩ := refresh_cases h
    exact ⟨rs, u, hu, rfl, rfl⟩
  | sendCmd1 | sendCmd2 => exact ⟨_, t, h, rfl, rfl⟩
  | _ => simp [Instr.op] at hop

/-- Settles O58: `issueAll_given`, for as many transactions as records joined the trace. -/
theorem failedTransactionsAreRecorded : Obligations.FailedTransactionsAreRecorded := by
  unfold Obligations.FailedTransactionsAreRecorded
  intro i s t n hop h hn hlen
  obtain ⟨rs, u, hu, hstatus, htrace⟩ := bus_cases hop h
  have hrs : n = rs.length := by
    rw [htrace, issueAll_cases hu, List.length_append] at hn
    omega
  subst hrs
  rw [hstatus]
  exact issueAll_given hu hlen

/-! ## The empty, the full and the partial rectangle -/

theorem isEmpty_eq_false_iff {d : Dirty} :
    d.isEmpty = false ↔ d.top.toNat ≤ d.bottom.toNat ∧ d.left.toNat ≤ d.right.toNat := by
  simp [Dirty.isEmpty]

/-- A rectangle that grows does not become empty (spec/40_framebuffer.md R113). -/
theorem isEmpty_of_growsTo {c : Config} {S : Int → Int → Prop} {d d' : Dirty} (h : GrowsTo c S d d')
    (hd : d.isEmpty = false) : d'.isEmpty = false := by
  obtain ⟨-, ⟨htop, hleft, hright, hbottom⟩, -⟩ := h
  rw [isEmpty_eq_false_iff] at hd ⊢
  omega

theorem coversPanel_full {c : Config} (hc : legal c = true) : CoversPanel c (Dirty.full c) := by
  obtain ⟨hW1, hW, -, hH8, hH, -, -⟩ := legal_ranges hc
  have hright : (Dirty.full c).right.toNat = c.W - 1 := Nat.mod_eq_of_lt (by omega)
  have hbottom : (Dirty.full c).bottom.toNat = c.H - 1 := Nat.mod_eq_of_lt (by omega)
  exact ⟨rfl, rfl, by omega, by omega⟩

/-- The full panel is the one rectangle that covers it (spec/40_framebuffer.md R121). -/
theorem coversPanel_iff {c : Config} (hc : legal c = true) {d : Dirty} : CoversPanel c d ↔ d = Dirty.full c := by
  refine ⟨fun ⟨htop, hleft, hright, hbottom⟩ => ?_, fun h => h ▸ coversPanel_full hc⟩
  obtain ⟨ftop, fleft, fright, fbottom⟩ := coversPanel_full hc
  apply dirty_ext <;> apply BitVec.eq_of_toNat_eq <;> omega

theorem full_not_isEmpty {c : Config} (hc : legal c = true) : (Dirty.full c).isEmpty = false := by
  obtain ⟨htop, hleft, -⟩ := coversPanel_full hc
  rw [isEmpty_eq_false_iff]
  omega

/-- No command but REFRESH empties DIRTY: CLEAR fills it and the others only grow it. -/
theorem isEmpty_effect {op : Op} {s t : State} (he : Effect s op t) (hl : legal s.cfg = true) (hop : op ≠ .refresh)
    (hs : s.dirty.isEmpty = false) : t.dirty.isEmpty = false := by
  cases he with
  | nop | select | ignored | measure | unterminated | clearStatus => exact hs
  | clear => exact full_not_isEmpty hl
  | markDirty x y => exact isEmpty_of_growsTo (growsTo_mark hl x y s.dirty) hs
  | drawn _ ps | text _ _ ps => exact isEmpty_of_growsTo (growsTo_plotAll hl ps s.canvas) hs
  | refresh => exact absurd rfl hop
  | send _ h => rwa [issueAll_cases h]

theorem op_ne_refresh {i : Instr} (h : ∀ force, i ≠ .refresh force) : i.op ≠ .refresh := by
  cases i with
  | refresh force => exact absurd rfl (h force)
  | _ => simp [Instr.op]

/-- Settles O56: emptying DIRTY is the last act of REFRESH, and `isEmpty_effect` for the others. -/
theorem onlyRefreshEmptiesDirty : Obligations.OnlyRefreshEmptiesDirty := by
  unfold Obligations.OnlyRefreshEmptiesDirty
  refine ⟨fun s t force h => ?_, fun i s t hl h hi hs => isEmpty_effect (exec_effect h) hl (op_ne_refresh hi) hs⟩
  obtain ⟨rs, u, -, rfl⟩ := refresh_cases h
  rfl

/-! ## The three paths of REFRESH -/

/-- Nothing to send: DIRTY becomes the sentinel (spec/43_refresh.md R208). -/
theorem exec_refresh_empty {s : State} (hl : legal s.cfg = true) (h : s.dirty.isEmpty = true) :
    exec (.refresh false) s = .next { s with dirty := Dirty.sentinel } := by
  have hfull : s.dirty ≠ Dirty.full s.cfg := fun he => by simp [he, full_not_isEmpty hl] at h
  show execRefresh false s = _
  rw [execRefresh, if_neg (by simpa using hfull), if_pos h]
  rfl

/-- FORCE, or DIRTY the whole panel (spec/43_refresh.md R206). -/
theorem exec_refresh_full {s : State} (hl : legal s.cfg = true) {force : Bool}
    (h : force = true ∨ CoversPanel s.cfg s.dirty) :
    exec (.refresh force) s = sendAndEmpty (fullTraffic s.cfg s.fb) s :=
  if_pos (h.imp_right (coversPanel_iff hl).1)

/-- Neither empty nor the whole panel, which in a run lies in the panel (spec/43_refresh.md R207, R210). -/
theorem exec_refresh_partial {s : State} (hl : legal s.cfg = true) (hfull : ¬ CoversPanel s.cfg s.dirty)
    (hempty : s.dirty.isEmpty = false) (hright : s.dirty.right.toNat < s.cfg.W)
    (hbottom : s.dirty.bottom.toNat < s.cfg.H) :
    exec (.refresh false) s = sendAndEmpty (partialTraffic s.cfg s.fb s.dirty) s := by
  have hne : s.dirty ≠ Dirty.full s.cfg := mt (coversPanel_iff hl).2 hfull
  have hin : dirtyInPanel s.cfg s.dirty = true := by simp [dirtyInPanel, hright, hbottom]
  show execRefresh false s = _
  rw [execRefresh, if_neg (by simpa using hne), if_neg (by simp [hempty]), if_pos hin]

/-- Settles O55: after a REFRESH DIRTY is the empty sentinel, and after CLEAR it is the full panel. -/
theorem refreshOfNothingAndAfterClear : Obligations.RefreshOfNothingAndAfterClear := by
  unfold Obligations.RefreshOfNothingAndAfterClear
  refine ⟨fun s => exec_refresh_empty, fun s t force hl h => ?_, fun s => ⟨_, rfl, ?_⟩⟩
  · obtain ⟨rs, u, hu, rfl⟩ := refresh_cases h
    exact exec_refresh_empty (by rw [emptyDirty_cfg, issueAll_cases hu]; exact hl) rfl
  · exact (execRefresh_of_dirty_full rfl false).trans (execRefresh_of_dirty_full rfl true).symm

/-! ## What a refresh sends -/

/-- Everything a refresh does when its transactions are answered: `issueAll_answered`, then DIRTY is the sentinel
(spec/43_refresh.md R209). -/
theorem sendAndEmpty_answered {rs : List BusRecord} {s : State} (h : answered rs.length s) :
    ∃ status draws, sendAndEmpty rs s = .next { s with
        dirty := Dirty.sentinel, status := status, draws := draws, answers := s.answers.drop rs.length,
        trace := s.trace ++ rs } ∧
      (status = s.status ∨ Records 2 4 s.status status) := by
  obtain ⟨status, draws, hsend, hstatus⟩ := issueAll_answered h
  exact ⟨status, draws, by rw [sendAndEmpty, hsend]; rfl, hstatus⟩

@[simp] theorem length_fbRun (fb : Memory) (lo n : Nat) : (fbRun fb lo n).length = n := by
  simp [fbRun]

theorem getElem?_fbRun (fb : Memory) (lo : Nat) {n k : Nat} (hk : k < n) :
    (fbRun fb lo n)[k]? = some (fbRead fb (lo + k)) := by
  simp [fbRun, hk]

/-- Settles O53: the full path issues these seven transactions, and each window bound fits its byte. -/
theorem refreshSendsTheFullFrame : Obligations.RefreshSendsTheFullFrame := by
  unfold Obligations.RefreshSendsTheFullFrame
  intro s force hinv hfull hans
  obtain ⟨hW1, -, hcol, -, hH, -, -⟩ := legal_ranges hinv.cfg
  obtain ⟨status, draws, hsend, hstatus⟩ := sendAndEmpty_answered (rs := fullTraffic s.cfg s.fb) hans
  refine ⟨status, draws, _, _, _, _, _, (exec_refresh_full hinv.cfg hfull).trans hsend, Nat.mod_eq_of_lt (by omega),
    Nat.mod_eq_of_lt (by omega), rfl, Nat.mod_eq_of_lt (by omega), length_fbRun _ _ _, fun k hk => ?_, hstatus⟩
  simpa using getElem?_fbRun s.fb 0 (n := fbBytes s.cfg) hk

/-- A rectangle that is not empty lies in the panel in every reachable state (spec/10_state.md R25). -/
theorem dirty_in_panel {s : State} (hinv : StateInv s) (h : s.dirty.isEmpty = false) :
    s.dirty.left.toNat ≤ s.dirty.right.toNat ∧ s.dirty.right.toNat < s.cfg.W ∧
      s.dirty.top.toNat ≤ s.dirty.bottom.toNat ∧ s.dirty.bottom.toNat < s.cfg.H := by
  rcases hinv.dirty with hsent | hrect
  · rw [hsent] at h
    exact absurd h (by decide)
  · exact hrect

/-- The bytes of one page of a rectangle of the panel lie in FB (spec/43_refresh.md R207, R210). -/
theorem page_byte_lt {c : Config} (hc : legal c = true) {x page : Nat} (hx : x < c.W) (hp : 8 * page < c.H) :
    x + page * c.W < fbBytes c := by
  have hin : inPanel c x (8 * page : Nat) = true := by
    rw [inPanel_iff]
    omega
  have hidx : idx c x (8 * page : Nat) = x + page * c.W := by
    rw [idx, Int.toNat_natCast, Int.toNat_natCast, Nat.mul_div_cancel_left _ (by decide)]
  rw [← hidx]
  exact idx_lt_fbBytes hc hin

/-- The bursts of the partial path, one for each page (spec/43_refresh.md R207). -/
def pageBursts (c : Config) (fb : Memory) (d : Dirty) : List (List Byte) :=
  (List.range' (pageStart d) (pageEnd d + 1 - pageStart d)).map fun p =>
    fbRun fb (d.left.toNat + p * c.W) (d.right.toNat + 1 - d.left.toNat)

theorem partialTraffic_eq (c : Config) (fb : Memory) (d : Dirty) :
    partialTraffic c fb d =
      setWindows c (c.colOffset + d.left.toNat) (c.colOffset + d.right.toNat) (pageStart d) (pageEnd d) ++
        (pageBursts c fb d).map (busData c) := by
  simp [partialTraffic, pageBursts]

@[simp] theorem length_pageBursts (c : Config) (fb : Memory) (d : Dirty) :
    (pageBursts c fb d).length = pageEnd d + 1 - pageStart d := by
  simp [pageBursts]

theorem length_partialTraffic (c : Config) (fb : Memory) (d : Dirty) :
    (partialTraffic c fb d).length = 6 + (pageEnd d + 1 - pageStart d) := by
  rw [partialTraffic_eq, List.length_append, List.length_map, length_pageBursts]
  rfl

theorem getElem?_pageBursts (c : Config) (fb : Memory) (d : Dirty) {p : Nat} (hp : p < pageEnd d + 1 - pageStart d) :
    (pageBursts c fb d)[p]? =
      some (fbRun fb (d.left.toNat + (pageStart d + p) * c.W) (d.right.toNat + 1 - d.left.toNat)) := by
  simp [pageBursts, hp]

/-- Settles O54: the partial path issues the windows and the bursts of `pageBursts`, whose bytes lie in FB. -/
theorem refreshSendsTheDirtyPages : Obligations.RefreshSendsTheDirtyPages := by
  unfold Obligations.RefreshSendsTheDirtyPages
  rintro s _ _ _ hinv hfull hempty rfl rfl rfl hans
  obtain ⟨-, -, hcol, -, hH, h8, -⟩ := legal_ranges hinv.cfg
  obtain ⟨hlr, hright, htb, hbottom⟩ := dirty_in_panel hinv hempty
  obtain ⟨status, draws, hsend, hstatus⟩ := sendAndEmpty_answered (rs := partialTraffic s.cfg s.fb s.dirty)
    (by rwa [length_partialTraffic])
  have hnext := (exec_refresh_partial hinv.cfg hfull hempty hright hbottom).trans hsend
  rw [length_partialTraffic, partialTraffic_eq] at hnext
  have hpage : (BitVec.ofNat 8 (pageEnd s.dirty)).toNat = s.dirty.bottom.toNat / 8 :=
    Nat.mod_eq_of_lt (by unfold pageEnd; omega)
  refine ⟨status, draws, _, _, _, _, pageBursts s.cfg s.fb s.dirty, hnext, Nat.mod_eq_of_lt (by omega),
    Nat.mod_eq_of_lt (by omega), Nat.mod_eq_of_lt (by unfold pageStart; omega), hpage, by omega,
    length_pageBursts _ _ _, fun p hp => ⟨_, getElem?_pageBursts _ _ _ hp, length_fbRun _ _ _, fun k hk => ⟨?_, ?_⟩⟩,
    hstatus⟩
  · rw [getElem?_fbRun _ _ hk, Nat.add_right_comm]
    rfl
  · exact page_byte_lt hinv.cfg (by omega) (by omega)

end Sys2Proof
end

section
/-! PROOFS. Exceptions (spec/60_exceptions.md): what a recorded error makes of STATUS, the legal configurations, and why
a command stops and a step is refused. -/

namespace Sys2Proof

open Machine

/-! ## The rejecting errors -/

/-- An error sets its sticky bit, records its code and keeps the other bits (spec/60_exceptions.md R230, R232). -/
theorem records_statusAfter (e : ErrCode) (st : Reg32) :
    Records e.stickyBit e.code.toNat st (statusAfter e st) :=
  ⟨sticky_statusAfter e st, congrArg BitVec.toNat (lastErr_statusAfter e st),
    fun _ hk hlo => other_bit_statusAfter e st hk hlo⟩

/-- The CMD_HI write of a word that does not decode records the error (spec/30_encoding.md R87). -/
theorem step_cmdHi_error {s : State} {v : Reg32} {rest : List HostAccess} {e : DecodeError} (hl : legal s.cfg = true)
    (hs : s.host = .write 0x0004 .word v :: rest) (hd : decode (v ++ s.cmdLo) = .error e) :
    step s = .next (raiseErr (errOfDecode e) { s with host := rest, cmdHi := v }) := by
  rw [step_cons hl hs, hostAccess_cmdHi]
  exact runCommand_error hd

/-- A string that runs to the end of STRMEM is not found (spec/42_text.md R180). -/
theorem readString_of_noTerminator {m : Memory} {a : Nat} (h : NoTerminator m a) : readString m a = .unterminated :=
  scanString_unterminated fun k hk => h (a + k) (by omega) (by omega)

/-- Settles O9: both kinds of rejection are `raiseErr`, which writes STATUS alone, as `records_statusAfter` says. -/
theorem rejectingErrorsChangeOnlyStatus : Obligations.RejectingErrorsChangeOnlyStatus := by
  unfold Obligations.RejectingErrorsChangeOnlyStatus
  refine ⟨fun s v rest e hl hs hd => ?_, fun s f fg bg x y a hf hstr => ?_⟩
  · refine ⟨_, step_cmdHi_error hl hs hd, ?_, ?_⟩
    · rintro rfl
      exact records_statusAfter .illegalOpcode s.status
    · rintro rfl
      exact records_statusAfter .reservedField s.status
  · have hreject := withString_of_unterminated (activeFont_eq_some_iff.2 hf) (readString_of_noTerminator hstr)
    exact ⟨_, records_statusAfter .unterminatedString s.status, hreject _, hreject _,
      hreject fun _ _ t => t⟩

/-! ## Legal configurations -/

/-- The check of a font is the requirement of spec/42_text.md R170 and R172. -/
theorem fontOk_iff {f : Font} : fontOk f = true ↔ WellFormedFont f := by
  refine ⟨wellFormedFont_of_fontOk, ?_⟩
  rintro ⟨hheight, hspacing, hend, hrange, hstart, hspace, hlen, hbitmap, hglyphs⟩
  have hdesc : ∀ d ∈ f.desc, glyphOk f d = true := fun d hd => by
    obtain ⟨k, hk⟩ := List.mem_iff_getElem?.1 hd
    obtain ⟨hwidth, hoffset, hinside⟩ := hglyphs k d hk
    simp only [glyphOk, Bool.and_eq_true, decide_eq_true_eq]
    exact ⟨⟨hwidth, Nat.lt_succ_of_le hoffset⟩, hinside⟩
  simp only [fontOk, Bool.and_eq_true, decide_eq_true_eq, List.all_eq_true]
  exact ⟨⟨⟨⟨⟨⟨⟨⟨hheight, hspacing⟩, hend⟩, hrange⟩, hstart⟩, hspace⟩, hlen⟩, hdesc⟩, hbitmap⟩

/-- The check of a configuration is the requirement of spec/00_scope.md R8. -/
theorem legal_iff {c : Config} : legal c = true ↔ LegalConfig c := by
  simp only [legal, LegalConfig, Bool.and_eq_true, decide_eq_true_eq, List.all_eq_true, fontOk_iff]
  constructor
  · rintro ⟨⟨⟨⟨⟨⟨⟨hW1, hW⟩, hcol⟩, hH8⟩, hH⟩, hrows⟩, hcount⟩, hfonts⟩
    exact ⟨hW1, hW, by omega, hH8, hH, hrows, by omega, hcount, hfonts⟩
  · rintro ⟨hW1, hW, hcol, hH8, hH, hrows, -, hcount, hfonts⟩
    exact ⟨⟨⟨⟨⟨⟨⟨hW1, hW⟩, by omega⟩, hH8⟩, hH⟩, hrows⟩, hcount⟩, hfonts⟩

/-! ## How a command ends -/

/-- The commands that issue transactions (spec/43_refresh.md R205, R212, R213). -/
def busOps : List Op := [.refresh, .sendCmd1, .sendCmd2]

/-- Everything that can come of a command with opcode `op` in the state `s`: it goes on, or it stops for one of three
causes. It is never refused. -/
inductive Ends (s : State) (op : Op) : Result → Prop
  | next (t : State) : Ends s op (.next t)
  | unwritten (hop : op ∈ stringOps) {a : Nat} (ha : a < strBytes) (hread : strRead s.strmem a = none) :
      Ends s op (.fault (.uninitStrmem a))
  | stuck (hop : op ∈ busOps) (hnever : BusAnswer.never ∈ s.answers) : Ends s op (.fault .transportStuck)
  | offPanel (hop : op = .refresh) (hempty : s.dirty.isEmpty = false)
      (hout : dirtyInPanel s.cfg s.dirty = false) : Ends s op (.fault .fbOutOfRange)

/-- A scan stops at an unwritten byte of its range (spec/70_reset_and_hazards.md R265). -/
theorem unwritten_of_scanString {m : Memory} {n a k : Nat} (h : scanString m n a = .unwritten k) :
    k < a + n ∧ strRead m k = none := by
  induction n generalizing a with
  | zero => simp [scanString] at h
  | succ n ih =>
    unfold scanString at h
    split at h
    next hread =>
      cases h
      exact ⟨by omega, hread⟩
    · split at h
      · cases h
      · cases hs : scanString m n (a + 1) with
        | unwritten j =>
          rw [hs, StringScan.cons] at h
          cases h
          obtain ⟨hlt, hread⟩ := ih hs
          exact ⟨by omega, hread⟩
        | found bytes => simp [hs, StringScan.cons] at h
        | unterminated => simp [hs, StringScan.cons] at h

theorem never_mem_of_not_answered {n : Nat} {s : State} (h : ¬ answered n s) : BusAnswer.never ∈ s.answers :=
  List.mem_of_mem_take (not_not.1 h)

/-- Transactions stop only where one of the answers never comes (spec/70_reset_and_hazards.md R266). -/
theorem issueAll_ends {op : Op} (hop : op ∈ busOps) (rs : List BusRecord) (s : State) : Ends s op (issueAll rs s) := by
  by_cases hans : answered rs.length s
  · obtain ⟨t, ht⟩ := issueAll_next hans
    exact ht ▸ .next t
  · rw [issueAll_stuck hans]
    exact .stuck hop (never_mem_of_not_answered hans)

theorem sendAndEmpty_ends (rs : List BusRecord) (s : State) : Ends s .refresh (sendAndEmpty rs s) := by
  by_cases hans : answered rs.length s
  · obtain ⟨status, draws, hnext, -⟩ := sendAndEmpty_answered hans
    exact hnext ▸ .next _
  · rw [sendAndEmpty, issueAll_stuck hans]
    exact .stuck (by decide) (never_mem_of_not_answered hans)

theorem execRefresh_ends (force : Bool) (s : State) : Ends s .refresh (execRefresh force s) := by
  unfold execRefresh
  split
  · exact sendAndEmpty_ends _ s
  · split
    · exact sendAndEmpty_ends _ s
    next hempty =>
      split
      · exact sendAndEmpty_ends _ s
      next hout => exact .offPanel rfl (by simpa using hempty) (by simpa using hout)

/-- A string command stops only at an unwritten byte (spec/70_reset_and_hazards.md R265). -/
theorem withString_ends {op : Op} (hop : op ∈ stringOps) (null : Bool) (a : BitVec 12)
    (run : Font → List Byte → State → State) (s : State) : Ends s op (withString null a run s) := by
  unfold withString
  cases activeFont s with
  | none => exact .next _
  | some f =>
    cases null with
    | true => exact .next _
    | false =>
      cases hread : readString s.strmem (size a) with
      | unwritten k =>
        obtain ⟨hlt, hnone⟩ := unwritten_of_scanString hread
        have ha : size a < strBytes := a.isLt
        exact .unwritten hop (by omega) hnone
      | unterminated => exact .next _
      | found bytes => exact .next _

theorem execDrawChar_ends (fg bg : Colour) (x y : BitVec 12) (code : Byte) (s : State) :
    Ends s .drawChar (execDrawChar fg bg x y code s) := by
  unfold execDrawChar
  split <;> exact .next _

/-- Every command ends in one of these ways. -/
theorem exec_ends (i : Instr) (s : State) : Ends s i.op (exec i s) := by
  cases i with
  | nop | clear | markDirty | setPixel | drawHline | drawVline | drawRect | fillRect | drawCircle | fillCircle
  | selectFont | clearStatus => exact .next _
  | drawChar fg bg x y code => exact execDrawChar_ends fg bg x y code s
  | drawStringColor | drawString => exact withString_ends (by simp [Instr.op, stringOps]) _ _ _ s
  | measureString null a => exact withString_ends (by simp [Instr.op, stringOps]) null a (fun _ _ t => t) s
  | refresh force => exact execRefresh_ends force s
  | sendCmd1 | sendCmd2 => exact issueAll_ends (by simp [Instr.op, busOps]) _ s

/-! ## Refusals -/

theorem exec_ne_refused (i : Instr) (s : State) (r : Refusal) : exec i s ≠ .refused r := by
  intro h
  have hends := exec_ends i s
  rw [h] at hends
  cases hends

/-- No access of the host is refused: what it reaches is read or stored, and a word is rejected or run. -/
theorem hostAccess_ne_refused (a : HostAccess) (s : State) (r : Refusal) : hostAccess a s ≠ .refused r := by
  cases a with
  | reset => exact nofun
  | read addr width => exact nofun
  | write addr width v =>
    simp only [hostAccess, runCommand]
    split
    · split
      · exact exec_ne_refused _ _ r
      · exact nofun
    · exact nofun

theorem step_ne_refused {s : State} (hl : legal s.cfg = true) (r : Refusal) : step s ≠ .refused r := by
  cases hs : s.host with
  | nil =>
    rw [step_nil hl hs]
    exact nofun
  | cons a rest =>
    rw [step_cons hl hs]
    exact hostAccess_ne_refused a _ r

/-- Settles O13: the step asks `legal`, which is `LegalConfig`, and refuses nothing else. -/
theorem onlyIllegalConfigurationsAreRefused : Obligations.OnlyIllegalConfigurationsAreRefused := by
  unfold Obligations.OnlyIllegalConfigurationsAreRefused
  intro s
  rw [← legal_iff]
  constructor
  · rintro ⟨r, hr⟩ hl
    exact step_ne_refused hl r hr
  · exact fun hl => ⟨.illegalConfiguration, if_neg hl⟩

/-! ## Faults -/

/-- Where the invariant holds, a rectangle that is not empty passes the check of REFRESH (spec/10_state.md R25). -/
theorem dirtyInPanel_of_inv {s : State} (hinv : StateInv s) (hempty : s.dirty.isEmpty = false) :
    dirtyInPanel s.cfg s.dirty = true := by
  obtain ⟨-, hright, -, hbottom⟩ := dirty_in_panel hinv hempty
  simp [dirtyInPanel, hright, hbottom]

/-- Settles O14: of the three causes in `Ends` the invariant shuts out the last. -/
theorem faultsHaveNamedCauses : Obligations.FaultsHaveNamedCauses := by
  unfold Obligations.FaultsHaveNamedCauses
  intro i s f hinv hf
  have hends := exec_ends i s
  rw [hf] at hends
  cases hends with
  | unwritten hop ha hread => exact .inl ⟨_, rfl, hop, ha, hread⟩
  | stuck hop hnever => exact .inr ⟨rfl, hop, hnever⟩
  | offPanel _ hempty hout => simp [dirtyInPanel_of_inv hinv hempty] at hout

end Sys2Proof
end

section
/-! PROOFS. Hazards (spec/70_reset_and_hazards.md): a string with an unwritten byte, and a transaction that is never
answered. -/

namespace Sys2Proof

open Machine

/-! ## An unwritten byte in a string -/

/-- `ReadString` stops at the first unwritten byte before any 0x00 (spec/70_reset_and_hazards.md R265). -/
theorem readString_of_unwritten {m : Memory} {a k : Nat} (hak : a ≤ k) (hk : k < strBytes) (hnone : strRead m k = none)
    (hbefore : ∀ j, a ≤ j → j < k → ∃ b, strRead m j = some b ∧ b ≠ 0x00#8) : readString m a = .unwritten k := by
  obtain ⟨d, rfl⟩ := Nat.exists_eq_add_of_le hak
  exact scanString_unwritten (by omega) (fun j hj => hbefore (a + j) (by omega) (by omega)) hnone

theorem withString_of_unwritten {s : State} {f : Font} {a : BitVec 12} {k : Nat} (hf : activeFont s = some f)
    (h : readString s.strmem (size a) = .unwritten k) (run : Font → List Byte → State → State) :
    withString false a run s = .fault (.uninitStrmem k) := by
  simp [withString, hf, h]

/-- Settles O52: the three string commands read the string alike, and `ReadString` stops at the unwritten byte. -/
theorem unwrittenStringByteFaults : Obligations.UnwrittenStringByteFaults := by
  unfold Obligations.UnwrittenStringByteFaults
  intro s f fg bg x y a k hf hak hk hnone hbefore
  have hfault := withString_of_unwritten (activeFont_eq_some_iff.2 hf) (readString_of_unwritten hak hk hnone hbefore)
  exact ⟨hfault _, hfault _, hfault fun _ _ t => t⟩

/-! ## A transaction that is never answered -/

theorem sendAndEmpty_stuck {rs : List BusRecord} {s : State} (h : ¬ answered rs.length s) :
    sendAndEmpty rs s = .fault .transportStuck := by
  rw [sendAndEmpty, issueAll_stuck h]

/-- Settles O59: each command issues its transactions in order, and `issueAll_stuck` says where that stops; the full
path of REFRESH issues seven, the partial path six and one for each page. -/
theorem unansweredTransactionIsStuck : Obligations.UnansweredTransactionIsStuck := by
  unfold Obligations.UnansweredTransactionIsStuck
  intro s b v force
  refine ⟨issueAll_stuck (rs := [busCmd s.cfg b]), issueAll_stuck (rs := [busCmd s.cfg b, busCmd s.cfg v]),
    fun hinv hfull hans => ?_, fun hinv hfull hempty hans => ?_⟩
  · exact (exec_refresh_full hinv.cfg hfull).trans (sendAndEmpty_stuck (rs := fullTraffic s.cfg s.fb) hans)
  · obtain ⟨-, hright, -, hbottom⟩ := dirty_in_panel hinv hempty
    rw [exec_refresh_partial hinv.cfg hfull hempty hright hbottom]
    exact sendAndEmpty_stuck (by rwa [length_partialTraffic])

end Sys2Proof
end
